-- ==== Sys2Proof/Word.lean ====
section
/-! DEFINITION. The two word sizes of the block (00_scope.md R8): 16-bit registers and 8-bit bytes. -/

namespace Sys2Proof

/-- A register or command word: 16 bits (R8). -/
abbrev Word := BitVec 16

/-- A byte: 8 bits (R8). -/
abbrev Byte := BitVec 8

end Sys2Proof
end

