-- ==== Sys2Proof/Config.lean ====
section
/-! DEFINITION. The parameters of 00_scope.md R6, as plain data a state carries and no step changes,
and the free values: what the environment answers to a draw once its listed answers are used up. -/

namespace Sys2Proof

/-- The controller protocol variant, a strap fixed for the life of the block (R6, R36). -/
inductive Variant where
  | a
  | b
  deriving DecidableEq, Repr

/-- The loop rule of the line rasterizer (R6, R183). -/
inductive LineMode where
  | inclusive
  | exclusive
  | sourceQuirk
  deriving DecidableEq, Repr

/-- A 30-byte waveform table (R45). -/
abbrev Lut := Vector Byte 30

/-- The panel command bytes of variant A (30_encoding.md R110). -/
structure CmdA where
  panelSetting : Byte
  powerOff : Byte
  powerOn : Byte
  boosterSoftStart : Byte
  deepSleep : Byte
  dataStartTransmission1 : Byte
  displayRefresh : Byte
  dataStartTransmission2 : Byte
  vcomAndDataInterval : Byte
  resolutionSetting : Byte
  partialWindow : Byte
  partialIn : Byte
  partialOut : Byte
  deriving DecidableEq, Repr

/-- The panel command bytes of variant B (30_encoding.md R111). -/
structure CmdB where
  driverOutputControl : Byte
  boosterSoftStartControl : Byte
  deepSleepMode : Byte
  dataEntryMode : Byte
  masterActivation : Byte
  displayUpdateControl2 : Byte
  writeRam : Byte
  writeVcomRegister : Byte
  writeLutRegister : Byte
  dummyLinePeriod : Byte
  gateTime : Byte
  ramXStartEnd : Byte
  ramYStartEnd : Byte
  ramXCounter : Byte
  ramYCounter : Byte
  terminateFrameReadWrite : Byte
  deriving DecidableEq, Repr

/-- The constant data bytes of variant A (30_encoding.md R112). -/
structure DataA where
  booster : List Byte
  panel : Byte
  vcom : Byte
  ptScan : Byte
  deepSleepKey : Byte
  deriving DecidableEq, Repr

/-- The constant data bytes of variant B (30_encoding.md R112). -/
structure DataB where
  scanFlags : Byte
  booster : List Byte
  vcom : Byte
  dummy : Byte
  gate : Byte
  entry : Byte
  update : Byte
  deriving DecidableEq, Repr

/-- The parameters of one block instance (R6). `RB` is computed from `panelW`
(Machine/Params.lean) and `ADDR_W` is 16 (R47). `Config.Wf` (Machine/Params.lean) says which values
are a block's (R270). -/
structure Config where
  variant : Variant
  panelW : Word
  panelH : Word
  readyLevel : Bool
  pollMs : Nat
  resetMs : Nat
  waitMaxPolls : Nat
  settleMs : Nat
  lineMode : LineMode
  cmdA : CmdA
  cmdB : CmdB
  dataA : DataA
  dataB : DataB
  lutFull : Lut
  lutPartial : Lut
  deriving DecidableEq, Repr

/-- FREE VALUE (log entry 6): the BUSY level of the `n`th draw that no listed answer covers.
It has no body, so nothing can be proved about which level it is. -/
opaque Config.freeBusyLevel : Nat → Bool

/-- FREE VALUE (log entry 6): the `HwInit` result (true is ok) of the `n`th draw that no listed
answer covers. It has no body. -/
opaque Config.freeInitResult : Nat → Bool

end Sys2Proof
end

