-- ==== Sys2Proof/Syntax.lean ====
section
/-! DEFINITION. The operations of the block: one constructor per row of spec/opcode_table.json
(31 rows; CTL_INIT has one row per variant). An operation's word carries only its MOD operand;
its other operands stand in ARG0 to ARG5 (30_encoding.md R100, R104). -/

namespace Sys2Proof

/-- The logical colour of a drawing operation (00_scope.md R12). -/
inductive Colour where
  | colored
  | uncolored
  deriving DecidableEq, Repr

/-- The rotation of FB_CFG.ROT, in quarter turns (10_state.md R42). -/
inductive Rotation where
  | r0
  | r90
  | r180
  | r270
  deriving DecidableEq, Repr

/-- The LUT select of 30_encoding.md R102; select 3 is illegal and has no name here. -/
inductive LutSel where
  | presetFull
  | presetPartial
  | custom
  deriving DecidableEq, Repr

/-- One operation (30_encoding.md R104). -/
inductive Instr where
  /-- 0x00 NOP (R234) -/
  | nop
  /-- 0x01 FB_INIT (R141) -/
  | fbInit
  /-- 0x02 FB_SET_ROTATION (R142) -/
  | fbSetRotation (r : Rotation)
  /-- 0x03 FB_SET_WIDTH (R143) -/
  | fbSetWidth
  /-- 0x04 FB_SET_HEIGHT (R144) -/
  | fbSetHeight
  /-- 0x05 FB_SET_INVERT (R145) -/
  | fbSetInvert (v : Bool)
  /-- 0x10 FB_CLEAR (R151) -/
  | fbClear (c : Colour)
  /-- 0x11 FB_DRAW_ABS_PIXEL (R148) -/
  | fbDrawAbsPixel (c : Colour)
  /-- 0x12 FB_DRAW_PIXEL (R150) -/
  | fbDrawPixel (c : Colour)
  /-- 0x13 FB_DRAW_CHAR (R181) -/
  | fbDrawChar (c : Colour)
  /-- 0x14 FB_DRAW_STRING (R182) -/
  | fbDrawString (c : Colour)
  /-- 0x15 FB_DRAW_LINE (R184) -/
  | fbDrawLine (c : Colour)
  /-- 0x16 FB_DRAW_HLINE (R186) -/
  | fbDrawHline (c : Colour)
  /-- 0x17 FB_DRAW_VLINE (R188) -/
  | fbDrawVline (c : Colour)
  /-- 0x18 FB_DRAW_RECT (R189) -/
  | fbDrawRect (c : Colour)
  /-- 0x19 FB_DRAW_FILLED_RECT (R190) -/
  | fbDrawFilledRect (c : Colour)
  /-- 0x1A FB_DRAW_CIRCLE (R192) -/
  | fbDrawCircle (c : Colour)
  /-- 0x1B FB_DRAW_FILLED_CIRCLE (R193) -/
  | fbDrawFilledCircle (c : Colour)
  /-- 0x20 CTL_RESET (R235) -/
  | ctlReset
  /-- 0x21 CTL_INIT, the row of variant A (R236, R271) -/
  | ctlInitA
  /-- 0x21 CTL_INIT, the row of variant B (R236, R301) -/
  | ctlInitB (sel : LutSel)
  /-- 0x22 CTL_DISPLAY_FRAME (R237) -/
  | ctlDisplayFrame
  /-- 0x23 CTL_SLEEP (R238) -/
  | ctlSleep
  /-- 0x24 CTL_CLEAR_FRAME_MEMORY (R239) -/
  | ctlClearFrameMemory
  /-- 0x30 A_SET_PARTIAL_WINDOW (R272); the two plane-present bits -/
  | aSetPartialWindow (black red : Bool)
  /-- 0x31 A_SET_PARTIAL_WINDOW_BLACK (R273); the black-present bit -/
  | aSetPartialWindowBlack (black : Bool)
  /-- 0x40 B_SET_LUT (R303) -/
  | bSetLut (sel : LutSel)
  /-- 0x41 B_SET_MEMORY_AREA (R305) -/
  | bSetMemoryArea
  /-- 0x42 B_SET_MEMORY_POINTER (R307) -/
  | bSetMemoryPointer
  /-- 0x43 B_SET_FRAME_MEMORY_AT (R308) -/
  | bSetFrameMemoryAt
  /-- 0x44 B_SET_FRAME_MEMORY (R309) -/
  | bSetFrameMemory
  deriving DecidableEq, Repr

end Sys2Proof
end

