-- ==== Sys2Proof/WellFormed.lean ====
section
/-! DEFINITION. Which operations a block of a given variant has (30_encoding.md R105). The types of
the operands already leave out every illegal MOD value. -/

namespace Sys2Proof

/-- The one variant an operation belongs to, where it belongs to one (R104, R105). -/
def Instr.onlyOn : Instr → Option Variant
  | .ctlInitA | .aSetPartialWindow _ _ | .aSetPartialWindowBlack _ => some .a
  | .ctlInitB _ | .bSetLut _ | .bSetMemoryArea | .bSetMemoryPointer | .bSetFrameMemoryAt
  | .bSetFrameMemory => some .b
  | .nop | .fbInit | .fbSetRotation _ | .fbSetWidth | .fbSetHeight | .fbSetInvert _
  | .fbClear _ | .fbDrawAbsPixel _ | .fbDrawPixel _ | .fbDrawChar _ | .fbDrawString _
  | .fbDrawLine _ | .fbDrawHline _ | .fbDrawVline _ | .fbDrawRect _ | .fbDrawFilledRect _
  | .fbDrawCircle _ | .fbDrawFilledCircle _ | .ctlReset | .ctlDisplayFrame | .ctlSleep
  | .ctlClearFrameMemory => none

/-- An operation is well formed on variant `v` when `v` has it (R105). -/
def Instr.WellFormed (v : Variant) (i : Instr) : Bool :=
  match i.onlyOn with
  | none => true
  | some w => w == v

end Sys2Proof
end

