-- ==== Sys2Proof/Decode.lean ====
section
/-! DEFINITION. The decoder of command words (30_encoding.md R100 to R107, 60_exceptions.md R342),
total on every 16-bit word and rejecting by name, and the encoder, written from the same table. -/

namespace Sys2Proof

/-- Why a command word is no operation; each is reported as IllegalOp (R342). -/
inductive DecodeError where
  /-- RSV is not 0 (R101) -/
  | reservedBits
  /-- OPC is not in the opcode map (R106) -/
  | unknownOpcode
  /-- the opcode belongs to the other variant (R105) -/
  | otherVariant
  /-- a MOD bit the opcode does not have, or LUT select 3 (R102, R106) -/
  | badModifier
  deriving DecidableEq, Repr

/-- RSV, bits [15:12] (R100). -/
def rsvOf (w : Word) : BitVec 4 := w.extractLsb' 12 4

/-- MOD, bits [11:8] (R100). -/
def modOf (w : Word) : BitVec 4 := w.extractLsb' 8 4

/-- OPC, bits [7:0] (R100). -/
def opcOf (w : Word) : Byte := w.extractLsb' 0 8

/-- MOD use "none": every bit 0 (R102). -/
def modNone (i : Instr) (m : BitVec 4) : Option Instr :=
  if m = 0#4 then some i else none

/-- MOD use of one bit, MOD[0]; MOD[3:1] must be 0 (R102). -/
def modBit (f : Bool → Instr) (m : BitVec 4) : Option Instr :=
  if m.extractLsb' 1 3 = 0#3 then some (f (m.getLsbD 0)) else none

/-- The colour a MOD[0] bit stands for (R12, R102). -/
def Colour.ofBit (b : Bool) : Colour := if b then .colored else .uncolored

/-- The MOD[0] bit of a colour (R12, R102). -/
def Colour.bit : Colour → Bool
  | .colored => true
  | .uncolored => false

/-- MOD use "colour" (R102). -/
def modColour (f : Colour → Instr) (m : BitVec 4) : Option Instr :=
  modBit (fun b => f (Colour.ofBit b)) m

/-- The rotation a 2-bit code stands for (R42, R102). -/
def Rotation.ofCode (r : BitVec 2) : Rotation :=
  if r = 0#2 then .r0 else if r = 1#2 then .r90 else if r = 2#2 then .r180 else .r270

/-- The 2-bit code of a rotation (R42, R102). -/
def Rotation.code : Rotation → BitVec 2
  | .r0 => 0
  | .r90 => 1
  | .r180 => 2
  | .r270 => 3

/-- MOD use "rotation": MOD[1:0]; MOD[3:2] must be 0 (R102). -/
def modRotation (f : Rotation → Instr) (m : BitVec 4) : Option Instr :=
  if m.extractLsb' 2 2 = 0#2 then some (f (Rotation.ofCode (m.extractLsb' 0 2))) else none

/-- MOD use "planes": MOD[0] black present, MOD[1] red present (R102). -/
def modPlanes (f : Bool → Bool → Instr) (m : BitVec 4) : Option Instr :=
  if m.extractLsb' 2 2 = 0#2 then some (f (m.getLsbD 0) (m.getLsbD 1)) else none

/-- The table a LUT select stands for; 3 is illegal (R102, R106). -/
def LutSel.ofCode (s : BitVec 2) : Option LutSel :=
  if s = 0#2 then some .presetFull else if s = 1#2 then some .presetPartial
  else if s = 2#2 then some .custom else none

/-- The 2-bit code of a LUT select (R102). -/
def LutSel.code : LutSel → BitVec 2
  | .presetFull => 0
  | .presetPartial => 1
  | .custom => 2

/-- MOD use "LUT select": MOD[1:0]; MOD[3:2] must be 0 and select 3 is illegal (R102, R106). -/
def modLut (f : LutSel → Instr) (m : BitVec 4) : Option Instr :=
  if m.extractLsb' 2 2 = 0#2 then (LutSel.ofCode (m.extractLsb' 0 2)).map f else none

/-- One row of the opcode map (R104): the opcode, the one variant that has it if only one has,
and how MOD is read, which depends on the variant for CTL_INIT alone (R105). -/
structure OpRow where
  opc : Byte
  only : Option Variant
  read : Variant → BitVec 4 → Option Instr

/-- The framebuffer half of the opcode map (R104). -/
def opcodeTableFb : List OpRow :=
  [ ⟨0x00, none, fun _ => modNone .nop⟩,
    ⟨0x01, none, fun _ => modNone .fbInit⟩,
    ⟨0x02, none, fun _ => modRotation .fbSetRotation⟩,
    ⟨0x03, none, fun _ => modNone .fbSetWidth⟩,
    ⟨0x04, none, fun _ => modNone .fbSetHeight⟩,
    ⟨0x05, none, fun _ => modBit .fbSetInvert⟩,
    ⟨0x10, none, fun _ => modColour .fbClear⟩,
    ⟨0x11, none, fun _ => modColour .fbDrawAbsPixel⟩,
    ⟨0x12, none, fun _ => modColour .fbDrawPixel⟩,
    ⟨0x13, none, fun _ => modColour .fbDrawChar⟩,
    ⟨0x14, none, fun _ => modColour .fbDrawString⟩,
    ⟨0x15, none, fun _ => modColour .fbDrawLine⟩,
    ⟨0x16, none, fun _ => modColour .fbDrawHline⟩,
    ⟨0x17, none, fun _ => modColour .fbDrawVline⟩,
    ⟨0x18, none, fun _ => modColour .fbDrawRect⟩,
    ⟨0x19, none, fun _ => modColour .fbDrawFilledRect⟩,
    ⟨0x1A, none, fun _ => modColour .fbDrawCircle⟩,
    ⟨0x1B, none, fun _ => modColour .fbDrawFilledCircle⟩ ]

/-- The controller half of the opcode map (R104, R105). -/
def opcodeTableCtl : List OpRow :=
  [ ⟨0x20, none, fun _ => modNone .ctlReset⟩,
    ⟨0x21, none, fun v =>
      match v with
      | .a => modNone .ctlInitA
      | .b => modLut .ctlInitB⟩,
    ⟨0x22, none, fun _ => modNone .ctlDisplayFrame⟩,
    ⟨0x23, none, fun _ => modNone .ctlSleep⟩,
    ⟨0x24, none, fun _ => modNone .ctlClearFrameMemory⟩,
    ⟨0x30, some .a, fun _ => modPlanes .aSetPartialWindow⟩,
    ⟨0x31, some .a, fun _ => modBit .aSetPartialWindowBlack⟩,
    ⟨0x40, some .b, fun _ => modLut .bSetLut⟩,
    ⟨0x41, some .b, fun _ => modNone .bSetMemoryArea⟩,
    ⟨0x42, some .b, fun _ => modNone .bSetMemoryPointer⟩,
    ⟨0x43, some .b, fun _ => modNone .bSetFrameMemoryAt⟩,
    ⟨0x44, some .b, fun _ => modNone .bSetFrameMemory⟩ ]

/-- The opcode map (R104). -/
def opcodeTable : List OpRow := opcodeTableFb ++ opcodeTableCtl

/-- `Decode(w)` on a block of variant `v`, in the order of R107 and R342: RSV, OPC, variant, MOD. -/
def decode (v : Variant) (w : Word) : Except DecodeError Instr :=
  if rsvOf w ≠ 0#4 then .error .reservedBits
  else match opcodeTable.find? (fun r => r.opc == opcOf w) with
    | none => .error .unknownOpcode
    | some row =>
      if row.only = some v ∨ row.only = none then
        match row.read v (modOf w) with
        | none => .error .badModifier
        | some i => .ok i
      else .error .otherVariant

/-- OPC of an operation (R104). -/
def Instr.opcode : Instr → Byte
  | .nop => 0x00
  | .fbInit => 0x01
  | .fbSetRotation _ => 0x02
  | .fbSetWidth => 0x03
  | .fbSetHeight => 0x04
  | .fbSetInvert _ => 0x05
  | .fbClear _ => 0x10
  | .fbDrawAbsPixel _ => 0x11
  | .fbDrawPixel _ => 0x12
  | .fbDrawChar _ => 0x13
  | .fbDrawString _ => 0x14
  | .fbDrawLine _ => 0x15
  | .fbDrawHline _ => 0x16
  | .fbDrawVline _ => 0x17
  | .fbDrawRect _ => 0x18
  | .fbDrawFilledRect _ => 0x19
  | .fbDrawCircle _ => 0x1A
  | .fbDrawFilledCircle _ => 0x1B
  | .ctlReset => 0x20
  | .ctlInitA => 0x21
  | .ctlInitB _ => 0x21
  | .ctlDisplayFrame => 0x22
  | .ctlSleep => 0x23
  | .ctlClearFrameMemory => 0x24
  | .aSetPartialWindow _ _ => 0x30
  | .aSetPartialWindowBlack _ => 0x31
  | .bSetLut _ => 0x40
  | .bSetMemoryArea => 0x41
  | .bSetMemoryPointer => 0x42
  | .bSetFrameMemoryAt => 0x43
  | .bSetFrameMemory => 0x44

/-- A 4-bit MOD value with bits 3 and 2 zero, bit 1 `hi` and bit 0 `lo`. -/
def modBits (hi lo : Bool) : BitVec 4 := 0#2 ++ (BitVec.ofBool hi ++ BitVec.ofBool lo)

/-- MOD of an operation (R102). -/
def Instr.modifier : Instr → BitVec 4
  | .fbSetRotation r => 0#2 ++ r.code
  | .fbSetInvert v => modBits false v
  | .fbClear c | .fbDrawAbsPixel c | .fbDrawPixel c | .fbDrawChar c | .fbDrawString c
  | .fbDrawLine c | .fbDrawHline c | .fbDrawVline c | .fbDrawRect c | .fbDrawFilledRect c
  | .fbDrawCircle c | .fbDrawFilledCircle c => modBits false c.bit
  | .ctlInitB s | .bSetLut s => 0#2 ++ s.code
  | .aSetPartialWindow black red => modBits red black
  | .aSetPartialWindowBlack black => modBits false black
  | .nop | .fbInit | .fbSetWidth | .fbSetHeight | .ctlReset | .ctlInitA | .ctlDisplayFrame
  | .ctlSleep | .ctlClearFrameMemory | .bSetMemoryArea | .bSetMemoryPointer
  | .bSetFrameMemoryAt | .bSetFrameMemory => 0#4

/-- The command word of an operation: RSV = 0, MOD, OPC (R100). -/
def encode (i : Instr) : Word := 0#4 ++ (i.modifier ++ i.opcode)

/-- The other variant. -/
def Variant.other : Variant → Variant
  | .a => .b
  | .b => .a

/-- The variant under which word `w` is read when `v` is preferred: `v`, unless only the other
variant has the operation (log entry 9). -/
def strapFor (v : Variant) (w : Word) : Variant :=
  match decode v w, decode v.other w with
  | .error _, .ok _ => v.other
  | _, _ => v

/-- The operation the decoder reads from the table's bits `w` (bit 0 is the word's least significant
bit). A command word has 16 bits; a set bit above them makes it no command word. Words that only
variant B has are read as variant B reads them, all others as variant A does (log entry 9). -/
def decodeTableWord (nbits w : Nat) : Option Instr :=
  let w := w % 2 ^ nbits
  if w < 2 ^ 16 then
    let w : Word := BitVec.ofNat 16 w
    match decode (strapFor .a w) w with
    | .ok i => some i
    | .error _ => none
  else none

end Sys2Proof
end

