-- ==== Sys2Proof/Machine/Params.lean ====
section
/-! DEFINITION. The default values of the parameters (00_scope.md R6, 30_encoding.md R110 to R113),
what is computed from them, and which parameters a block can have (43_variant_a.md R270). -/

namespace Sys2Proof

/-- `RB`, the panel RAM row length in bytes: `ceil(PANEL_W / 8)` (R6, D22). -/
def Config.rb (c : Config) : Nat := (c.panelW.toNat + 7) / 8

/-- The parameters are those of a block: variant A sends an X coordinate as one byte of pixel address,
and a wider instance is not a variant A block (R270, D9). -/
abbrev Config.Wf (c : Config) : Prop := c.variant = .a → c.panelW.toNat ≤ 256

/-- The default table `CMD_A` (R110). -/
def Params.cmdA : CmdA :=
  { panelSetting := 0x00, powerOff := 0x02, powerOn := 0x04, boosterSoftStart := 0x06,
    deepSleep := 0x07, dataStartTransmission1 := 0x10, displayRefresh := 0x12,
    dataStartTransmission2 := 0x13, vcomAndDataInterval := 0x50, resolutionSetting := 0x61,
    partialWindow := 0x90, partialIn := 0x91, partialOut := 0x92 }

/-- The default table `CMD_B` (R111). -/
def Params.cmdB : CmdB :=
  { driverOutputControl := 0x01, boosterSoftStartControl := 0x0C, deepSleepMode := 0x10,
    dataEntryMode := 0x11, masterActivation := 0x20, displayUpdateControl2 := 0x22,
    writeRam := 0x24, writeVcomRegister := 0x2C, writeLutRegister := 0x32,
    dummyLinePeriod := 0x3A, gateTime := 0x3B, ramXStartEnd := 0x44, ramYStartEnd := 0x45,
    ramXCounter := 0x4E, ramYCounter := 0x4F, terminateFrameReadWrite := 0xFF }

/-- The default table `DATA_A` (R112). -/
def Params.dataA : DataA :=
  { booster := [0x17, 0x17, 0x17], panel := 0x8F, vcom := 0x37, ptScan := 0x01,
    deepSleepKey := 0xA5 }

/-- The default table `DATA_B` (R112). -/
def Params.dataB : DataB :=
  { scanFlags := 0x00, booster := [0xD7, 0xD6, 0x9D], vcom := 0xA8, dummy := 0x1A, gate := 0x08,
    entry := 0x03, update := 0xC4 }

/-- The default `LUT_FULL` (R113). -/
def Params.lutFull : Lut :=
  #v[0x22, 0x55, 0xAA, 0x55, 0xAA, 0x55, 0xAA, 0x11, 0x00, 0x00,
     0x00, 0x00, 0x00, 0x00, 0x00, 0x00, 0x1E, 0x1E, 0x1E, 0x1E,
     0x1E, 0x1E, 0x1E, 0x1E, 0x01, 0x00, 0x00, 0x00, 0x00, 0x00]

/-- The default `LUT_PARTIAL` (R113). -/
def Params.lutPartial : Lut :=
  #v[0x18, 0x00, 0x00, 0x00, 0x00, 0x00, 0x00, 0x00, 0x00, 0x00,
     0x00, 0x00, 0x00, 0x00, 0x00, 0x00, 0x0F, 0x01, 0x00, 0x00,
     0x00, 0x00, 0x00, 0x00, 0x00, 0x00, 0x00, 0x00, 0x00, 0x00]

/-- The parameters of R6 at their defaults, on variant A: 104 by 212, ready is BUSY high (R270). -/
def Params.defaultA : Config :=
  { variant := .a, panelW := 104, panelH := 212, readyLevel := true, pollMs := 100,
    resetMs := 200, waitMaxPolls := 600, settleMs := 2, lineMode := .inclusive,
    cmdA := Params.cmdA, cmdB := Params.cmdB, dataA := Params.dataA, dataB := Params.dataB,
    lutFull := Params.lutFull, lutPartial := Params.lutPartial }

/-- The parameters of R6 at their defaults, on variant B: 122 by 250, ready is BUSY low (R300). -/
def Params.defaultB : Config :=
  { Params.defaultA with variant := .b, panelW := 122, panelH := 250, readyLevel := false }

/-- The default parameters of a variant (R6). -/
def Params.defaults : Variant → Config
  | .a => Params.defaultA
  | .b => Params.defaultB

end Sys2Proof
end

