-- ==== Sys2Proof/Machine/State.lean ====
section
/-! DEFINITION. The state of the EPD block (10_state.md R30 to R47, R69), as plain data, its reset
value, and the ways a step can stop. -/

namespace Sys2Proof.Machine

/-- The FSM state of the controller, the field `STATE[2:0]` (R34). Codes 6 and 7 are never held. -/
inductive Fsm where
  | uninitialized
  | idle
  | writing
  | partialMode
  | refreshing
  | sleeping
  deriving DecidableEq, Repr

/-- The result of the last completed operation, the field `STATUS.CODE` (R35, R341). Codes 6 to 15
are never written. -/
inductive Code where
  | ok
  | invalidGeometry
  | invalidState
  | hardwareFault
  | hardwareInitFailure
  | illegalOp
  deriving DecidableEq, Repr

/-- The register PINS: the levels last driven on RST, DC and CS, which are also the port's output
levels, and the level last sampled on BUSY (R44, R69). True is level 1. -/
structure Pins where
  rst : Bool
  dc : Bool
  cs : Bool
  busy : Bool
  deriving DecidableEq, Repr

/-- The framebuffer geometry registers FB_BASE, FB_CAP, FB_WIDTH, FB_HEIGHT and the two fields of
FB_CFG (R38 to R42). -/
structure FbRegs where
  base : Word
  cap : Word
  width : Word
  height : Word
  rot : Rotation
  inv : Bool
  deriving DecidableEq, Repr

/-- The three outputs of the panel port (R220). -/
inductive Pin where
  | rst
  | dc
  | cs
  deriving DecidableEq, Repr

/-- A panel-port event (R221). Level 1 is true; an `HwInit` answer of ok is true. -/
inductive Event where
  | pin (p : Pin) (level : Bool)
  | xfer (b : Byte)
  | busy (level : Bool)
  | delay (ms : Nat)
  | hwInit (ok : Bool)
  deriving DecidableEq, Repr

/-- An event of the trace, with the value STATE held when it was emitted: what a host reading STATE
at that moment would see (R34, R48; log entry 11). -/
structure Traced where
  fsm : Fsm
  event : Event
  deriving DecidableEq, Repr

/-- One access of the host (R7, R46, R47, R380). -/
inductive HostAct where
  /-- write 16-bit `v` to register number `n` (R46) -/
  | regWrite (n : Byte) (v : Word)
  /-- read register number `n` (R46) -/
  | regRead (n : Byte)
  /-- write byte `v` to DMEM at `a` (R47) -/
  | memWrite (a : Word) (v : Byte)
  /-- read the byte of DMEM at `a` (R47) -/
  | memRead (a : Word)
  /-- assert the block reset, the running operation, if there is one, having had its first `k`
  effects; the assertion and the release are one access (R380; log entry 10) -/
  | blockReset (k : Nat)
  /-- make no access in this step -/
  | pass
  deriving DecidableEq, Repr

/-- What a read of the host returned. -/
inductive Reply where
  | reg (n : Byte) (v : Word)
  | mem (a : Word) (v : Byte)
  deriving DecidableEq, Repr

/-- DMEM (R47): address and byte, in the canonical form of `Memory.wf` (Machine/Ops.lean). An
address not listed reads as `Memory.unlisted`. -/
abbrev Memory := List Host.Cell

/-- The state of the block. The parameters `cfg` are fixed (R6) and hold ID, PANEL_W and PANEL_H
(R36, R37). The last five fields but `trace` are the model's own (log entries 5 and 6). -/
structure State where
  /-- the parameters (R6); no step writes them -/
  cfg : Config
  /-- CMD (R32) -/
  cmd : Word
  /-- ARG0 to ARG5 (R31) -/
  arg0 : Word
  arg1 : Word
  arg2 : Word
  arg3 : Word
  arg4 : Word
  arg5 : Word
  /-- STATE (R34) -/
  fsm : Fsm
  /-- STATUS.CODE (R35) -/
  code : Code
  /-- STATUS.OPBUSY (R35) -/
  opbusy : Bool
  /-- the framebuffer geometry (R38 to R42) -/
  fb : FbRegs
  /-- PINS (R44) -/
  pins : Pins
  /-- LUT_CUR (R45) -/
  lut : Lut
  /-- DMEM (R47) -/
  mem : Memory
  /-- the event trace, newest first (R10, R221) -/
  trace : List Traced
  /-- host accesses made and not yet performed, oldest first (R80, R383) -/
  host : List HostAct
  /-- what the host's reads returned, newest first -/
  replies : List Reply
  /-- the BUSY levels the panel will answer, next first (R225) -/
  busyIn : List Bool
  /-- the results the hardware interface will answer, next first (R227) -/
  initIn : List Bool
  /-- how many free values have been drawn -/
  draws : Nat
  deriving DecidableEq, Repr

/-- Why a step can stop with a fault. There is no reason: no access of DMEM faults (20_memory.md
R70), the block has no traps (60_exceptions.md R340, R350), and every failure of an operation is a
status code and a next state (R341). Nobody raises one, so this is safe (log entry 13). -/
inductive Fault where
  deriving DecidableEq, Repr

/-- Why a step can be refused. -/
inductive Refusal where
  /-- raised only by an arm of `exec` whose operation has no meaning yet; no arm is of that kind,
  so it is never raised; safe -/
  | notModelled (mnemonic : String)
  deriving DecidableEq, Repr

/-- What a meaning answers. -/
abbrev Result := Host.Outcome State Fault Refusal

/-- The PINS register after a block reset (R69). -/
def Pins.reset : Pins := { rst := true, dc := false, cs := true, busy := false }

/-- The framebuffer registers after a block reset (R69). -/
def FbRegs.reset : FbRegs :=
  { base := 0, cap := 0, width := 0, height := 0, rot := .r0, inv := false }

/-- LUT_CUR after a block reset: 30 bytes of 0x00 (R69). -/
def Lut.reset : Lut := Vector.replicate 30 0

/-- The block with parameters `cfg` and launch memory `mem` right after reset, with no host access
pending and no answer of the environment listed (R69, R380). It is the reset state of a block of the
spec where `cfg.Wf` (R270). -/
def State.resetWith (cfg : Config) (mem : Memory) : State :=
  { cfg := cfg, cmd := 0, arg0 := 0, arg1 := 0, arg2 := 0, arg3 := 0, arg4 := 0, arg5 := 0,
    fsm := .uninitialized, code := .ok, opbusy := false, fb := FbRegs.reset, pins := Pins.reset,
    lut := Lut.reset, mem := mem, trace := [], host := [], replies := [], busyIn := [],
    initIn := [], draws := 0 }

/-- The machine right after reset (R69): the default parameters of variant A, since VARIANT has no
default of the spec's (log entry 2), and no byte of memory listed (log entry 3). -/
def State.reset : State := State.resetWith Params.defaultA []

end Sys2Proof.Machine
end

