-- ==== Sys2Proof/Machine/Operands.lean ====
section
/-! DEFINITION. How operands are read and narrowed: `s16`, `u16`, `u8` (30_encoding.md R103), the
integer helpers of 00_scope.md R9, and inclusive integer ranges (R10). -/

namespace Sys2Proof.Machine

/-- `sext_16`: a signed coordinate, length or radius (R9, R103). -/
def s16 (w : Word) : Int := w.toInt

/-- `zext_16`: an address, a capacity or a font dimension (R9, R103). -/
def u16 (w : Word) : Int := (w.toNat : Int)

/-- The low byte of a register, `ARGk[7:0]` (R103). -/
def u8 (w : Word) : Byte := w.extractLsb' 0 8

/-- `lo8(v)`: `v mod 256`, as a byte (R9). -/
def lo8 (v : Int) : Byte := BitVec.ofInt 8 v

/-- The byte `(v >> 8)` that is sent as the high half of a two-byte field (R9, R224). -/
def hi8 (v : Int) : Byte := lo8 (v / 256)

/-- `ceil8(w)`: the least multiple of 8 at or above `w` (R9). -/
def ceil8 (w : Int) : Int := (w + 7) / 8 * 8

/-- `floor8(v)`: `v - v mod 8` (R9). -/
def floor8 (v : Int) : Int := v - v % 8

/-- The 16-bit register value of an integer. -/
def toWord (v : Int) : Word := BitVec.ofInt 16 v

/-- The integers from `a` up to `b` inclusive, none when `a > b`: the run of `for i in a..b` (R10). -/
def intRange (a b : Int) : List Int :=
  (List.range (b - a + 1).toNat).map fun (k : Nat) => a + (k : Int)

/-- `f 0`, then `f 1`, up to `f (n - 1)`: a counted loop with a carried value. -/
def upTo {α : Type} : Nat → (Nat → α → α) → α → α
  | 0, _, a => a
  | n + 1, f, a => f n (upTo n f a)

end Sys2Proof.Machine
end

