-- ==== Sys2Proof/Machine/Flags.lean ====
section
/-! DEFINITION. The words the host reads for the fields the state holds: STATE, STATUS, ID, FB_CFG,
PINS and LUT_CUR (10_state.md R34 to R36, R42, R44, R46), and the polarity rule
(40_framebuffer.md R146). -/

namespace Sys2Proof.Machine

/-- The code of an FSM state (R34). -/
def Fsm.bits : Fsm → BitVec 3
  | .uninitialized => 0
  | .idle => 1
  | .writing => 2
  | .partialMode => 3
  | .refreshing => 4
  | .sleeping => 5

/-- The number of a status code (R341). -/
def Code.bits : Code → BitVec 4
  | .ok => 0
  | .invalidGeometry => 1
  | .invalidState => 2
  | .hardwareFault => 3
  | .hardwareInitFailure => 4
  | .illegalOp => 5

/-- The code of a rotation in FB_CFG.ROT (R42). -/
def rotBits : Rotation → BitVec 2
  | .r0 => 0
  | .r90 => 1
  | .r180 => 2
  | .r270 => 3

/-- STATE: the FSM code in bits [2:0], 0 above (R34). -/
def stateWord (f : Fsm) : Word := 0#13 ++ f.bits

/-- STATUS: OPBUSY in bit 15, CODE in bits [3:0], 0 between (R35). -/
def statusWord (c : Code) (opbusy : Bool) : Word := BitVec.ofBool opbusy ++ (0#11 ++ c.bits)

/-- ID: bit 0 is 0 for variant A and 1 for variant B, 0 above (R36). -/
def idWord : Variant → Word
  | .a => 0
  | .b => 1

/-- FB_CFG: ROT in bits [1:0], INV in bit 2, 0 above (R42). -/
def fbCfgWord (fb : FbRegs) : Word := 0#13 ++ (BitVec.ofBool fb.inv ++ rotBits fb.rot)

/-- PINS: RST, DC, CS and BUSY in bits 0 to 3, 0 above (R44). -/
def pinsWord (p : Pins) : Word :=
  0#12 ++ (BitVec.ofBool p.busy ++ (BitVec.ofBool p.cs ++ (BitVec.ofBool p.dc ++ BitVec.ofBool p.rst)))

/-- Word `k` of LUT_CUR: byte `2k` in bits [7:0], byte `2k + 1` in bits [15:8] (R46). -/
def lutWord (l : Lut) (k : Nat) : Word := l.toList.getD (2 * k + 1) 0 ++ l.toList.getD (2 * k) 0

/-- `SetBitFor(c)`: whether a pixel of colour `c` is a set bit under polarity `inv` (R146). -/
def setBitFor (inv : Bool) (c : Colour) : Bool :=
  (match c with
    | .colored => true
    | .uncolored => false) == inv

end Sys2Proof.Machine
end

