-- ==== Sys2Proof/Machine/Ops.lean ====
section
/-! DEFINITION. The named operations every meaning is built from: DMEM reads and writes
(20_memory.md R70, R71), ending an operation (`finish` and `raise`, 00_scope.md R10,
60_exceptions.md R340), the state guard (42_controller_core.md R228), and block reset
(70_reset_and_hazards.md R380). -/

namespace Sys2Proof.Machine

/-- What an address that memory does not list reads as (log entry 3). -/
def Memory.unlisted : Byte := 0x00

/-- The byte at address `a`. -/
def Memory.read : Memory → Nat → Byte
  | [], _ => Memory.unlisted
  | (k, v) :: r, a => if k = a then v else Memory.read r a

/-- `m` with byte `v` at address `a`, in canonical form. -/
def Memory.write : Memory → Nat → Byte → Memory
  | [], a, v => if v = Memory.unlisted then [] else [(a, v)]
  | (k, w) :: r, a, v =>
    if k < a then (k, w) :: Memory.write r a v
    else if k = a then (if v = Memory.unlisted then r else (a, v) :: r)
    else (if v = Memory.unlisted then (k, w) :: r else (a, v) :: (k, w) :: r)

/-- The canonical form above address `lo`: addresses strictly rising, each at least `lo` and below
2^16, and no listed byte equal to `Memory.unlisted`. -/
def Memory.wfFrom (lo : Nat) : Memory → Bool
  | [] => true
  | (k, v) :: r =>
    decide (lo ≤ k) && decide (k < 65536) && decide (v ≠ Memory.unlisted) && Memory.wfFrom (k + 1) r

/-- The canonical form of DMEM. -/
def Memory.wf (m : Memory) : Bool := Memory.wfFrom 0 m

/-- An integer reduced to a DMEM address, modulo 2^ADDR_W (R70). -/
def wrapAddr (a : Int) : Nat := (a % 65536).toNat

/-- `MemRead(a, 1)` (R71). -/
def memRead (m : Memory) (a : Int) : Byte := Memory.read m (wrapAddr a)

/-- `MemWrite(a, 1, v)` (R71). -/
def memWrite (m : Memory) (a : Int) (v : Byte) : Memory := Memory.write m (wrapAddr a) v

/-- `finish S`: write STATUS.CODE, clear OPBUSY (R10, R231). -/
def finish (c : Code) (s : State) : State := { s with code := c, opbusy := false }

/-- `raise S`: how every failure is taken. Nothing is saved and no vector is taken: a failure is a
status code (R10, R340, R341). -/
def raise (c : Code) (s : State) : State := finish c s

/-- `REG.STATE <- f`. -/
def setFsm (f : Fsm) (s : State) : State := { s with fsm := f }

/-- `REG.LUT_CUR <- l`. -/
def setLut (l : Lut) (s : State) : State := { s with lut := l }

/-- `Guard(allowed)`, then `body` (R228): a failed guard is checked before any argument and any
event. -/
def guarded (allowed : List Fsm) (body : State → State) (s : State) : State :=
  if allowed.contains s.fsm then body s else raise .invalidState s

/-- `body` on a block of variant `v`; the operation is illegal on the other variant (R105, R342). -/
def onVariant (v : Variant) (body : State → State) (s : State) : State :=
  if s.cfg.variant = v then body s else raise .illegalOp s

/-- Block reset (R69, R380): every register takes its reset value; DMEM and the parameters are kept;
no event is emitted. The host's pending accesses, the environment's answers and the record of what
was observed are outside the block and stay (log entry 10). What the operation it abandons has already
done to DMEM and the trace is in `s` (`abandoned`, Machine/Abandon.lean). -/
def blockReset (s : State) : State :=
  { s with
    cmd := 0, arg0 := 0, arg1 := 0, arg2 := 0, arg3 := 0, arg4 := 0, arg5 := 0,
    fsm := .uninitialized, code := .ok, opbusy := false, fb := FbRegs.reset, pins := Pins.reset,
    lut := Lut.reset }

end Sys2Proof.Machine
end

