-- ==== Sys2Proof/Machine/Port.lean ====
section
/-! DEFINITION. The panel port (42_controller_core.md R220 to R227, R232): its events, the transport
primitives, the draws of the environment, byte sequences as data and the run of one, and the
window clip (R233). -/

namespace Sys2Proof.Machine

/-- `emit E`: append an event to the trace (R10, R221), with the STATE it is emitted in. -/
def emit (e : Event) (s : State) : State := { s with trace := ⟨s.fsm, e⟩ :: s.trace }

/-- A `Busy` event: it takes one BUSY answer of the panel (R225). -/
def Event.isBusy : Event → Bool
  | .busy _ => true
  | .pin _ _ | .xfer _ | .delay _ | .hwInit _ => false

/-- An `HwInit` event: it takes one result of the hardware interface (R227). -/
def Event.isHwInit : Event → Bool
  | .hwInit _ => true
  | .pin _ _ | .xfer _ | .delay _ | .busy _ => false

/-- PINS with output `p` at `level` (R44, R222). -/
def setPinLevel (p : Pin) (level : Bool) (pins : Pins) : Pins :=
  match p with
  | .rst => { pins with rst := level }
  | .dc => { pins with dc := level }
  | .cs => { pins with cs := level }

/-- `SetPin(p, level)` (R222). -/
def setPin (p : Pin) (level : Bool) (s : State) : State :=
  { emit (.pin p level) s with pins := setPinLevel p level s.pins }

/-- `Wait(ms)` (R222). -/
def delay (ms : Nat) (s : State) : State := emit (.delay ms) s

/-- One byte with DC at `dc`, CS low around the transfer alone (R223, R224). -/
def sendByte (dc : Bool) (b : Byte) (s : State) : State :=
  setPin .cs true (emit (.xfer b) (setPin .cs false (setPin .dc dc s)))

/-- `SendCommand(b)`: DC = 0 (R223). -/
def sendCommand (b : Byte) (s : State) : State := sendByte false b s

/-- `SendData(b)`: DC = 1 (R224). -/
def sendData (b : Byte) (s : State) : State := sendByte true b s

/-- `ResetPulse()` (R226). -/
def resetPulse (s : State) : State :=
  delay s.cfg.resetMs (setPin .rst true (delay s.cfg.resetMs (setPin .rst false s)))

/-- `draw BUSY level`: the next listed answer of the panel, or a free value (R225; log entry 6). -/
def drawBusy (s : State) : Bool × State :=
  match s.busyIn with
  | l :: rest => (l, { s with busyIn := rest })
  | [] => (Config.freeBusyLevel s.draws, { s with draws := s.draws + 1 })

/-- `emit Busy(level); REG.PINS.BUSY <- level` (R225). -/
def sampleBusy (level : Bool) (s : State) : State :=
  { emit (.busy level) s with pins := { s.pins with busy := level } }

/-- The loop of `WaitIdle()` with `k` delays left: true is ready, false is timeout (R225). -/
def pollLoop : Nat → State → Bool × State
  | 0, s =>
    let d := drawBusy s
    (d.1 == s.cfg.readyLevel, sampleBusy d.1 d.2)
  | k + 1, s =>
    let d := drawBusy s
    let t := sampleBusy d.1 d.2
    if d.1 = s.cfg.readyLevel then (true, t) else pollLoop k (delay s.cfg.pollMs t)

/-- `WaitIdle()`: at most `WAIT_MAX_POLLS + 1` samples (R225). -/
def waitIdle (s : State) : Bool × State := pollLoop s.cfg.waitMaxPolls s

/-- `draw init result`: the next listed answer of the hardware interface, or a free value (R227;
log entry 6). -/
def drawInit (s : State) : Bool × State :=
  match s.initIn with
  | r :: rest => (r, { s with initIn := rest })
  | [] => (Config.freeInitResult s.draws, { s with draws := s.draws + 1 })

/-- `HwInit()` (R227): true is ok. -/
def hwInit (s : State) : Bool × State :=
  let d := drawInit s
  (d.1, emit (.hwInit d.1) d.2)

/-- One element of a byte sequence (R221's abbreviations): `Cmd(b)`, `Dat(b)`, `Delay(ms)` and
`WaitOrFault()`. -/
inductive PortOp where
  | cmd (b : Byte)
  | dat (b : Byte)
  | delay (ms : Nat)
  | wait
  deriving DecidableEq, Repr

/-- Run a byte sequence. It ends with true, or with false at the first wait that times out, with no
further event (R232). -/
def runPort : List PortOp → State → Bool × State
  | [], s => (true, s)
  | .cmd b :: r, s => runPort r (sendCommand b s)
  | .dat b :: r, s => runPort r (sendData b s)
  | .delay ms :: r, s => runPort r (delay ms s)
  | .wait :: r, s =>
    let w := waitIdle s
    if w.1 then runPort r w.2 else (false, w.2)

/-- The end of a controller operation whose sequence has run: `after` and `OK`, or, after a timeout,
`Uninitialized` and `HardwareFault` (R229, R232). -/
def endRun (after : Fsm) (r : Bool × State) : State :=
  if r.1 then finish .ok (setFsm after r.2) else raise .hardwareFault (setFsm .uninitialized r.2)

/-- Run a byte sequence holding FSM state `during`, and leave `after` (R229). -/
def runAs (during after : Fsm) (ops : List PortOp) (s : State) : State :=
  endRun after (runPort ops (setFsm during s))

/-- A clipped window (R233): first byte column of the request, the clipped byte columns and rows, the
stride of the source buffer and the first row of the request. -/
structure Window where
  bx0 : Int
  cb0 : Int
  cb1 : Int
  cy0 : Int
  cy1 : Int
  stride : Int
  y : Int
  deriving DecidableEq, Repr

/-- `Clip(x, y, w, h)` (R233). -/
def clip (cfg : Config) (x y w h : Int) : Option Window :=
  if w < 0 ∨ h ≤ 0 then none
  else if floor8 w = 0 then none
  else
    let bx0 := floor8 x / 8
    let bx1 := (floor8 x + floor8 w) / 8 - 1
    let cb0 := max bx0 0
    let cb1 := min bx1 (cfg.rb - 1)
    let cy0 := max y 0
    let cy1 := min (y + h - 1) (u16 cfg.panelH - 1)
    if cb0 > cb1 ∨ cy0 > cy1 then none
    else some { bx0 := bx0, cb0 := cb0, cb1 := cb1, cy0 := cy0, cy1 := cy1,
                stride := floor8 w / 8, y := y }

/-- `Src(buf, win, c, j)` (R233). -/
def Window.src (win : Window) (buf c j : Int) : Int :=
  buf + (c - win.bx0) + (j - win.y) * win.stride

end Sys2Proof.Machine
end

