-- ==== Sys2Proof/Machine/VariantA.lean ====
section
/-! DEFINITION. Variant A (43_variant_a.md): its byte sequences and its two partial-window
operations. The bytes of a window are read from DMEM as the sequence is formed; no controller
operation writes DMEM, so each is the byte DMEM holds when it is sent (log entry 15). -/

namespace Sys2Proof.Machine

/-- `Settle()` (R270). -/
def settle (cfg : Config) : List PortOp := if cfg.settleMs > 0 then [.delay cfg.settleMs] else []

/-- `InitA()` (R271). -/
def initA (cfg : Config) : List PortOp :=
  [.cmd cfg.cmdA.boosterSoftStart] ++ cfg.dataA.booster.map .dat
    ++ [.cmd cfg.cmdA.powerOn, .wait,
        .cmd cfg.cmdA.panelSetting, .dat cfg.dataA.panel,
        .cmd cfg.cmdA.vcomAndDataInterval, .dat cfg.dataA.vcom,
        .cmd cfg.cmdA.resolutionSetting,
        .dat (lo8 (u16 cfg.panelW)), .dat (hi8 (u16 cfg.panelH)), .dat (lo8 (u16 cfg.panelH))]

/-- `DisplayA()` (R275). -/
def displayA (cfg : Config) : List PortOp := [.cmd cfg.cmdA.displayRefresh, .wait]

/-- `SleepA()` (R276). -/
def sleepA (cfg : Config) : List PortOp :=
  [.cmd cfg.cmdA.powerOff, .wait, .cmd cfg.cmdA.deepSleep, .dat cfg.dataA.deepSleepKey]

/-- One plane of `ClearA`: its command and `RB * PANEL_H` bytes (R277). -/
def clearPlaneA (cfg : Config) (cmd fill : Byte) : List PortOp :=
  [.cmd cmd] ++ settle cfg ++ List.replicate (cfg.rb * cfg.panelH.toNat) (.dat fill) ++ settle cfg

/-- `ClearA(fill)` (R277). -/
def clearA (cfg : Config) (fill : Byte) : List PortOp :=
  clearPlaneA cfg cfg.cmdA.dataStartTransmission1 fill
    ++ clearPlaneA cfg cfg.cmdA.dataStartTransmission2 fill

/-- `Plane(buf, has)` of a window (R274): the window's bytes row by row, zeros without a buffer. -/
def planeA (m : Memory) (win : Window) (buf : Int) (has : Bool) : List PortOp :=
  (intRange win.cy0 win.cy1).flatMap fun j =>
    (intRange win.cb0 win.cb1).map fun c =>
      .dat (if has then memRead m (win.src buf c j) else 0x00)

/-- The events of `PartialA` for a window; `red` is the second plane's buffer and presence, where the
operation sends two planes (R274). -/
def partialA (cfg : Config) (m : Memory) (win : Window) (bufB : Int) (hasB : Bool)
    (red : Option (Int × Bool)) : List PortOp :=
  [.cmd cfg.cmdA.partialIn, .cmd cfg.cmdA.partialWindow,
   .dat (lo8 (win.cb0 * 8)), .dat (lo8 (win.cb1 * 8 + 7)),
   .dat (hi8 win.cy0), .dat (lo8 win.cy0), .dat (hi8 win.cy1), .dat (lo8 win.cy1),
   .dat cfg.dataA.ptScan]
    ++ settle cfg
    ++ [.cmd cfg.cmdA.dataStartTransmission1] ++ planeA m win bufB hasB ++ settle cfg
    ++ (match red with
        | none => []
        | some (bufR, hasR) =>
          [.cmd cfg.cmdA.dataStartTransmission2] ++ planeA m win bufR hasR ++ settle cfg)
    ++ [.cmd cfg.cmdA.partialOut]

/-- `PartialA` on the window of ARG2 to ARG5: nothing and `OK` where it clips to nothing (R274). -/
def runPartialA (bufB : Int) (hasB : Bool) (red : Option (Int × Bool)) (s : State) : State :=
  match clip s.cfg (s16 s.arg2) (s16 s.arg3) (s16 s.arg4) (s16 s.arg5) with
  | none => finish .ok s
  | some win => runAs .partialMode .idle (partialA s.cfg s.mem win bufB hasB red) s

/-- A_SET_PARTIAL_WINDOW (R272). -/
def execASetPartialWindow (black red : Bool) (s : State) : Result :=
  .next (onVariant .a (guarded [.idle]
    (fun s => runPartialA (u16 s.arg0) black (some (u16 s.arg1, red)) s)) s)

/-- A_SET_PARTIAL_WINDOW_BLACK (R273). -/
def execASetPartialWindowBlack (black : Bool) (s : State) : Result :=
  .next (onVariant .a (guarded [.idle] (fun s => runPartialA (u16 s.arg0) black none s)) s)

end Sys2Proof.Machine
end

