-- ==== Sys2Proof/Machine/VariantB.lean ====
section
/-! DEFINITION. Variant B (44_variant_b.md): its byte sequences, the LUT, area, pointer and
frame-memory operations. As on variant A, image bytes are read as the sequence is formed (log
entry 15). -/

namespace Sys2Proof.Machine

/-- The bytes of `InitB` before the LUT upload (R301). -/
def initB (cfg : Config) : List PortOp :=
  [.cmd cfg.cmdB.driverOutputControl,
   .dat (lo8 (u16 cfg.panelH - 1)), .dat (hi8 (u16 cfg.panelH - 1)), .dat cfg.dataB.scanFlags,
   .cmd cfg.cmdB.boosterSoftStartControl] ++ cfg.dataB.booster.map .dat
    ++ [.cmd cfg.cmdB.writeVcomRegister, .dat cfg.dataB.vcom,
        .cmd cfg.cmdB.dummyLinePeriod, .dat cfg.dataB.dummy,
        .cmd cfg.cmdB.gateTime, .dat cfg.dataB.gate,
        .cmd cfg.cmdB.dataEntryMode, .dat cfg.dataB.entry]

/-- The 30 bytes of DMEM from `a` (R302). -/
def customLut (m : Memory) (a : Int) : Lut := Vector.ofFn fun i => memRead m (a + (i.val : Int))

/-- The table a LUT select stands for (R302): a preset, or the 30 bytes at `ARG0`. -/
def lutFor (sel : LutSel) (s : State) : Lut :=
  match sel with
  | .presetFull => s.cfg.lutFull
  | .presetPartial => s.cfg.lutPartial
  | .custom => customLut s.mem (u16 s.arg0)

/-- The upload of a table (R302). -/
def uploadLut (cfg : Config) (l : Lut) : List PortOp :=
  .cmd cfg.cmdB.writeLutRegister :: l.toList.map .dat

/-- `SetLutB(s, a)`: LUT_CUR is written, then the table is sent (R302). -/
def setLutB (sel : LutSel) (s : State) : Bool × State :=
  runPort (uploadLut s.cfg (lutFor sel s)) (setLut (lutFor sel s) s)

/-- `InitB(s, a)` (R301). -/
def runInitB (sel : LutSel) (s : State) : Bool × State :=
  let r := runPort (initB s.cfg) s
  if r.1 then setLutB sel r.2 else r

/-- `AreaB(bx0, bx1, y0, y1)` (R304). -/
def areaB (cfg : Config) (bx0 bx1 y0 y1 : Int) : List PortOp :=
  [.cmd cfg.cmdB.ramXStartEnd, .dat (lo8 bx0), .dat (lo8 bx1),
   .cmd cfg.cmdB.ramYStartEnd, .dat (lo8 y0), .dat (hi8 y0), .dat (lo8 y1), .dat (hi8 y1)]

/-- `PointerB(bx, y)`, with the wait that follows every pointer set (R306, R385). -/
def pointerB (cfg : Config) (bx y : Int) : List PortOp :=
  [.cmd cfg.cmdB.ramXCounter, .dat (lo8 bx), .cmd cfg.cmdB.ramYCounter,
   .dat (lo8 y), .dat (hi8 y), .wait]

/-- One row of a frame write: the pointer, the RAM-write command and the row's bytes (R308). -/
def rowB (cfg : Config) (bx y : Int) (bytes : List Byte) : List PortOp :=
  pointerB cfg bx y ++ [.cmd cfg.cmdB.writeRam] ++ bytes.map .dat

/-- The sequence of B_SET_FRAME_MEMORY_AT for a window (R308). -/
def frameAtB (cfg : Config) (m : Memory) (win : Window) (buf : Int) : List PortOp :=
  areaB cfg win.cb0 win.cb1 win.cy0 win.cy1
    ++ (intRange win.cy0 win.cy1).flatMap fun j =>
        rowB cfg win.cb0 j
          ((intRange win.cb0 win.cb1).map fun c => memRead m (win.src buf c j))

/-- The sequence of a full-panel write whose byte at column `c` of row `j` is `byteAt c j` (R309,
R310). -/
def fullFrameB (cfg : Config) (byteAt : Int → Int → Byte) : List PortOp :=
  areaB cfg 0 (cfg.rb - 1) 0 (u16 cfg.panelH - 1)
    ++ (intRange 0 (u16 cfg.panelH - 1)).flatMap fun j =>
        rowB cfg 0 j ((intRange 0 (cfg.rb - 1)).map fun c => byteAt c j)

/-- The sequence of B_SET_FRAME_MEMORY (R309). -/
def frameB (cfg : Config) (m : Memory) (buf : Int) : List PortOp :=
  fullFrameB cfg fun c j => memRead m (buf + c + j * cfg.rb)

/-- `ClearB(fill)` (R310). -/
def clearB (cfg : Config) (fill : Byte) : List PortOp := fullFrameB cfg fun _ _ => fill

/-- `DisplayB()` (R311). -/
def displayB (cfg : Config) : List PortOp :=
  [.cmd cfg.cmdB.displayUpdateControl2, .dat cfg.dataB.update, .cmd cfg.cmdB.masterActivation,
   .cmd cfg.cmdB.terminateFrameReadWrite, .wait]

/-- `SleepB()` (R312). -/
def sleepB (cfg : Config) : List PortOp := [.cmd cfg.cmdB.deepSleepMode, .wait]

/-- Whether a pixel is inside the panel (R305, R307). -/
def onPanel (cfg : Config) (x y : Int) : Bool :=
  decide (0 ≤ x ∧ x < u16 cfg.panelW ∧ 0 ≤ y ∧ y < u16 cfg.panelH)

/-- B_SET_LUT after its guard (R303): STATE stays Idle. -/
def runSetLut (sel : LutSel) (s : State) : State := endRun .idle (setLutB sel s)

/-- B_SET_MEMORY_AREA after its guard (R305): STATE stays Idle. -/
def runSetMemoryArea (s : State) : State :=
  let x0 := s16 s.arg0
  let y0 := s16 s.arg1
  let x1 := s16 s.arg2
  let y1 := s16 s.arg3
  if onPanel s.cfg x0 y0 && onPanel s.cfg x1 y1 then
    endRun .idle (runPort (areaB s.cfg (x0 / 8) (x1 / 8) y0 y1) s)
  else raise .invalidGeometry s

/-- B_SET_MEMORY_POINTER after its guard (R307): STATE stays Idle, also during the wait. -/
def runSetMemoryPointer (s : State) : State :=
  let x := s16 s.arg0
  let y := s16 s.arg1
  if onPanel s.cfg x y then endRun .idle (runPort (pointerB s.cfg (x / 8) y) s)
  else raise .invalidGeometry s

/-- B_SET_FRAME_MEMORY_AT after its guard (R308). -/
def runSetFrameMemoryAt (s : State) : State :=
  match clip s.cfg (s16 s.arg1) (s16 s.arg2) (s16 s.arg3) (s16 s.arg4) with
  | none => finish .ok s
  | some win => runAs .writing .idle (frameAtB s.cfg s.mem win (u16 s.arg0)) s

/-- B_SET_LUT (R303). -/
def execBSetLut (sel : LutSel) (s : State) : Result :=
  .next (onVariant .b (guarded [.idle] (runSetLut sel)) s)

/-- B_SET_MEMORY_AREA (R305). -/
def execBSetMemoryArea (s : State) : Result :=
  .next (onVariant .b (guarded [.idle] runSetMemoryArea) s)

/-- B_SET_MEMORY_POINTER (R307). -/
def execBSetMemoryPointer (s : State) : Result :=
  .next (onVariant .b (guarded [.idle] runSetMemoryPointer) s)

/-- B_SET_FRAME_MEMORY_AT (R308). -/
def execBSetFrameMemoryAt (s : State) : Result :=
  .next (onVariant .b (guarded [.idle] runSetFrameMemoryAt) s)

/-- B_SET_FRAME_MEMORY (R309). -/
def execBSetFrameMemory (s : State) : Result :=
  .next (onVariant .b (guarded [.idle]
    (fun s => runAs .writing .idle (frameB s.cfg s.mem (u16 s.arg0)) s)) s)

end Sys2Proof.Machine
end

