-- ==== Sys2Proof/Machine/Controller.lean ====
section
/-! DEFINITION. The controller operations both variants share (42_controller_core.md R235 to R240):
CTL_RESET, CTL_INIT, CTL_DISPLAY_FRAME, CTL_SLEEP and CTL_CLEAR_FRAME_MEMORY. -/

namespace Sys2Proof.Machine

/-- The start of CTL_INIT after its guard, `body` being the variant's own init: STATE becomes
Uninitialized, a failed handshake raises `HardwareInitFailure` before the reset pulse, and success
leaves Idle (R236). -/
def runInit (body : State → Bool × State) (s : State) : State :=
  let h := hwInit (setFsm .uninitialized s)
  if h.1 then endRun .idle (body (resetPulse h.2)) else raise .hardwareInitFailure h.2

/-- The refresh sequence of the block's variant (R237). -/
def displayOps (cfg : Config) : List PortOp :=
  match cfg.variant with
  | .a => displayA cfg
  | .b => displayB cfg

/-- The sleep sequence of the block's variant (R238). -/
def sleepOps (cfg : Config) : List PortOp :=
  match cfg.variant with
  | .a => sleepA cfg
  | .b => sleepB cfg

/-- The clear sequence of the block's variant (R239). -/
def clearOps (cfg : Config) (fill : Byte) : List PortOp :=
  match cfg.variant with
  | .a => clearA cfg fill
  | .b => clearB cfg fill

/-- CTL_RESET (R235). -/
def execCtlReset (s : State) : Result :=
  .next (guarded [.uninitialized, .idle, .sleeping]
    (fun s => finish .ok (resetPulse (setFsm .uninitialized s))) s)

/-- CTL_INIT on variant A (R236, R271). -/
def execCtlInitA (s : State) : Result :=
  .next (onVariant .a (guarded [.uninitialized, .idle] (runInit fun s => runPort (initA s.cfg) s)) s)

/-- CTL_INIT on variant B (R236, R301). -/
def execCtlInitB (sel : LutSel) (s : State) : Result :=
  .next (onVariant .b (guarded [.uninitialized, .idle] (runInit (runInitB sel))) s)

/-- CTL_DISPLAY_FRAME (R237). -/
def execCtlDisplayFrame (s : State) : Result :=
  .next (guarded [.idle] (fun s => runAs .refreshing .idle (displayOps s.cfg) s) s)

/-- CTL_SLEEP: Idle while it runs, Sleeping after (R238). -/
def execCtlSleep (s : State) : Result :=
  .next (guarded [.idle] (fun s => runAs .idle .sleeping (sleepOps s.cfg) s) s)

/-- CTL_CLEAR_FRAME_MEMORY (R239). -/
def execCtlClearFrameMemory (s : State) : Result :=
  .next (guarded [.idle] (fun s => runAs .writing .idle (clearOps s.cfg (u8 s.arg0)) s) s)

end Sys2Proof.Machine
end

