-- ==== Sys2Proof/Machine/Framebuffer.lean ====
section
/-! DEFINITION. The framebuffer unit (40_framebuffer.md): the pixel primitives `PutAbs` and `Put`, the
configuration operations, FB_CLEAR, FB_DRAW_ABS_PIXEL and FB_DRAW_PIXEL. The drawing primitives
read the geometry registers and change memory alone (R140, R195). -/

namespace Sys2Proof.Machine

/-- `PutAbs(x, y, c)`: the only path by which an operation writes DMEM (R147). -/
def putAbs (fb : FbRegs) (x y : Int) (c : Colour) (m : Memory) : Memory :=
  if x < 0 ∨ x ≥ u16 fb.width ∨ y < 0 ∨ y ≥ u16 fb.height then m
  else
    let a := u16 fb.base + (x + y * u16 fb.width) / 8
    let mask : Byte := 0x80#8 >>> (x % 8).toNat
    let b := memRead m a
    memWrite m a (if setBitFor fb.inv c then b ||| mask else b &&& ~~~mask)

/-- Whether `(x, y)` is inside the rotated bounds (R149). -/
def rotatedInBounds (fb : FbRegs) (x y : Int) : Bool :=
  match fb.rot with
  | .r0 | .r180 => decide (0 ≤ x ∧ x < u16 fb.width ∧ 0 ≤ y ∧ y < u16 fb.height)
  | .r90 | .r270 => decide (0 ≤ x ∧ x < u16 fb.height ∧ 0 ≤ y ∧ y < u16 fb.width)

/-- The absolute point the rotated point `(x, y)` maps to (R149). -/
def rotate (fb : FbRegs) (x y : Int) : Int × Int :=
  match fb.rot with
  | .r0 => (x, y)
  | .r90 => (u16 fb.width - y, x)
  | .r180 => (u16 fb.width - x, u16 fb.height - y)
  | .r270 => (y, u16 fb.height - x)

/-- What a drawing operation draws on, in one colour: the geometry, how a byte is read, and what one
call of `PutAbs` does. A drawing operation is said once, for every surface: on DMEM it is the
operation, on DMEM with a count of the calls left it is what a block reset cuts short (R380). -/
structure Surface (σ : Type) where
  fb : FbRegs
  read : σ → Int → Byte
  plot : Int → Int → σ → σ

/-- DMEM itself (R147). -/
def Surface.dmem (fb : FbRegs) (c : Colour) : Surface Memory :=
  { fb := fb, read := memRead, plot := fun x y m => putAbs fb x y c m }

/-- DMEM with the number of calls of `PutAbs` still made; once it is 0 nothing is written (R380). -/
def Surface.counted (fb : FbRegs) (c : Colour) : Surface (Nat × Memory) :=
  { fb := fb
    read := fun q a => memRead q.2 a
    plot := fun x y q =>
      match q with
      | (0, m) => (0, m)
      | (n + 1, m) => (n, putAbs fb x y c m) }

/-- `Put(x, y, c)`: the rotation primitive (R149). -/
def Surface.put {σ : Type} (sf : Surface σ) (x y : Int) (a : σ) : σ :=
  if rotatedInBounds sf.fb x y then sf.plot (rotate sf.fb x y).1 (rotate sf.fb x y).2 a else a

/-- `Put` on each point of a list, in order. -/
def drawPoints {σ : Type} (sf : Surface σ) (pts : List (Int × Int)) (a : σ) : σ :=
  pts.foldl (fun a p => sf.put p.1 p.2 a) a

/-- A drawing operation: it changes DMEM and finishes `OK` (R140). -/
def draw (c : Colour) (paint : Surface Memory → Memory → Memory) (s : State) : State :=
  finish .ok { s with mem := paint (Surface.dmem s.fb c) s.mem }

/-- DMEM after the first `k` calls of `PutAbs` of a drawing operation (R147, R380). -/
def cutDrawing (c : Colour) (k : Nat) (paint : Surface (Nat × Memory) → Nat × Memory → Nat × Memory)
    (s : State) : Memory :=
  (paint (Surface.counted s.fb c) (k, s.mem)).2

/-- The size in bytes of a `w` by `h` framebuffer, `w` rounded up to a multiple of 8 (R141). -/
def fbBytes (w h : Int) : Int := ceil8 w * h / 8

/-- FB_INIT (R141). -/
def fbInit (s : State) : State :=
  let base := u16 s.arg0
  let cap := u16 s.arg1
  let w := s16 s.arg2
  let h := s16 s.arg3
  if cap = 0 ∨ w ≤ 0 ∨ h ≤ 0 then raise .invalidGeometry s
  else if base + cap > 65536 then raise .invalidGeometry s
  else if fbBytes w h > cap then raise .invalidGeometry s
  else finish .ok { s with fb := { s.fb with
    base := toWord base, cap := toWord cap, width := toWord (ceil8 w), height := toWord h,
    rot := .r0 } }

/-- FB_SET_WIDTH (R143). -/
def fbSetWidth (s : State) : State :=
  let w := s16 s.arg0
  if u16 s.fb.cap = 0 ∨ w ≤ 0 then raise .invalidGeometry s
  else if fbBytes w (u16 s.fb.height) > u16 s.fb.cap then raise .invalidGeometry s
  else finish .ok { s with fb := { s.fb with width := toWord (ceil8 w) } }

/-- FB_SET_HEIGHT (R144). -/
def fbSetHeight (s : State) : State :=
  let h := s16 s.arg0
  if u16 s.fb.cap = 0 ∨ h ≤ 0 then raise .invalidGeometry s
  else if u16 s.fb.width * h / 8 > u16 s.fb.cap then raise .invalidGeometry s
  else finish .ok { s with fb := { s.fb with height := toWord h } }

/-- The points FB_CLEAR passes to `PutAbs`, row by row (R151). -/
def clearPoints (fb : FbRegs) : List (Int × Int) :=
  (intRange 0 (u16 fb.height - 1)).flatMap fun y =>
    (intRange 0 (u16 fb.width - 1)).map fun x => (x, y)

/-- What FB_CLEAR draws (R151). -/
def paintClear {σ : Type} (sf : Surface σ) (a : σ) : σ :=
  (clearPoints sf.fb).foldl (fun a p => sf.plot p.1 p.2 a) a

/-- What FB_DRAW_ABS_PIXEL draws (R148). -/
def paintAbsPixel {σ : Type} (s : State) (sf : Surface σ) (a : σ) : σ :=
  sf.plot (s16 s.arg0) (s16 s.arg1) a

/-- What FB_DRAW_PIXEL draws (R150). -/
def paintPixel {σ : Type} (s : State) (sf : Surface σ) (a : σ) : σ :=
  sf.put (s16 s.arg0) (s16 s.arg1) a

/-- NOP (42_controller_core.md R234). -/
def execNop (s : State) : Result := .next (finish .ok s)

/-- FB_INIT (R141). -/
def execFbInit (s : State) : Result := .next (fbInit s)

/-- FB_SET_ROTATION (R142). -/
def execFbSetRotation (r : Rotation) (s : State) : Result :=
  .next (finish .ok { s with fb := { s.fb with rot := r } })

/-- FB_SET_WIDTH (R143). -/
def execFbSetWidth (s : State) : Result := .next (fbSetWidth s)

/-- FB_SET_HEIGHT (R144). -/
def execFbSetHeight (s : State) : Result := .next (fbSetHeight s)

/-- FB_SET_INVERT (R145). -/
def execFbSetInvert (v : Bool) (s : State) : Result :=
  .next (finish .ok { s with fb := { s.fb with inv := v } })

/-- FB_CLEAR (R151). -/
def execFbClear (c : Colour) (s : State) : Result := .next (draw c paintClear s)

/-- FB_DRAW_ABS_PIXEL (R148). -/
def execFbDrawAbsPixel (c : Colour) (s : State) : Result :=
  .next (draw c (paintAbsPixel s) s)

/-- FB_DRAW_PIXEL (R150). -/
def execFbDrawPixel (c : Colour) (s : State) : Result :=
  .next (draw c (paintPixel s) s)

end Sys2Proof.Machine
end

