-- ==== Sys2Proof/Machine/Rasterizer.lean ====
section
/-! DEFINITION. The rasterizer (41_rasterizer.md): glyphs and strings, lines, spans, rectangles and
circles. Every pixel goes through `Put`. The shapes but text read no memory, so each is the list of
the points it passes to `Put`, in the order of its pseudocode. `paintX` is what an operation draws on
a surface, `execX` the operation on DMEM. -/

namespace Sys2Proof.Machine

/-- A font: glyph height in rows, glyph width in pixels, address of the bitmap (20_memory.md R87,
R180). -/
structure Font where
  fh : Int
  fw : Int
  fbm : Int
  deriving DecidableEq, Repr

/-- `bpr`, the bytes of one glyph row (R180). -/
def Font.bpr (f : Font) : Int := (f.fw + 7) / 8

/-- The address of the first byte of glyph `ch` (R180); `ch - 32` may be negative. -/
def Font.glyphAddr (f : Font) (ch : Byte) : Int := f.fbm + ((ch.toNat : Int) - 32) * f.fh * f.bpr

/-- The font operands of FB_DRAW_CHAR and FB_DRAW_STRING: ARG3, ARG4 and ARG5 (R181, R182). -/
def fontOf (s : State) : Font := { fh := u16 s.arg3, fw := u16 s.arg4, fbm := u16 s.arg5 }

/-- The byte of a glyph row held for pixel `i`: it is read once, just before its first pixel (R180). -/
def glyphByte {σ : Type} (sf : Surface σ) (p : Int) (i : Nat) (ba : Byte × σ) : Byte :=
  if i % 8 = 0 then sf.read ba.2 (p + (i / 8 : Nat)) else ba.1

/-- One pixel of a glyph row whose first byte is at `p`: a clear bit draws nothing (R180). The carried
pair is the byte held and the surface. -/
def glyphPixel {σ : Type} (sf : Surface σ) (x y p : Int) (i : Nat) (ba : Byte × σ) : Byte × σ :=
  let b := glyphByte sf p i ba
  (b, if b &&& (0x80#8 >>> (i % 8)) ≠ 0 then sf.put (x + i) y ba.2 else ba.2)

/-- One row of a glyph (R180). -/
def glyphRow {σ : Type} (sf : Surface σ) (fw : Int) (x y p : Int) (a : σ) : σ :=
  (upTo fw.toNat (glyphPixel sf x y p) (0, a)).2

/-- `Glyph(x, y, ch, FH, FW, FBM, c)` (R180). -/
def glyph {σ : Type} (sf : Surface σ) (f : Font) (x y : Int) (ch : Byte) (a : σ) : σ :=
  upTo f.fh.toNat (fun j a => glyphRow sf f.fw x (y + j) (f.glyphAddr ch + j * f.bpr) a) a

/-- The loop of FB_DRAW_STRING with `n` characters left: it ends at a 0x00 byte, each string byte is
read just before its glyph is drawn, and the column advances by `FW` (R182). -/
def stringLoop {σ : Type} (sf : Surface σ) (f : Font) (y : Int) : Nat → Int → Int → σ → σ
  | 0, _, _, a => a
  | n + 1, t, col, a =>
    let ch := sf.read a t
    if ch = 0 then a
    else stringLoop sf f y n (t + 1) (col + f.fw) (glyph sf f col y ch a)

/-- The end points of a line. -/
structure Segment where
  x0 : Int
  y0 : Int
  x1 : Int
  y1 : Int
  deriving DecidableEq, Repr

/-- `dx` (R183). -/
def Segment.dx (l : Segment) : Int := ((l.x1 - l.x0).natAbs : Int)

/-- `dy`, which is at most 0 (R183). -/
def Segment.dy (l : Segment) : Int := -((l.y1 - l.y0).natAbs : Int)

/-- `sx` (R183). -/
def Segment.sx (l : Segment) : Int := if l.x0 < l.x1 then 1 else -1

/-- `sy` (R183). -/
def Segment.sy (l : Segment) : Int := if l.y0 < l.y1 then 1 else -1

/-- Where the line walk stands: the error term and the point. -/
structure LinePos where
  err : Int
  x : Int
  y : Int
  deriving DecidableEq, Repr

/-- The start of the walk (R183). -/
def Segment.start (l : Segment) : LinePos := { err := l.dx + l.dy, x := l.x0, y := l.y0 }

/-- One step of `Inclusive` and `Exclusive`: the two tests read one snapshot `e2` (R183). -/
def Segment.stepSnapshot (l : Segment) (p : LinePos) : LinePos :=
  let e2 := 2 * p.err
  let p := if e2 ≥ l.dy then { p with err := p.err + l.dy, x := p.x + l.sx } else p
  if e2 ≤ l.dx then { p with err := p.err + l.dx, y := p.y + l.sy } else p

/-- One step of `SourceQuirk`: the second test reads `err` after the first may have changed it
(R183). -/
def Segment.stepQuirk (l : Segment) (p : LinePos) : LinePos :=
  let p := if 2 * p.err ≥ l.dy then { p with err := p.err + l.dy, x := p.x + l.sx } else p
  if 2 * p.err ≤ l.dx then { p with err := p.err + l.dx, y := p.y + l.sy } else p

/-- The `Inclusive` loop with at most `n` passes: plot, stop at the end point, step (R183). -/
def Segment.walkInclusive (l : Segment) : Nat → LinePos → List (Int × Int)
  | 0, _ => []
  | n + 1, p =>
    (p.x, p.y) :: if p.x = l.x1 ∧ p.y = l.y1 then [] else l.walkInclusive n (l.stepSnapshot p)

/-- The `Exclusive` loop with at most `n` passes: stop at the end point, plot, step (R183). -/
def Segment.walkExclusive (l : Segment) : Nat → LinePos → List (Int × Int)
  | 0, _ => []
  | n + 1, p =>
    if p.x = l.x1 ∧ p.y = l.y1 then [] else (p.x, p.y) :: l.walkExclusive n (l.stepSnapshot p)

/-- The `SourceQuirk` loop with at most `n` passes: stop when either coordinate is at its target,
plot, step (R183). -/
def Segment.walkQuirk (l : Segment) : Nat → LinePos → List (Int × Int)
  | 0, _ => []
  | n + 1, p =>
    if p.x = l.x1 ∨ p.y = l.y1 then [] else (p.x, p.y) :: l.walkQuirk n (l.stepQuirk p)

/-- A bound on the passes of every line loop: each pass moves at least one coordinate by one towards
its target, so `|dx| + |dy|` moves reach it (R185; log entry 14). -/
def Segment.passes (l : Segment) : Nat := (l.x1 - l.x0).natAbs + (l.y1 - l.y0).natAbs + 1

/-- The points `Line(x0, y0, x1, y1, c)` passes to `Put`, in order (R183). -/
def linePoints (mode : LineMode) (l : Segment) : List (Int × Int) :=
  match mode with
  | .inclusive => l.walkInclusive l.passes l.start
  | .exclusive => l.walkExclusive l.passes l.start
  | .sourceQuirk => l.walkQuirk l.passes l.start

/-- The points of `HLine(x, y, len, c)` (R186). -/
def hlinePoints (x y len : Int) : List (Int × Int) :=
  (intRange x (x + len - 1)).map fun i => (i, y)

/-- The points of `VLine(x, y, len, c)` (R187). -/
def vlinePoints (x y len : Int) : List (Int × Int) :=
  (intRange y (y + len - 1)).map fun j => (x, j)

/-- The points of FB_DRAW_RECT, corners normalised first (R189). -/
def rectPoints (l : Segment) : List (Int × Int) :=
  let xa := min l.x0 l.x1
  let xb := max l.x0 l.x1
  let ya := min l.y0 l.y1
  let yb := max l.y0 l.y1
  hlinePoints xa ya (xb - xa + 1) ++ hlinePoints xa yb (xb - xa + 1)
    ++ vlinePoints xa ya (yb - ya + 1) ++ vlinePoints xb ya (yb - ya + 1)

/-- The points of FB_DRAW_FILLED_RECT (R190). -/
def filledRectPoints (l : Segment) : List (Int × Int) :=
  let xa := min l.x0 l.x1
  let xb := max l.x0 l.x1
  let ya := min l.y0 l.y1
  let yb := max l.y0 l.y1
  (intRange xa xb).flatMap fun i => vlinePoints i ya (yb - ya + 1)

/-- Where the circle walk stands: `xp`, `yp` and the error term (R191). -/
structure CirclePos where
  xp : Int
  yp : Int
  err : Int
  deriving DecidableEq, Repr

/-- The points one pass of the circle loop draws about `(x, y)` (R191). -/
def circleBody (x y : Int) (filled : Bool) (p : CirclePos) : List (Int × Int) :=
  [(x - p.xp, y + p.yp), (x + p.xp, y + p.yp), (x + p.xp, y - p.yp), (x - p.xp, y - p.yp)]
    ++ if filled then
        hlinePoints (x + p.xp) (y + p.yp) (2 * (-p.xp) + 1)
          ++ hlinePoints (x + p.xp) (y - p.yp) (2 * (-p.xp) + 1)
      else []

/-- The step at the end of one pass of the circle loop (R191). -/
def circleStep (p : CirclePos) : CirclePos :=
  let e2 := p.err
  let yp := if e2 ≤ p.yp then p.yp + 1 else p.yp
  let err := if e2 ≤ p.yp then p.err + 2 * yp + 1 else p.err
  let e2 := if e2 ≤ p.yp ∧ -p.xp = yp ∧ e2 ≤ p.xp then 0 else e2
  if e2 > p.xp then { xp := p.xp + 1, yp := yp, err := err + 2 * (p.xp + 1) + 1 }
  else { xp := p.xp, yp := yp, err := err }

/-- The circle loop with at most `n` passes: it repeats until `xp > 0` (R191). -/
def circleLoop (x y : Int) (filled : Bool) : Nat → CirclePos → List (Int × Int)
  | 0, _ => []
  | n + 1, p =>
    circleBody x y filled p
      ++ if (circleStep p).xp > 0 then [] else circleLoop x y filled n (circleStep p)

/-- The bound R194 gives on the passes of the circle loop: `2r + 1`, and one pass for a negative
radius (R192; log entry 14). -/
def circlePasses (r : Int) : Nat := (2 * r).toNat + 1

/-- The points `Circle(x, y, r, c, filled)` passes to `Put`, in order (R191). -/
def circlePoints (x y r : Int) (filled : Bool) : List (Int × Int) :=
  circleLoop x y filled (circlePasses r) { xp := -r, yp := 0, err := 2 - 2 * r }

/-- The four coordinates ARG0 to ARG3 of a line or rectangle (R184, R189). -/
def segmentOf (s : State) : Segment :=
  { x0 := s16 s.arg0, y0 := s16 s.arg1, x1 := s16 s.arg2, y1 := s16 s.arg3 }

/-- What FB_DRAW_CHAR draws (R181). -/
def paintChar {σ : Type} (s : State) (sf : Surface σ) : σ → σ :=
  glyph sf (fontOf s) (s16 s.arg0) (s16 s.arg1) (u8 s.arg2)

/-- What FB_DRAW_STRING draws, at most 65536 characters (R182). -/
def paintString {σ : Type} (s : State) (sf : Surface σ) : σ → σ :=
  stringLoop sf (fontOf s) (s16 s.arg1) 65536 (u16 s.arg2) (s16 s.arg0)

/-- What FB_DRAW_LINE draws (R184). -/
def paintLine {σ : Type} (s : State) (sf : Surface σ) : σ → σ :=
  drawPoints sf (linePoints s.cfg.lineMode (segmentOf s))

/-- What FB_DRAW_HLINE draws (R186). -/
def paintHline {σ : Type} (s : State) (sf : Surface σ) : σ → σ :=
  drawPoints sf (hlinePoints (s16 s.arg0) (s16 s.arg1) (s16 s.arg2))

/-- What FB_DRAW_VLINE draws (R188). -/
def paintVline {σ : Type} (s : State) (sf : Surface σ) : σ → σ :=
  drawPoints sf (vlinePoints (s16 s.arg0) (s16 s.arg1) (s16 s.arg2))

/-- What FB_DRAW_RECT draws (R189). -/
def paintRect {σ : Type} (s : State) (sf : Surface σ) : σ → σ :=
  drawPoints sf (rectPoints (segmentOf s))

/-- What FB_DRAW_FILLED_RECT draws (R190). -/
def paintFilledRect {σ : Type} (s : State) (sf : Surface σ) : σ → σ :=
  drawPoints sf (filledRectPoints (segmentOf s))

/-- What FB_DRAW_CIRCLE draws (R192). -/
def paintCircle {σ : Type} (s : State) (sf : Surface σ) : σ → σ :=
  drawPoints sf (circlePoints (s16 s.arg0) (s16 s.arg1) (s16 s.arg2) false)

/-- What FB_DRAW_FILLED_CIRCLE draws (R193). -/
def paintFilledCircle {σ : Type} (s : State) (sf : Surface σ) : σ → σ :=
  drawPoints sf (circlePoints (s16 s.arg0) (s16 s.arg1) (s16 s.arg2) true)

/-- FB_DRAW_CHAR (R181). -/
def execFbDrawChar (c : Colour) (s : State) : Result := .next (draw c (paintChar s) s)

/-- FB_DRAW_STRING (R182). -/
def execFbDrawString (c : Colour) (s : State) : Result := .next (draw c (paintString s) s)

/-- FB_DRAW_LINE (R184). -/
def execFbDrawLine (c : Colour) (s : State) : Result := .next (draw c (paintLine s) s)

/-- FB_DRAW_HLINE (R186). -/
def execFbDrawHline (c : Colour) (s : State) : Result := .next (draw c (paintHline s) s)

/-- FB_DRAW_VLINE (R188). -/
def execFbDrawVline (c : Colour) (s : State) : Result := .next (draw c (paintVline s) s)

/-- FB_DRAW_RECT (R189). -/
def execFbDrawRect (c : Colour) (s : State) : Result := .next (draw c (paintRect s) s)

/-- FB_DRAW_FILLED_RECT (R190). -/
def execFbDrawFilledRect (c : Colour) (s : State) : Result := .next (draw c (paintFilledRect s) s)

/-- FB_DRAW_CIRCLE (R192). -/
def execFbDrawCircle (c : Colour) (s : State) : Result := .next (draw c (paintCircle s) s)

/-- FB_DRAW_FILLED_CIRCLE (R193). -/
def execFbDrawFilledCircle (c : Colour) (s : State) : Result := .next (draw c (paintFilledCircle s) s)

end Sys2Proof.Machine
end

