-- ==== Sys2Proof/Machine/Dispatch.lean ====
section
/-! DEFINITION. One arm per operation. -/

namespace Sys2Proof.Machine

def exec (i : Instr) (s : State) : Host.Outcome State Fault Refusal :=
  match i with
  | .nop => Sys2Proof.Machine.execNop s
  | .fbInit => Sys2Proof.Machine.execFbInit s
  | .fbSetRotation r => Sys2Proof.Machine.execFbSetRotation r s
  | .fbSetWidth => Sys2Proof.Machine.execFbSetWidth s
  | .fbSetHeight => Sys2Proof.Machine.execFbSetHeight s
  | .fbSetInvert v => Sys2Proof.Machine.execFbSetInvert v s
  | .fbClear c => Sys2Proof.Machine.execFbClear c s
  | .fbDrawAbsPixel c => Sys2Proof.Machine.execFbDrawAbsPixel c s
  | .fbDrawPixel c => Sys2Proof.Machine.execFbDrawPixel c s
  | .fbDrawChar c => Sys2Proof.Machine.execFbDrawChar c s
  | .fbDrawString c => Sys2Proof.Machine.execFbDrawString c s
  | .fbDrawLine c => Sys2Proof.Machine.execFbDrawLine c s
  | .fbDrawHline c => Sys2Proof.Machine.execFbDrawHline c s
  | .fbDrawVline c => Sys2Proof.Machine.execFbDrawVline c s
  | .fbDrawRect c => Sys2Proof.Machine.execFbDrawRect c s
  | .fbDrawFilledRect c => Sys2Proof.Machine.execFbDrawFilledRect c s
  | .fbDrawCircle c => Sys2Proof.Machine.execFbDrawCircle c s
  | .fbDrawFilledCircle c => Sys2Proof.Machine.execFbDrawFilledCircle c s
  | .ctlReset => Sys2Proof.Machine.execCtlReset s
  | .ctlInitA => Sys2Proof.Machine.execCtlInitA s
  | .ctlInitB sel => Sys2Proof.Machine.execCtlInitB sel s
  | .ctlDisplayFrame => Sys2Proof.Machine.execCtlDisplayFrame s
  | .ctlSleep => Sys2Proof.Machine.execCtlSleep s
  | .ctlClearFrameMemory => Sys2Proof.Machine.execCtlClearFrameMemory s
  | .aSetPartialWindow black red => Sys2Proof.Machine.execASetPartialWindow black red s
  | .aSetPartialWindowBlack black => Sys2Proof.Machine.execASetPartialWindowBlack black s
  | .bSetLut sel => Sys2Proof.Machine.execBSetLut sel s
  | .bSetMemoryArea => Sys2Proof.Machine.execBSetMemoryArea s
  | .bSetMemoryPointer => Sys2Proof.Machine.execBSetMemoryPointer s
  | .bSetFrameMemoryAt => Sys2Proof.Machine.execBSetFrameMemoryAt s
  | .bSetFrameMemory => Sys2Proof.Machine.execBSetFrameMemory s

end Sys2Proof.Machine
end

