-- ==== Sys2Proof/Machine/Abandon.lean ====
section
/-! DEFINITION. An operation cut short by block reset (70_reset_and_hazards.md R380): what its first
effects leave that outlives the reset. An operation emits events or writes DMEM, never both
(40_framebuffer.md R140, 20_memory.md R72), so one count serves: its first `k` events, or its first `k`
calls of `PutAbs`, between any two of which reset can fall. -/

namespace Sys2Proof.Machine

/-- DMEM after the first `k` pixel writes of an operation; only a drawing operation writes DMEM (R72,
R147). -/
def memAfter (k : Nat) (i : Instr) (s : State) : Memory :=
  match i with
  | .fbClear c => cutDrawing c k paintClear s
  | .fbDrawAbsPixel c => cutDrawing c k (paintAbsPixel s) s
  | .fbDrawPixel c => cutDrawing c k (paintPixel s) s
  | .fbDrawChar c => cutDrawing c k (paintChar s) s
  | .fbDrawString c => cutDrawing c k (paintString s) s
  | .fbDrawLine c => cutDrawing c k (paintLine s) s
  | .fbDrawHline c => cutDrawing c k (paintHline s) s
  | .fbDrawVline c => cutDrawing c k (paintVline s) s
  | .fbDrawRect c => cutDrawing c k (paintRect s) s
  | .fbDrawFilledRect c => cutDrawing c k (paintFilledRect s) s
  | .fbDrawCircle c => cutDrawing c k (paintCircle s) s
  | .fbDrawFilledCircle c => cutDrawing c k (paintFilledCircle s) s
  | .nop | .fbInit | .fbSetRotation _ | .fbSetWidth | .fbSetHeight | .fbSetInvert _ | .ctlReset
  | .ctlInitA | .ctlInitB _ | .ctlDisplayFrame | .ctlSleep | .ctlClearFrameMemory
  | .aSetPartialWindow _ _ | .aSetPartialWindowBlack _ | .bSetLut _ | .bSetMemoryArea
  | .bSetMemoryPointer | .bSetFrameMemoryAt | .bSetFrameMemory => s.mem

/-- The first `k` entries of what the trace of `t` has over that of `s`, newest first: an operation
only adds to the trace, so these are its first `k` events. -/
def firstEvents (k : Nat) (s t : State) : List Traced :=
  let new := t.trace.take (t.trace.length - s.trace.length)
  new.drop (new.length - k)

/-- `s` with events `evs` emitted, newest first: the trace, and the answers of the environment they
took, listed ones first and free values after (R225, R227). -/
def emitted (evs : List Traced) (s : State) : State :=
  let busy := evs.countP fun e => e.event.isBusy
  let init := evs.countP fun e => e.event.isHwInit
  { s with
    trace := evs ++ s.trace
    busyIn := s.busyIn.drop busy
    initIn := s.initIn.drop init
    draws := s.draws + (busy - s.busyIn.length) + (init - s.initIn.length) }

/-- What a started operation that is abandoned after its first `k` effects leaves beside the registers,
which reset takes away (R380): the events it emitted, and DMEM as far as it was drawn. A word that does
not decode has no effect (R342). -/
def abandoned (k : Nat) (s : State) : State :=
  match s.opbusy, decode s.cfg.variant s.cmd with
  | true, .ok i =>
    match exec i s with
    | .next t => { emitted (firstEvents k s t) s with mem := memAfter k i s }
    | .fault _ | .refused _ => s
  | _, _ => s

end Sys2Proof.Machine
end

