-- ==== Sys2Proof/Machine/HostPort.lean ====
section
/-! DEFINITION. The host's side of the block (10_state.md R46, R47; 20_memory.md R80;
42_controller_core.md R231; 70_reset_and_hazards.md R383): the register map, what each access does,
which accesses are held while an operation runs, and whose turn the next step is. -/

namespace Sys2Proof.Machine

/-- The register map as a list of number and value (R46). -/
def regFile (s : State) : List (Byte × Word) :=
  [(0x00, s.cmd), (0x01, s.arg0), (0x02, s.arg1), (0x03, s.arg2), (0x04, s.arg3), (0x05, s.arg4),
   (0x06, s.arg5), (0x08, stateWord s.fsm), (0x09, statusWord s.code s.opbusy),
   (0x0A, idWord s.cfg.variant), (0x0B, s.cfg.panelW), (0x0C, s.cfg.panelH),
   (0x10, s.fb.base), (0x11, s.fb.cap), (0x12, s.fb.width), (0x13, s.fb.height),
   (0x14, fbCfgWord s.fb), (0x15, pinsWord s.pins)]
    ++ (List.range 15).map fun k => (BitVec.ofNat 8 (0x20 + k), lutWord s.lut k)

/-- What a read of register number `n` returns; an unlisted number reads 0 (R46). -/
def readReg (n : Byte) (s : State) : Word := ((regFile s).lookup n).getD 0

/-- A write of command word `w` to CMD while no operation runs: the operation is started (R231). -/
def startCommand (w : Word) (s : State) : State := { s with cmd := w, opbusy := true }

/-- A write of `v` to register number `n` (R46): CMD starts an operation, ARG0 to ARG5 are written,
and a read-only or unlisted number is ignored. -/
def writeReg (n : Byte) (v : Word) (s : State) : State :=
  if n = 0x00 then startCommand v s
  else if n = 0x01 then { s with arg0 := v }
  else if n = 0x02 then { s with arg1 := v }
  else if n = 0x03 then { s with arg2 := v }
  else if n = 0x04 then { s with arg3 := v }
  else if n = 0x05 then { s with arg4 := v }
  else if n = 0x06 then { s with arg5 := v }
  else s

/-- Whether an access is held while `STATUS.OPBUSY = 1`: writes to CMD and ARG0 to ARG5 and every
DMEM access are; register reads, ignored writes and block reset are not (R80, R383). -/
def HostAct.stalls : HostAct → Bool
  | .regWrite n _ => decide (n.toNat ≤ 6)
  | .memWrite _ _ | .memRead _ => true
  | .regRead _ | .blockReset _ | .pass => false

/-- What an access that is performed does (R46, R47, R380). A block reset abandons the running
operation after as many of its effects as the access says. That reset is asserted and released in one
access, so that no register or DMEM access falls while it is held, is the model's choice: the spec does
not say what such an access does (DESIGN CHOICE, log entry 10). -/
def perform (a : HostAct) (s : State) : State :=
  match a with
  | .regWrite n v => writeReg n v s
  | .regRead n => { s with replies := .reg n (readReg n s) :: s.replies }
  | .memWrite a v => { s with mem := Memory.write s.mem a.toNat v }
  | .memRead a => { s with replies := .mem a (Memory.read s.mem a.toNat) :: s.replies }
  | .blockReset k => blockReset (abandoned k s)
  | .pass => s

/-- Whose turn a step is (log entry 5). -/
inductive Turn where
  /-- the host's oldest access is performed; the rest stay pending -/
  | access (a : HostAct) (rest : List HostAct)
  /-- the sequencer runs the started operation; these accesses stay pending -/
  | sequencer (rest : List HostAct)
  /-- nothing is started and nothing is pending: the block does nothing (R381) -/
  | rest
  deriving DecidableEq, Repr

/-- Whose turn the next step is. While an operation is started the sequencer runs unless the oldest
access is one that does not stall; a `pass` lets the sequencer run (R80, R381, R383). -/
def turn (s : State) : Turn :=
  match s.host with
  | [] => if s.opbusy then .sequencer [] else .rest
  | .pass :: r => if s.opbusy then .sequencer r else .access .pass r
  | a :: r => if s.opbusy && a.stalls then .sequencer (a :: r) else .access a r

/-- The state with these host accesses pending. -/
def setHost (h : List HostAct) (s : State) : State := { s with host := h }

end Sys2Proof.Machine
end

