-- ==== Sys2Proof/Machine/Step.lean ====
section
/-! DEFINITION. One step of the machine: an access of the host, or the sequencer running the started
operation to its end, or nothing (10_state.md R33, R48; 42_controller_core.md R231). -/

namespace Sys2Proof.Machine

/-- The sequencer's turn: decode CMD and run the operation; a word that does not decode raises
`IllegalOp` and changes nothing else (R231, R342). -/
def runCommand (s : State) : Result :=
  match decode s.cfg.variant s.cmd with
  | .ok i => exec i s
  | .error _ => .next (raise .illegalOp s)

/-- One step. -/
def step (s : State) : Host.Outcome State Fault Refusal :=
  match turn s with
  | .access a rest => .next (perform a (setHost rest s))
  | .sequencer rest => runCommand (setHost rest s)
  | .rest => .next s

/-- `s` with command word `w` written to CMD and started, the strap and its default parameters being
the other variant's where only that variant has the operation (log entry 9), and the sequencer's
turn next, so that the next step runs exactly that operation. -/
def State.withFetchWord (s : State) (nbits w : Nat) : State :=
  let w : Word := BitVec.ofNat 16 (w % 2 ^ nbits)
  { s with
    cfg := if strapFor s.cfg.variant w = s.cfg.variant then s.cfg
      else Params.defaults (strapFor s.cfg.variant w)
    cmd := w
    opbusy := true
    host := .pass :: s.host }

end Sys2Proof.Machine
end

