-- ==== Sys2Proof/Safety.lean ====
section
/-! DEFINITION. The terms claims are stated in: the pixel a frame shows, the framebuffer invariant
(10_state.md R43), stable states (42_controller_core.md R228), the allowed and final states of each
controller operation (R229), event lists and the port protocol (R221, R241), and what a run of
events leaves behind. -/

namespace Sys2Proof

/-! ### Operations -/

/-- The states a controller operation may start in (R229); no restriction for the others. -/
def Instr.allowed : Instr → Option (List Machine.Fsm)
  | .ctlReset => some [.uninitialized, .idle, .sleeping]
  | .ctlInitA | .ctlInitB _ => some [.uninitialized, .idle]
  | .ctlDisplayFrame | .ctlSleep | .ctlClearFrameMemory | .aSetPartialWindow _ _
  | .aSetPartialWindowBlack _ | .bSetLut _ | .bSetMemoryArea | .bSetMemoryPointer
  | .bSetFrameMemoryAt | .bSetFrameMemory => some [.idle]
  | .nop | .fbInit | .fbSetRotation _ | .fbSetWidth | .fbSetHeight | .fbSetInvert _
  | .fbClear _ | .fbDrawAbsPixel _ | .fbDrawPixel _ | .fbDrawChar _ | .fbDrawString _
  | .fbDrawLine _ | .fbDrawHline _ | .fbDrawVline _ | .fbDrawRect _ | .fbDrawFilledRect _
  | .fbDrawCircle _ | .fbDrawFilledCircle _ => none

/-- The state a controller operation leaves on `OK` (R229). -/
def Instr.stateOnOk : Instr → Machine.Fsm
  | .ctlReset => .uninitialized
  | .ctlSleep => .sleeping
  | _ => .idle

/-- The state a controller operation holds while it emits events (R229). -/
def Instr.stateRunning : Instr → Machine.Fsm
  | .ctlReset | .ctlInitA | .ctlInitB _ => .uninitialized
  | .ctlDisplayFrame => .refreshing
  | .ctlClearFrameMemory | .bSetFrameMemoryAt | .bSetFrameMemory => .writing
  | .aSetPartialWindow _ _ | .aSetPartialWindowBlack _ => .partialMode
  | _ => .idle

/-- An operation that may raise `InvalidGeometry` (R341). -/
def Instr.mayMisfit : Instr → Bool
  | .fbInit | .fbSetWidth | .fbSetHeight | .bSetMemoryArea | .bSetMemoryPointer => true
  | _ => false

/-- An operation that may raise `HardwareFault` on a block of variant `v`: one that waits (R341). -/
def Instr.mayFault (v : Variant) : Instr → Bool
  | .ctlInitA | .ctlDisplayFrame | .ctlSleep | .bSetMemoryPointer | .bSetFrameMemoryAt
  | .bSetFrameMemory => true
  | .ctlClearFrameMemory => v == .b
  | _ => false

/-- CTL_INIT, on either variant. -/
def Instr.isInit : Instr → Bool
  | .ctlInitA | .ctlInitB _ => true
  | _ => false

/-- A drawing operation: one that may write DMEM (R140, R195). -/
def Instr.draws : Instr → Bool
  | .fbClear _ | .fbDrawAbsPixel _ | .fbDrawPixel _ | .fbDrawChar _ | .fbDrawString _
  | .fbDrawLine _ | .fbDrawHline _ | .fbDrawVline _ | .fbDrawRect _ | .fbDrawFilledRect _
  | .fbDrawCircle _ | .fbDrawFilledCircle _ => true
  | _ => false

namespace Machine

/-! ### The framebuffer -/

/-- `(x, y)` is a pixel of the frame, in absolute coordinates (R74). -/
def inFrame (fb : FbRegs) (x y : Int) : Prop :=
  0 ≤ x ∧ x < u16 fb.width ∧ 0 ≤ y ∧ y < u16 fb.height

/-- The bit of absolute pixel `(x, y)`: most significant bit first (R73, R74). -/
def pixelBit (fb : FbRegs) (m : Memory) (x y : Int) : Bool :=
  (memRead m (u16 fb.base + (x + y * u16 fb.width) / 8)).getLsbD (7 - (x % 8).toNat)

/-- The byte address `a` belongs to the frame: `FB_WIDTH * FB_HEIGHT / 8` bytes from `FB_BASE`. -/
def frameByte (fb : FbRegs) (a : Nat) : Prop :=
  u16 fb.base ≤ (a : Int) ∧ (a : Int) < u16 fb.base + u16 fb.width * u16 fb.height / 8

/-- The framebuffer invariant (R43). -/
abbrev FbRegs.Wf (fb : FbRegs) : Prop :=
  fb.width.toNat % 8 = 0 ∧
    ((fb.cap = 0 ∧ fb.width = 0 ∧ fb.height = 0) ∨
      (0 < fb.cap.toNat ∧ 0 < fb.width.toNat ∧ 0 < fb.height.toNat ∧
        fb.width.toNat * fb.height.toNat / 8 ≤ fb.cap.toNat ∧
        fb.base.toNat + fb.cap.toNat ≤ 65536))

/-- Some point `(x, y)` with `P x y` is inside the rotated bounds and rotates to the absolute pixel
`(u, v)` (R149). -/
def Hits (fb : FbRegs) (P : Int → Int → Prop) (u v : Int) : Prop :=
  ∃ x y, P x y ∧ rotatedInBounds fb x y = true ∧ rotate fb x y = (u, v)

/-- Memory `m'` is `m` with exactly the rotated points of `P` drawn in colour `c`: a pixel that is hit
has the colour's bit, every other pixel of the frame and every byte outside it is as before. -/
def DrawsExactly (fb : FbRegs) (c : Colour) (P : Int → Int → Prop) (m m' : Memory) : Prop :=
  (∀ u v, inFrame fb u v →
    (Hits fb P u v → pixelBit fb m' u v = setBitFor fb.inv c) ∧
    (¬ Hits fb P u v → pixelBit fb m' u v = pixelBit fb m u v)) ∧
  (∀ a, ¬ frameByte fb a → Memory.read m' a = Memory.read m a)

/-- `s` after a framebuffer operation that leaves memory `m` and finishes `OK`. -/
def State.drawn (s : State) (m : Memory) : State :=
  { s with mem := m, code := .ok, opbusy := false }

/-- `s` after an operation that fails with `c` before any effect: only STATUS differs (R340, R349). -/
def State.failed (s : State) (c : Code) : State := { s with code := c, opbusy := false }

/-- Bit `i` of row `j` of glyph `ch` in memory `m` (20_memory.md R87). -/
def glyphBit (m : Memory) (f : Font) (ch : Byte) (i j : Nat) : Bool :=
  (memRead m (f.glyphAddr ch + j * f.bpr + (i / 8 : Nat))).getLsbD (7 - i % 8)

/-- `(x, y)` is a point glyph `ch` drawn at `(x0, y0)` sets: a set bit of its bitmap (R180). -/
def glyphPoint (m : Memory) (f : Font) (ch : Byte) (x0 y0 x y : Int) : Prop :=
  ∃ i j : Nat, (i : Int) < f.fw ∧ (j : Int) < f.fh ∧ x = x0 + i ∧ y = y0 + j ∧
    glyphBit m f ch i j = true

/-- No bitmap byte of glyph `ch` is a byte of the frame. -/
def glyphOutsideFrame (fb : FbRegs) (f : Font) (ch : Byte) : Prop :=
  ∀ i j : Nat, (i : Int) < f.fw → (j : Int) < f.fh →
    ¬ frameByte fb (wrapAddr (f.glyphAddr ch + j * f.bpr + (i / 8 : Nat)))

/-! ### The controller -/

/-- A stable state: one the block rests in between operations (R34, R228). -/
def Fsm.stable : Fsm → Bool
  | .uninitialized | .idle | .sleeping => true
  | .writing | .partialMode | .refreshing => false

/-! ### Event lists, oldest first -/

/-- `Cmd(b)` (R221, R223). -/
def cmdEvents (b : Byte) : List Event := [.pin .dc false, .pin .cs false, .xfer b, .pin .cs true]

/-- `Dat(b)` (R221, R224). -/
def datEvents (b : Byte) : List Event := [.pin .dc true, .pin .cs false, .xfer b, .pin .cs true]

/-- `Dat` of each byte in turn. -/
def datsEvents (bs : List Byte) : List Event := bs.flatMap datEvents

/-- `ResetPulse` (R226). -/
def resetPulseEvents (cfg : Config) : List Event :=
  [.pin .rst false, .delay cfg.resetMs, .pin .rst true, .delay cfg.resetMs]

/-- `Settle()` (R270). -/
def settleEvents (cfg : Config) : List Event := if cfg.settleMs > 0 then [.delay cfg.settleMs] else []

/-- The events of `AreaB` (R304). -/
def areaEvents (cfg : Config) (bx0 bx1 y0 y1 : Int) : List Event :=
  cmdEvents cfg.cmdB.ramXStartEnd ++ datsEvents [lo8 bx0, lo8 bx1]
    ++ cmdEvents cfg.cmdB.ramYStartEnd ++ datsEvents [lo8 y0, hi8 y0, lo8 y1, hi8 y1]

/-- The events of `PointerB` before its wait (R306). -/
def pointerEvents (cfg : Config) (bx y : Int) : List Event :=
  cmdEvents cfg.cmdB.ramXCounter ++ datsEvents [lo8 bx]
    ++ cmdEvents cfg.cmdB.ramYCounter ++ datsEvents [lo8 y, hi8 y]

/-- `WaitIdle` of a panel that is ready at the sample after `k` not-ready ones (R225). -/
def waitEvents (cfg : Config) (k : Nat) : List Event :=
  (List.replicate k [Event.busy (!cfg.readyLevel), Event.delay cfg.pollMs]).flatten
    ++ [.busy cfg.readyLevel]

/-- The events of one row of a frame write whose wait takes `k` not-ready samples (R308, R385). -/
def rowEvents (cfg : Config) (bx y : Int) (k : Nat) (bytes : List Byte) : List Event :=
  pointerEvents cfg bx y ++ waitEvents cfg k ++ cmdEvents cfg.cmdB.writeRam ++ datsEvents bytes

/-- `WaitIdle` of a panel that is not ready at any sample (R225): `WAIT_MAX_POLLS + 1` samples with
`WAIT_MAX_POLLS` delays between them. -/
def timeoutEvents (cfg : Config) : List Event :=
  (List.replicate cfg.waitMaxPolls [Event.busy (!cfg.readyLevel), Event.delay cfg.pollMs]).flatten
    ++ [.busy (!cfg.readyLevel)]

/-- The events of one element of a byte sequence when the panel is ready at once. -/
def PortOp.readyEvents (cfg : Config) : PortOp → List Event
  | .cmd b => cmdEvents b
  | .dat b => datEvents b
  | .delay ms => [.delay ms]
  | .wait => [.busy cfg.readyLevel]

/-- The next `n` BUSY answers are listed and every one is ready. -/
abbrev ReadyFor (s : State) (n : Nat) : Prop :=
  s.busyIn.take n = List.replicate n s.cfg.readyLevel

/-- The panel answers `k` samples not ready and the next one ready, within the poll limit. -/
abbrev ReadyAfter (s : State) (k : Nat) : Prop :=
  k ≤ s.cfg.waitMaxPolls ∧
    s.busyIn.take (k + 1) = List.replicate k (!s.cfg.readyLevel) ++ [s.cfg.readyLevel]

/-- The panel answers the `j`th wait, for every `j` below `n`, with `k j` samples not ready and the next
one ready, each within the poll limit (R225, R385). -/
abbrev ReadyEach (s : State) (n : Nat) (k : Nat → Nat) : Prop :=
  (∀ j, j < n → k j ≤ s.cfg.waitMaxPolls) ∧
    ((List.range n).flatMap fun j => List.replicate (k j) (!s.cfg.readyLevel) ++ [s.cfg.readyLevel])
      <+: s.busyIn

/-- The panel answers the first `n` waits as in `ReadyEach` and the next one at no sample: not ready
`WAIT_MAX_POLLS + 1` times (R225). -/
abbrev ReadyThenNever (s : State) (n : Nat) (k : Nat → Nat) : Prop :=
  (∀ j, j < n → k j ≤ s.cfg.waitMaxPolls) ∧
    ((List.range n).flatMap fun j => List.replicate (k j) (!s.cfg.readyLevel) ++ [s.cfg.readyLevel])
      ++ List.replicate (s.cfg.waitMaxPolls + 1) (!s.cfg.readyLevel) <+: s.busyIn

/-- The panel answers not ready at every sample a wait takes: `WAIT_MAX_POLLS + 1` of them (R225). -/
abbrev NeverReady (s : State) : Prop :=
  s.busyIn.take (s.cfg.waitMaxPolls + 1) =
    List.replicate (s.cfg.waitMaxPolls + 1) (!s.cfg.readyLevel)

/-- PINS after one event: the last level driven on an output, or sampled on BUSY (R44). -/
def pinsAfterEvent (p : Pins) : Event → Pins
  | .pin .rst l => { p with rst := l }
  | .pin .dc l => { p with dc := l }
  | .pin .cs l => { p with cs := l }
  | .busy l => { p with busy := l }
  | .xfer _ | .delay _ | .hwInit _ => p

/-- PINS after a list of events (R44). -/
def pinsAfter (p : Pins) (evs : List Event) : Pins := evs.foldl pinsAfterEvent p

/-- `s` with events `evs` emitted while STATE is `during`: the trace and PINS follow them, and each
`Busy` and `HwInit` has taken one listed answer. Nothing else differs. -/
def State.observed (s : State) (during : Fsm) (evs : List Event) : State :=
  { s with
    trace := (evs.map (Traced.mk during)).reverse ++ s.trace
    pins := pinsAfter s.pins evs
    busyIn := s.busyIn.drop (evs.countP Event.isBusy)
    initIn := s.initIn.drop (evs.countP Event.isHwInit) }

/-- `s` after a controller operation that emitted `evs` with STATE at `during`, left `after` and
finished with `c`. -/
def State.ended (s : State) (during after : Fsm) (c : Code) (evs : List Event) : State :=
  { s.observed during evs with fsm := after, code := c, opbusy := false }

/-- Where a trace stands in the transfer protocol (R241): between transfers, DC driven, CS low with
nothing sent, one byte sent. -/
inductive PortPhase where
  | between
  | dcDriven
  | selected
  | sent
  deriving DecidableEq, Repr

/-- One event of the transfer protocol (R241); `none` is a breach. -/
def portStep : PortPhase → Event → Option PortPhase
  | .between, .pin .dc _ => some .dcDriven
  | .between, .pin .rst _ => some .between
  | .between, .busy _ => some .between
  | .between, .delay _ => some .between
  | .between, .hwInit _ => some .between
  | .dcDriven, .pin .cs false => some .selected
  | .selected, .xfer _ => some .sent
  | .sent, .pin .cs true => some .between
  | _, _ => none

/-- A list of events followed through the transfer protocol (R241). -/
def portRun : PortPhase → List Event → Option PortPhase
  | p, [] => some p
  | p, e :: r =>
    match portStep p e with
    | some q => portRun q r
    | none => none

/-- The milliseconds of the `Delay` events of a list (R390). -/
def delayTotal (evs : List Event) : Nat :=
  (evs.map fun e =>
    match e with
    | .delay ms => ms
    | _ => 0).sum

/-! ### Turns -/

/-- An operation is started and the sequencer has the turn, on `s₀`: no access is pending, or a `pass`,
which is taken off, or one that stalls, which stays (R80, R383; log entry 5). -/
abbrev SequencerTurn (s s₀ : State) : Prop :=
  s.opbusy = true ∧
    ((s.host = [] ∧ s₀ = s) ∨ (∃ r, s.host = .pass :: r ∧ s₀ = { s with host := r }) ∨
      (∃ a r, s.host = a :: r ∧ a.stalls = true ∧ s₀ = s))

/-! ### Invariants -/

/-- CS and RST are high (R241). -/
def Pins.AtRest (p : Pins) : Bool := p.cs && p.rst

/-- The invariant of the block between steps: parameters a block can have, DMEM in canonical form, the
framebuffer invariant, a stable state, CS and RST high, and LUT_CUR at its reset value on variant A,
which never writes it (R43, R228, R241, R270). -/
abbrev State.Inv (s : State) : Prop :=
  s.cfg.Wf ∧ Memory.wf s.mem = true ∧ s.fb.Wf ∧ s.fsm.stable = true ∧ s.pins.AtRest = true ∧
    (s.cfg.variant = .a → s.lut = Lut.reset)

end Machine

end Sys2Proof
end

