-- ==== Sys2Proof/Certificates/Slice0/Obligations.lean ====
section
/-! DEFINITION. The statements for the provers: encoding, the host's side, the framebuffer, the
rasterizer, the controller of both variants, and the invariants of the step. -/

open Sys2Proof Sys2Proof.Machine

/-! ### Encoding -/

/-- Decoding the word of an operation gives the operation back, on every variant that has it
(30_encoding.md R100, R102, R104). -/
def Obligations.DecodeOfEncode : Prop :=
  ∀ (v : Variant) (i : Instr), i.WellFormed v = true → decode v (encode i) = .ok i

/-- A word that decodes is the word of the operation it decodes to, which the variant has: no word
has a second reading and no bit is dropped (R106, R107). -/
def Obligations.DecodedWordIsEncoding : Prop :=
  ∀ (v : Variant) (w : Word) (i : Instr),
    decode v w = .ok i → encode i = w ∧ i.WellFormed v = true

/-- Words written out from R104's table decode to their operations. -/
def Obligations.SampleWordsDecode : Prop :=
  decode .a 0x0000 = .ok .nop ∧ decode .b 0x0302 = .ok (.fbSetRotation .r270) ∧
    decode .a 0x0010 = .ok (.fbClear .uncolored) ∧ decode .b 0x0115 = .ok (.fbDrawLine .colored) ∧
    decode .a 0x0021 = .ok .ctlInitA ∧ decode .b 0x0121 = .ok (.ctlInitB .presetPartial) ∧
    decode .a 0x0330 = .ok (.aSetPartialWindow true true) ∧ decode .b 0x0240 = .ok (.bSetLut .custom)

/-- Illegal words finish with `IllegalOp` and change nothing else: reserved bits set (R101), an opcode
that is not assigned, and MOD bits the opcode does not have (R102, R106); whether nothing is pending, or a
`pass`, which the turn takes off the list, or an access that stalls. The turns are the model's choice (log
entry 5). -/
def Obligations.IllegalWordsChangeStatusOnly : Prop :=
  ∀ s s₀ : State, SequencerTurn s s₀ →
    (s.cmd.extractLsb' 12 4 ≠ 0#4 → step s = .next (s₀.failed .illegalOp)) ∧
    ((s.cmd.setWidth 8).toNat ∈ List.range' 0x06 10 ++ List.range' 0x1C 4 ++ List.range' 0x25 11
        ++ List.range' 0x32 14 ++ List.range' 0x45 187 → step s = .next (s₀.failed .illegalOp)) ∧
    ((s.cmd.setWidth 8).toNat ∈
        [0x00, 0x01, 0x03, 0x04, 0x20, 0x22, 0x23, 0x24, 0x41, 0x42, 0x43, 0x44] →
      s.cmd.extractLsb' 8 4 ≠ 0#4 → step s = .next (s₀.failed .illegalOp)) ∧
    ((s.cmd.setWidth 8).toNat ∈ [0x05, 0x31] ++ List.range' 0x10 12 →
      1 < (s.cmd.extractLsb' 8 4).toNat → step s = .next (s₀.failed .illegalOp)) ∧
    ((s.cmd.setWidth 8).toNat ∈ [0x02, 0x30] →
      3 < (s.cmd.extractLsb' 8 4).toNat → step s = .next (s₀.failed .illegalOp)) ∧
    ((s.cmd.setWidth 8).toNat ∈ [0x21, 0x40] →
      2 < (s.cmd.extractLsb' 8 4).toNat → step s = .next (s₀.failed .illegalOp))

/-- The opcodes of the other variant are illegal and change nothing else, and CTL_INIT takes MOD = 0
on variant A and a LUT select on variant B (R105); whether nothing is pending, or a `pass`, or an access
that stalls. The turns are the model's choice (log entry 5). -/
def Obligations.OtherVariantIsIllegal : Prop :=
  ∀ s s₀ : State, SequencerTurn s s₀ →
    (s.cfg.variant = .b → 0x30 ≤ (s.cmd.setWidth 8).toNat → (s.cmd.setWidth 8).toNat ≤ 0x3F →
      step s = .next (s₀.failed .illegalOp)) ∧
    (s.cfg.variant = .a → 0x40 ≤ (s.cmd.setWidth 8).toNat → (s.cmd.setWidth 8).toNat ≤ 0x4F →
      step s = .next (s₀.failed .illegalOp)) ∧
    (s.cfg.variant = .a → s.cmd.setWidth 8 = 0x21#8 →
      step s = if s.cmd = 0x0021 then exec .ctlInitA s₀ else .next (s₀.failed .illegalOp)) ∧
    (s.cfg.variant = .b → s.cmd.setWidth 8 = 0x21#8 →
      step s = if s.cmd = 0x0021 then exec (.ctlInitB .presetFull) s₀
        else if s.cmd = 0x0121 then exec (.ctlInitB .presetPartial) s₀
        else if s.cmd = 0x0221 then exec (.ctlInitB .custom) s₀
        else .next (s₀.failed .illegalOp))

/-! ### The host's side -/

/-- A step runs the decoded operation: when CMD's word decodes to `i` and the operation is started,
the sequencer's turn is `exec i`, with a `pass` of the host taken off its list and every stalling
access left there (42_controller_core.md R231, 20_memory.md R80). That the host's accesses are a list, that a
`pass` gives the turn away, and that one turn runs the whole operation are the model's choices (log
entries 4 and 5). -/
def Obligations.StepRunsDecodedOperation : Prop :=
  ∀ (s : State) (i : Instr), s.opbusy = true → decode s.cfg.variant s.cmd = .ok i →
    (s.host = [] → step s = exec i s) ∧
    (∀ r, s.host = .pass :: r → step s = exec i { s with host := r }) ∧
    (∀ a r, s.host = a :: r → a.stalls = true → step s = exec i s)

/-- After reset the block is idle and does nothing until the host writes CMD (70 R381). -/
def Obligations.IdleBlockDoesNothing : Prop :=
  (∀ (cfg : Config) (m : Memory), (State.resetWith cfg m).opbusy = false ∧
    (State.resetWith cfg m).fsm = .uninitialized) ∧
  (∀ s : State, s.opbusy = false → s.host = [] → step s = .next s)

/-- A write of CMD or an ARG, or a DMEM access, made while an operation runs stays pending until the
operation has finished and is performed then; a register read is not held, is answered whether an
operation runs or not, and has no side effect (70 R383, R46, 20_memory.md R90). The list of accesses and
of replies, the order of the turns, and the `pass`, which while no operation runs does nothing, are the
model's choice (log entry 5). -/
def Obligations.AccessesHeldWhileBusy : Prop :=
  ∀ (s : State) (r : List HostAct),
    (s.opbusy = true → ∀ a, s.host = a :: r →
      ((∃ n v, a = .regWrite n v ∧ n.toNat ≤ 6) ∨ (∃ p v, a = .memWrite p v) ∨ (∃ p, a = .memRead p)) →
      ∃ t, step s = .next t ∧ t.host = a :: r ∧ t.opbusy = false ∧
        step t = .next (perform a { t with host := r })) ∧
    (∀ n, s.host = .regRead n :: r →
      step s = .next { s with host := r, replies := .reg n (readReg n s) :: s.replies }) ∧
    (s.opbusy = false → s.host = .pass :: r → step s = .next { s with host := r })

/-- What the register map reads as (10_state.md R34 to R46), number by number, and 0 elsewhere, with the
codes of STATE (R34), STATUS.CODE (R341) and FB_CFG.ROT (R42) written out. -/
def Obligations.RegisterMapReads : Prop :=
  ∀ s : State,
    readReg 0x00 s = s.cmd ∧ readReg 0x01 s = s.arg0 ∧ readReg 0x02 s = s.arg1 ∧
    readReg 0x03 s = s.arg2 ∧ readReg 0x04 s = s.arg3 ∧ readReg 0x05 s = s.arg4 ∧
    readReg 0x06 s = s.arg5 ∧
    readReg 0x08 s = (match s.fsm with
      | .uninitialized => 0
      | .idle => 1
      | .writing => 2
      | .partialMode => 3
      | .refreshing => 4
      | .sleeping => 5) ∧
    (readReg 0x09 s).toNat = (match s.code with
      | .ok => 0
      | .invalidGeometry => 1
      | .invalidState => 2
      | .hardwareFault => 3
      | .hardwareInitFailure => 4
      | .illegalOp => 5) + 32768 * s.opbusy.toNat ∧
    (readReg 0x0A s).toNat = (decide (s.cfg.variant = .b)).toNat ∧
    readReg 0x0B s = s.cfg.panelW ∧ readReg 0x0C s = s.cfg.panelH ∧
    readReg 0x10 s = s.fb.base ∧ readReg 0x11 s = s.fb.cap ∧ readReg 0x12 s = s.fb.width ∧
    readReg 0x13 s = s.fb.height ∧
    (readReg 0x14 s).toNat = (match s.fb.rot with
      | .r0 => 0
      | .r90 => 1
      | .r180 => 2
      | .r270 => 3) + 4 * s.fb.inv.toNat ∧
    (readReg 0x15 s).toNat =
      s.pins.rst.toNat + 2 * s.pins.dc.toNat + 4 * s.pins.cs.toNat + 8 * s.pins.busy.toNat ∧
    (∀ (k : Nat) (_ : k < 15), (readReg (BitVec.ofNat 8 (0x20 + k)) s).toNat =
      (s.lut[2 * k]'(by omega)).toNat + 256 * (s.lut[2 * k + 1]'(by omega)).toNat) ∧
    (∀ n : Byte, n.toNat ∉ List.range' 0x00 7 ++ List.range' 0x08 5 ++ List.range' 0x10 6
      ++ List.range' 0x20 15 → readReg n s = 0)

/-- A host register write. While no operation runs, a write of CMD sets CMD and OPBUSY alone and a write
of ARG0 to ARG5 sets that register alone; a write to a read-only or unlisted number is ignored at any
time (R31, R32, R46, R231). Which access a step performs is the model's choice (log entry 5). -/
def Obligations.RegisterWrites : Prop :=
  ∀ (s : State) (n : Byte) (v : Word) (r : List HostAct), s.host = .regWrite n v :: r →
    (s.opbusy = false →
      (n = 0x00 → step s = .next { s with cmd := v, opbusy := true, host := r }) ∧
      (n = 0x01 → step s = .next { s with arg0 := v, host := r }) ∧
      (n = 0x02 → step s = .next { s with arg1 := v, host := r }) ∧
      (n = 0x03 → step s = .next { s with arg2 := v, host := r }) ∧
      (n = 0x04 → step s = .next { s with arg3 := v, host := r }) ∧
      (n = 0x05 → step s = .next { s with arg4 := v, host := r }) ∧
      (n = 0x06 → step s = .next { s with arg5 := v, host := r })) ∧
    (6 < n.toNat → step s = .next { s with host := r })

/-- The host's memory port while no operation runs: a write sets that byte alone and keeps the
canonical form, and a read answers the byte and changes nothing (R47, 20_memory.md R71, R81). That the
port moves one byte, and the list of replies, are the model's choice (log entries 5 and 12). -/
def Obligations.HostMemoryPort : Prop :=
  ∀ (s : State) (a : Word) (r : List HostAct), s.opbusy = false → Memory.wf s.mem = true →
    (∀ v : Byte, s.host = .memWrite a v :: r →
      ∃ m, step s = .next { s with mem := m, host := r } ∧ Memory.wf m = true ∧
        ∀ b : Nat, Memory.read m b = if b = a.toNat then v else Memory.read s.mem b) ∧
    (s.host = .memRead a :: r →
      step s = .next { s with host := r, replies := .mem a (Memory.read s.mem a.toNat) :: s.replies })

/-- A block reset takes every register to its reset value, keeps DMEM and the parameters, and emits no
event: while no operation runs, before a started one's first effect, and where CMD's word does not
decode (R69, 70 R380). That reset is one access, and that the host's pending accesses and the
environment's answers stay, are the model's choice, log entry 10. -/
def Obligations.BlockReset : Prop :=
  ∀ (s : State) (k : Nat) (r : List HostAct), s.host = .blockReset k :: r →
    (s.opbusy = false ∨ k = 0 ∨ ∀ i, decode s.cfg.variant s.cmd ≠ .ok i) →
    step s = .next { State.resetWith s.cfg s.mem with
      trace := s.trace, host := r, replies := s.replies, busyIn := s.busyIn, initIn := s.initIn
      draws := s.draws }

/-- A block reset after the first `k` effects of a running operation abandons it: every register is at
its reset value, no STATUS is written for it, its first `k` events stand and none follows, and DMEM is as
far as it was drawn: every pixel as before or as the finished operation leaves it, no byte outside the
frame changed, and DMEM untouched where the operation does not draw. A reset after all of an operation's
effects finds the trace and DMEM the finished operation leaves (R69, 70 R380). What counts as an effect,
and that what is outside the block stays, are the model's choice (log entry 10). -/
def Obligations.BlockResetAbandonsOperation : Prop :=
  ∀ (s t : State) (r : List HostAct) (i : Instr), s.opbusy = true →
    decode s.cfg.variant s.cmd = .ok i → exec i { s with host := r } = .next t →
    Memory.wf s.mem = true → s.fb.Wf →
    (∀ k, ∃ (evs : List Traced) (m : Memory) (d : Nat),
      step { s with host := .blockReset k :: r } = .next { State.resetWith s.cfg m with
        trace := evs ++ s.trace, host := r, replies := s.replies
        busyIn := s.busyIn.drop (evs.countP fun e => e.event.isBusy)
        initIn := s.initIn.drop (evs.countP fun e => e.event.isHwInit)
        draws := d } ∧
      evs.length = min k (t.trace.length - s.trace.length) ∧ evs ++ s.trace <:+ t.trace ∧
      Memory.wf m = true ∧ (i.draws = false ∨ k = 0 → m = s.mem) ∧
      (∀ a, ¬ frameByte s.fb a → Memory.read m a = Memory.read s.mem a) ∧
      (∀ x y, inFrame s.fb x y → pixelBit s.fb m x y = pixelBit s.fb s.mem x y ∨
        pixelBit s.fb m x y = pixelBit s.fb t.mem x y)) ∧
    (∃ n, ∀ k, n ≤ k → ∃ u, step { s with host := .blockReset k :: r } = .next u ∧
      u.mem = t.mem ∧ u.trace = t.trace)

/-- The values of R69: what every register number reads after a block reset, and DMEM as it was. -/
def Obligations.ResetRegisterValues : Prop :=
  ∀ (cfg : Config) (m : Memory) (n : Byte),
    readReg n (State.resetWith cfg m) =
      (if n = 0x0A then (match cfg.variant with
          | .a => 0x0000
          | .b => 0x0001)
        else if n = 0x0B then cfg.panelW
        else if n = 0x0C then cfg.panelH
        else if n = 0x15 then 0x0005
        else 0x0000) ∧
    (State.resetWith cfg m).mem = m

/-! ### What every operation does -/

/-- Every step answers a next state: no access faults and there is no trap (R70, R340). Every operation
finishes with OPBUSY clear, and changes neither CMD, ARG0 to ARG5, the parameters nor the host's
accesses (R31, R341, R384). -/
def Obligations.OperationsFinishAndKeepArguments : Prop :=
  (∀ s : State, ∃ t, step s = .next t) ∧
  ∀ (i : Instr) (s : State), ∃ t, exec i s = .next t ∧ t.opbusy = false ∧ t.cmd = s.cmd ∧
    t.arg0 = s.arg0 ∧ t.arg1 = s.arg1 ∧ t.arg2 = s.arg2 ∧ t.arg3 = s.arg3 ∧ t.arg4 = s.arg4 ∧
    t.arg5 = s.arg5 ∧ t.cfg = s.cfg ∧ t.host = s.host ∧ t.replies = s.replies

/-- The status codes an operation can raise, by the last column of R341's table, on a variant that
has it and from a stable state. -/
def Obligations.OperationsRaiseTheirCodes : Prop :=
  ∀ (i : Instr) (s t : State), i.WellFormed s.cfg.variant = true → s.fsm.stable = true →
    exec i s = .next t →
    t.code ≠ .illegalOp ∧
    (t.code = .invalidGeometry → i.mayMisfit = true) ∧
    (t.code = .invalidState → i.allowed ≠ none ∧ i ≠ .ctlReset) ∧
    (t.code = .hardwareFault → i.mayFault s.cfg.variant = true) ∧
    (t.code = .hardwareInitFailure → i.isInit = true)

/-- A failure by decode, guard or argument check changes STATUS alone; a failure during execution keeps
DMEM and the framebuffer registers and leaves STATE Uninitialized (R345, R349). -/
def Obligations.FailuresHaveTheirPartialEffects : Prop :=
  ∀ (i : Instr) (s t : State), exec i s = .next t →
    (t.code = .illegalOp ∨ t.code = .invalidState ∨ t.code = .invalidGeometry → t = s.failed t.code) ∧
    (t.code = .hardwareFault ∨ t.code = .hardwareInitFailure →
      t.fsm = .uninitialized ∧ t.mem = s.mem ∧ t.fb = s.fb)

/-- NOP finishes `OK` and changes STATUS alone (R234). -/
def Obligations.NopClearsStatus : Prop :=
  ∀ s : State, exec .nop s = .next { s with code := .ok, opbusy := false }

/-! ### The framebuffer -/

/-- Framebuffer operations (and NOP) neither write nor read STATE, PINS and LUT_CUR, emit no event,
run in every state and on both variants, and fail with `InvalidGeometry` at most, in FB_INIT,
FB_SET_WIDTH and FB_SET_HEIGHT alone, changing nothing but STATUS then (40 R140). -/
def Obligations.FramebufferIgnoresController : Prop :=
  ∀ (i : Instr) (s t : State), i.allowed = none → exec i s = .next t →
    t.fsm = s.fsm ∧ t.pins = s.pins ∧ t.lut = s.lut ∧ t.trace = s.trace ∧ t.busyIn = s.busyIn ∧
    t.initIn = s.initIn ∧ t.draws = s.draws ∧
    (∀ (f : Fsm) (p : Pins) (l : Lut) (v : Variant),
      exec i { s with fsm := f, pins := p, lut := l, cfg := { s.cfg with variant := v } } =
        .next { t with fsm := f, pins := p, lut := l, cfg := { s.cfg with variant := v } }) ∧
    (t.code = .ok ∨ (t = s.failed .invalidGeometry ∧ i ∈ [.fbInit, .fbSetWidth, .fbSetHeight]))

/-- FB_INIT binds the buffer, `W` being the width rounded up to a multiple of 8: base, capacity, width
and height are set, ROT becomes 0, INV and DMEM stay; and it fails with `InvalidGeometry`, changing
nothing else, in exactly the cases R141 lists. -/
def Obligations.FbInitBindsBuffer : Prop :=
  ∀ (s : State) (W : Int), W % 8 = 0 → s.arg2.toInt ≤ W → W < s.arg2.toInt + 8 →
    exec .fbInit s = .next
      (if 0 < s.arg1.toNat ∧ 0 < s.arg2.toInt ∧ 0 < s.arg3.toInt ∧
          s.arg0.toNat + s.arg1.toNat ≤ 65536 ∧ W * s.arg3.toInt / 8 ≤ (s.arg1.toNat : Int)
        then { s with
          fb := { base := s.arg0, cap := s.arg1, width := BitVec.ofInt 16 W, height := s.arg3,
                  rot := .r0, inv := s.fb.inv }
          code := .ok
          opbusy := false }
        else s.failed .invalidGeometry)

/-- FB_SET_WIDTH sets the width, rounded up to a multiple of 8, and nothing else, or fails with
`InvalidGeometry` in exactly the cases of R143. -/
def Obligations.FbSetWidthRounds : Prop :=
  ∀ (s : State) (W : Int), W % 8 = 0 → s.arg0.toInt ≤ W → W < s.arg0.toInt + 8 →
    exec .fbSetWidth s = .next
      (if 0 < s.fb.cap.toNat ∧ 0 < s.arg0.toInt ∧
          W * (s.fb.height.toNat : Int) / 8 ≤ (s.fb.cap.toNat : Int)
        then { s with fb := { s.fb with width := BitVec.ofInt 16 W }, code := .ok, opbusy := false }
        else s.failed .invalidGeometry)

/-- FB_SET_HEIGHT sets the height and nothing else, or fails with `InvalidGeometry` in exactly the
cases of R144. -/
def Obligations.FbSetHeightChecksCapacity : Prop :=
  ∀ s : State, exec .fbSetHeight s = .next
    (if 0 < s.fb.cap.toNat ∧ 0 < s.arg0.toInt ∧
        (s.fb.width.toNat : Int) * s.arg0.toInt / 8 ≤ (s.fb.cap.toNat : Int)
      then { s with fb := { s.fb with height := s.arg0 }, code := .ok, opbusy := false }
      else s.failed .invalidGeometry)

/-- FB_SET_ROTATION sets ROT and FB_SET_INVERT sets INV to its operand, and each changes nothing but that
field and STATUS (R142, R145). -/
def Obligations.FbSetRotationAndInvert : Prop :=
  (∀ (s : State) (r : Rotation), exec (.fbSetRotation r) s =
    .next { s with fb := { s.fb with rot := r }, code := .ok, opbusy := false }) ∧
  (∀ (s : State) (v : Bool), exec (.fbSetInvert v) s =
    .next { s with fb := { s.fb with inv := v }, code := .ok, opbusy := false })

/-- A drawing operation changes DMEM and STATUS alone, keeps DMEM canonical, and leaves every byte
outside the frame as it was (R147, R195); no other operation writes DMEM (R72, R349). -/
def Obligations.DrawingStaysInFrame : Prop :=
  ∀ (i : Instr) (s t : State), exec i s = .next t →
    (i.draws = true → Memory.wf s.mem = true → s.fb.Wf →
      t = s.drawn t.mem ∧ Memory.wf t.mem = true ∧
        ∀ a, ¬ frameByte s.fb a → Memory.read t.mem a = Memory.read s.mem a) ∧
    (i.draws = false → t.mem = s.mem)

/-- FB_DRAW_ABS_PIXEL ignores the rotation: it writes its pixel, a set bit for `colored` where FB_CFG.INV
is 1 and for `uncolored` where it is 0 and else a clear one, and no other pixel and no byte outside the
frame; outside the frame it does nothing (R146, R147, R148). -/
def Obligations.AbsPixelWritesOnePixel : Prop :=
  ∀ (s : State) (c : Colour), Memory.wf s.mem = true → s.fb.Wf →
    ∃ m, exec (.fbDrawAbsPixel c) s = .next (s.drawn m) ∧ Memory.wf m = true ∧
      (∀ u v, inFrame s.fb u v → pixelBit s.fb m u v =
        if s.arg0.toInt = u ∧ s.arg1.toInt = v then decide (c = .colored) == s.fb.inv
          else pixelBit s.fb s.mem u v) ∧
      (∀ a, ¬ frameByte s.fb a → Memory.read m a = Memory.read s.mem a) ∧
      (¬ inFrame s.fb s.arg0.toInt s.arg1.toInt → m = s.mem)

/-- FB_DRAW_PIXEL writes the pixel its point rotates to by R149's transforms, when the point is inside
the rotated bounds, with the bit of R146, and no other pixel (R146, R149, R150). -/
def Obligations.DrawPixelRotates : Prop :=
  ∀ (s : State) (c : Colour) (x y W H : Int), Memory.wf s.mem = true → s.fb.Wf →
    x = s.arg0.toInt → y = s.arg1.toInt → W = (s.fb.width.toNat : Int) → H = (s.fb.height.toNat : Int) →
    ∃ m, exec (.fbDrawPixel c) s = .next (s.drawn m) ∧
      (∀ a, ¬ frameByte s.fb a → Memory.read m a = Memory.read s.mem a) ∧
      ∀ u v, inFrame s.fb u v → pixelBit s.fb m u v =
        if (match s.fb.rot with
            | .r0 => 0 ≤ x ∧ x < W ∧ 0 ≤ y ∧ y < H ∧ u = x ∧ v = y
            | .r90 => 0 ≤ x ∧ x < H ∧ 0 ≤ y ∧ y < W ∧ u = W - y ∧ v = x
            | .r180 => 0 ≤ x ∧ x < W ∧ 0 ≤ y ∧ y < H ∧ u = W - x ∧ v = H - y
            | .r270 => 0 ≤ x ∧ x < H ∧ 0 ≤ y ∧ y < W ∧ u = y ∧ v = H - x : Bool)
          then decide (c = .colored) == s.fb.inv else pixelBit s.fb s.mem u v

/-- FB_CLEAR makes every byte of the frame 0xFF or 0x00 by the polarity of its colour, whatever the
rotation, and leaves every other byte alone (R146, R151). -/
def Obligations.ClearFillsFrame : Prop :=
  ∀ (s : State) (c : Colour), Memory.wf s.mem = true → s.fb.Wf →
    ∃ m, exec (.fbClear c) s = .next (s.drawn m) ∧
      (∀ a, frameByte s.fb a → Memory.read m a = if decide (c = .colored) == s.fb.inv then 0xFF else 0x00) ∧
      (∀ a, ¬ frameByte s.fb a → Memory.read m a = Memory.read s.mem a)

/-- Drawing the same pixel again in the same colour leaves the state as once (20_memory.md R90). -/
def Obligations.PixelWriteIsIdempotent : Prop :=
  ∀ (s t : State) (c : Colour), Memory.wf s.mem = true → s.fb.Wf →
    (exec (.fbDrawAbsPixel c) s = .next t → exec (.fbDrawAbsPixel c) t = .next t) ∧
    (exec (.fbDrawPixel c) s = .next t → exec (.fbDrawPixel c) t = .next t)

/-! ### The rasterizer -/

/-- FB_DRAW_HLINE and FB_DRAW_VLINE draw exactly the points of their span, none for a length of 0 or
less (R186, R187, R188). -/
def Obligations.SpansDrawTheirPoints : Prop :=
  ∀ (s : State) (c : Colour), Memory.wf s.mem = true → s.fb.Wf →
    (∃ m, exec (.fbDrawHline c) s = .next (s.drawn m) ∧
      DrawsExactly s.fb c
        (fun x y => y = s.arg1.toInt ∧ s.arg0.toInt ≤ x ∧ x < s.arg0.toInt + s.arg2.toInt) s.mem m) ∧
    (∃ m, exec (.fbDrawVline c) s = .next (s.drawn m) ∧
      DrawsExactly s.fb c
        (fun x y => x = s.arg0.toInt ∧ s.arg1.toInt ≤ y ∧ y < s.arg1.toInt + s.arg2.toInt) s.mem m)

/-- FB_DRAW_RECT draws exactly the outline of the box its two corners span, in either order, and
FB_DRAW_FILLED_RECT exactly the box (R189, R190). -/
def Obligations.RectsDrawTheirBox : Prop :=
  ∀ (s : State) (c : Colour) (xa xb ya yb : Int), Memory.wf s.mem = true → s.fb.Wf →
    xa = min s.arg0.toInt s.arg2.toInt → xb = max s.arg0.toInt s.arg2.toInt →
    ya = min s.arg1.toInt s.arg3.toInt → yb = max s.arg1.toInt s.arg3.toInt →
    (∃ m, exec (.fbDrawRect c) s = .next (s.drawn m) ∧
      DrawsExactly s.fb c
        (fun x y => (xa ≤ x ∧ x ≤ xb ∧ (y = ya ∨ y = yb)) ∨ (ya ≤ y ∧ y ≤ yb ∧ (x = xa ∨ x = xb)))
        s.mem m) ∧
    (∃ m, exec (.fbDrawFilledRect c) s = .next (s.drawn m) ∧
      DrawsExactly s.fb c (fun x y => xa ≤ x ∧ x ≤ xb ∧ ya ≤ y ∧ y ≤ yb) s.mem m)

/-- FB_DRAW_LINE draws exactly the points of its walk, by the block's LINE_MODE (R183, R184). -/
def Obligations.LineDrawsItsWalk : Prop :=
  ∀ (s : State) (c : Colour), Memory.wf s.mem = true → s.fb.Wf →
    ∃ m, exec (.fbDrawLine c) s = .next (s.drawn m) ∧
      DrawsExactly s.fb c
        (fun x y => (x, y) ∈ linePoints s.cfg.lineMode
          { x0 := s.arg0.toInt, y0 := s.arg1.toInt, x1 := s.arg2.toInt, y1 := s.arg3.toInt }) s.mem m

/-- The line properties of R185, mode by mode: the walk ends (a larger bound on the loop gives the same
points), stays in the bounding box of the end points, and moves by at most 1 in each coordinate; with
`n = max(|x1 - x0|, |y1 - y0|)`, `Inclusive` has `n + 1` points from one end point to the other,
`Exclusive` the first `n` of them, `SourceQuirk` at most `n` and none for a horizontal or vertical
segment. -/
def Obligations.LineProperties : Prop :=
  ∀ (l : Segment) (n : Nat), n = max (l.x1 - l.x0).natAbs (l.y1 - l.y0).natAbs →
    (∀ mode, (∀ p ∈ linePoints mode l, min l.x0 l.x1 ≤ p.1 ∧ p.1 ≤ max l.x0 l.x1 ∧
        min l.y0 l.y1 ≤ p.2 ∧ p.2 ≤ max l.y0 l.y1) ∧
      (∀ (k : Nat) (p q : Int × Int), (linePoints mode l)[k]? = some p →
        (linePoints mode l)[k + 1]? = some q →
        (q.1 - p.1).natAbs ≤ 1 ∧ (q.2 - p.2).natAbs ≤ 1)) ∧
    ((linePoints .inclusive l).length = n + 1 ∧
      (linePoints .inclusive l).head? = some (l.x0, l.y0) ∧
      (linePoints .inclusive l).getLast? = some (l.x1, l.y1)) ∧
    linePoints .exclusive l = (linePoints .inclusive l).take n ∧
    ((linePoints .sourceQuirk l).length ≤ n ∧
      (l.x0 = l.x1 ∨ l.y0 = l.y1 → linePoints .sourceQuirk l = [])) ∧
    (∀ k, l.passes ≤ k → l.walkInclusive k l.start = linePoints .inclusive l ∧
      l.walkExclusive k l.start = linePoints .exclusive l ∧
      l.walkQuirk k l.start = linePoints .sourceQuirk l)

/-- FB_DRAW_CIRCLE and FB_DRAW_FILLED_CIRCLE draw exactly the points of their walk, and for a negative
radius the two points of R192 and R193 (R191 to R193). -/
def Obligations.CircleDrawsItsWalk : Prop :=
  ∀ (s : State) (c : Colour) (filled : Bool), Memory.wf s.mem = true → s.fb.Wf →
    ∃ m, exec (if filled then .fbDrawFilledCircle c else .fbDrawCircle c) s = .next (s.drawn m) ∧
      DrawsExactly s.fb c
        (fun x y =>
          if 0 ≤ s.arg2.toInt
            then (x, y) ∈ circlePoints s.arg0.toInt s.arg1.toInt s.arg2.toInt filled
            else y = s.arg1.toInt ∧
              (x = s.arg0.toInt - s.arg2.toInt ∨ x = s.arg0.toInt + s.arg2.toInt)) s.mem m

/-- The circle properties of R194: the walk is unchanged by the reflections about its centre, the loop
body runs at most `2r + 1` times (a larger bound on the loop gives the same points), and the outline
and filled sets of radius 0 to 3 have R194's numbers of points. -/
def Obligations.CircleProperties : Prop :=
  (∀ (x y r : Int) (filled : Bool), 0 ≤ r →
    (∀ p ∈ circlePoints x y r filled, (2 * x - p.1, p.2) ∈ circlePoints x y r filled ∧
      (p.1, 2 * y - p.2) ∈ circlePoints x y r filled) ∧
    (∀ n : Nat, 2 * r + 1 ≤ (n : Int) →
      circleLoop x y filled n { xp := -r, yp := 0, err := 2 - 2 * r } = circlePoints x y r filled)) ∧
  (∀ x y : Int,
    [0, 1, 2, 3].map (fun r => (circlePoints x y r false).toFinset.card) = [1, 4, 12, 16] ∧
    [0, 1, 2, 3].map (fun r => (circlePoints x y r true).toFinset.card) = [1, 5, 21, 37])

/-- FB_DRAW_CHAR draws exactly the set bits of its glyph, when the glyph's bitmap is outside the frame
(20_memory.md R87, 41 R180, R181). -/
def Obligations.CharDrawsGlyph : Prop :=
  ∀ (s : State) (c : Colour) (f : Font) (ch : Byte), Memory.wf s.mem = true → s.fb.Wf →
    f = { fh := (s.arg3.toNat : Int), fw := (s.arg4.toNat : Int), fbm := (s.arg5.toNat : Int) } →
    ch = s.arg2.setWidth 8 → glyphOutsideFrame s.fb f ch →
    ∃ m, exec (.fbDrawChar c) s = .next (s.drawn m) ∧
      DrawsExactly s.fb c (glyphPoint s.mem f ch s.arg0.toInt s.arg1.toInt) s.mem m

/-- FB_DRAW_STRING draws the glyphs of the bytes before the first 0x00, each FW pixels to the right of
the one before, when the string and its glyphs' bitmaps are outside the frame (20_memory.md R88,
41 R182). -/
def Obligations.StringDrawsGlyphs : Prop :=
  ∀ (s : State) (c : Colour) (f : Font) (n : Nat), Memory.wf s.mem = true → s.fb.Wf →
    f = { fh := (s.arg3.toNat : Int), fw := (s.arg4.toNat : Int), fbm := (s.arg5.toNat : Int) } →
    n < 65536 →
    (∀ k : Nat, k < n → memRead s.mem ((s.arg2.toNat : Int) + k) ≠ 0) →
    memRead s.mem ((s.arg2.toNat : Int) + n) = 0 →
    (∀ k : Nat, k ≤ n → ¬ frameByte s.fb (wrapAddr ((s.arg2.toNat : Int) + k))) →
    (∀ k : Nat, k < n → glyphOutsideFrame s.fb f (memRead s.mem ((s.arg2.toNat : Int) + k))) →
    ∃ m, exec (.fbDrawString c) s = .next (s.drawn m) ∧
      DrawsExactly s.fb c
        (fun x y => ∃ k : Nat, k < n ∧
          glyphPoint s.mem f (memRead s.mem ((s.arg2.toNat : Int) + k))
            (s.arg0.toInt + k * f.fw) s.arg1.toInt x y) s.mem m

/-! ### The controller -/

/-- The guard: from Sleeping only CTL_RESET is allowed, from Uninitialized only CTL_RESET and
CTL_INIT; any other controller operation the block has gives `InvalidState`, emits nothing and
changes STATUS alone; those allowed there never give it, whatever the handshake and the panel answer;
from Idle none does; and no framebuffer operation ever does (R344). -/
def Obligations.GuardGivesInvalidState : Prop :=
  (∀ (i : Instr) (s : State), i.allowed ≠ none → i.WellFormed s.cfg.variant = true →
    (s.fsm = .sleeping → i ≠ .ctlReset → exec i s = .next (s.failed .invalidState)) ∧
    (s.fsm = .uninitialized → i ≠ .ctlReset → i.isInit = false →
      exec i s = .next (s.failed .invalidState)) ∧
    (s.fsm = .idle ∨ (s.fsm = .sleeping ∧ i = .ctlReset) ∨
        (s.fsm = .uninitialized ∧ (i = .ctlReset ∨ i.isInit = true)) →
      ∀ t, exec i s = .next t → t.code ≠ .invalidState)) ∧
  (∀ (i : Instr) (s t : State), i.allowed = none → exec i s = .next t → t.code ≠ .invalidState)

/-- The transition table of R229: a state that is not allowed gives `InvalidState` and does not change;
from an allowed one, the state every event is emitted in, the state on `OK`, and the states after each
failure (R229, R232, R236); NOP and the framebuffer operations leave STATE alone. -/
def Obligations.ControllerTransitions : Prop :=
  ∀ (i : Instr) (s t : State), i.WellFormed s.cfg.variant = true → exec i s = .next t →
    (i.allowed = none → t.fsm = s.fsm) ∧
    (∀ allowed, i.allowed = some allowed → s.fsm ∉ allowed → t = s.failed .invalidState) ∧
    (∀ allowed, i.allowed = some allowed → s.fsm ∈ allowed →
      (∃ evs, t.trace = evs ++ s.trace ∧ ∀ e ∈ evs, e.fsm = i.stateRunning) ∧
      (t.code = .ok → t.fsm = i.stateOnOk) ∧
      (t.code = .invalidGeometry → t.fsm = .idle) ∧
      (t.code = .hardwareFault ∨ t.code = .hardwareInitFailure → t.fsm = .uninitialized))

/-- CTL_RESET completes from every stable state with the reset pulse alone, and no other operation
leaves Sleeping (R226, R235). -/
def Obligations.ResetPulsesPanel : Prop :=
  (∀ s : State, s.fsm.stable = true →
    exec .ctlReset s = .next (s.ended .uninitialized .uninitialized .ok
      [.pin .rst false, .delay s.cfg.resetMs, .pin .rst true, .delay s.cfg.resetMs])) ∧
  (∀ (i : Instr) (s t : State), s.fsm = .sleeping → i ≠ .ctlReset → exec i s = .next t →
    t.fsm = .sleeping)

/-- CTL_INIT on variant A, the handshake answering ok and the panel ready after `k` samples within the
limit: the exact events, and STATE left Idle (R236, 43 R271). -/
def Obligations.InitACompletes : Prop :=
  ∀ (s : State) (k : Nat), s.cfg.variant = .a → s.fsm = .uninitialized ∨ s.fsm = .idle →
    s.initIn.head? = some true → ReadyAfter s k →
    exec .ctlInitA s = .next (s.ended .uninitialized .idle .ok
      ([.hwInit true] ++ resetPulseEvents s.cfg
        ++ cmdEvents s.cfg.cmdA.boosterSoftStart ++ datsEvents s.cfg.dataA.booster
        ++ cmdEvents s.cfg.cmdA.powerOn ++ waitEvents s.cfg k
        ++ cmdEvents s.cfg.cmdA.panelSetting ++ datsEvents [s.cfg.dataA.panel]
        ++ cmdEvents s.cfg.cmdA.vcomAndDataInterval ++ datsEvents [s.cfg.dataA.vcom]
        ++ cmdEvents s.cfg.cmdA.resolutionSetting
        ++ datsEvents [s.cfg.panelW.extractLsb' 0 8, s.cfg.panelH.extractLsb' 8 8,
            s.cfg.panelH.extractLsb' 0 8]))

/-- CTL_INIT on variant B, the handshake answering ok: the exact events with the selected table, which
LUT_CUR then holds, and STATE left Idle; no wait occurs (R236, 44 R301, R302). -/
def Obligations.InitBCompletes : Prop :=
  ∀ (s : State) (sel : LutSel), s.cfg.variant = .b → s.fsm = .uninitialized ∨ s.fsm = .idle →
    s.initIn.head? = some true →
    ∃ L : Lut, (sel = .presetFull → L = s.cfg.lutFull) ∧ (sel = .presetPartial → L = s.cfg.lutPartial) ∧
      (sel = .custom → ∀ (k : Nat) (_ : k < 30), L[k] = memRead s.mem ((s.arg0.toNat : Int) + k)) ∧
      exec (.ctlInitB sel) s = .next { s.ended .uninitialized .idle .ok
        ([.hwInit true] ++ resetPulseEvents s.cfg
          ++ cmdEvents s.cfg.cmdB.driverOutputControl
          ++ datsEvents [lo8 (s.cfg.panelH.toNat - 1), hi8 (s.cfg.panelH.toNat - 1),
              s.cfg.dataB.scanFlags]
          ++ cmdEvents s.cfg.cmdB.boosterSoftStartControl ++ datsEvents s.cfg.dataB.booster
          ++ cmdEvents s.cfg.cmdB.writeVcomRegister ++ datsEvents [s.cfg.dataB.vcom]
          ++ cmdEvents s.cfg.cmdB.dummyLinePeriod ++ datsEvents [s.cfg.dataB.dummy]
          ++ cmdEvents s.cfg.cmdB.gateTime ++ datsEvents [s.cfg.dataB.gate]
          ++ cmdEvents s.cfg.cmdB.dataEntryMode ++ datsEvents [s.cfg.dataB.entry]
          ++ cmdEvents s.cfg.cmdB.writeLutRegister ++ datsEvents L.toList) with lut := L }

/-- CTL_INIT whose handshake answers fail: the one event, `HardwareInitFailure` and STATE
Uninitialized; and nothing else raises `HardwareInitFailure` (R227, R348). -/
def Obligations.InitFailureStaysUninitialized : Prop :=
  (∀ (i : Instr) (s : State), i.isInit = true → i.WellFormed s.cfg.variant = true →
    s.fsm = .uninitialized ∨ s.fsm = .idle → s.initIn.head? = some false →
    exec i s = .next (s.ended .uninitialized .uninitialized .hardwareInitFailure [.hwInit false])) ∧
  (∀ (i : Instr) (s t : State), exec i s = .next t → t.code = .hardwareInitFailure →
    i.isInit = true ∧ t.fsm = .uninitialized ∧
      t.trace = ⟨.uninitialized, .hwInit false⟩ :: s.trace)

/-- CTL_DISPLAY_FRAME: `InvalidState` alone outside Idle; from Idle the exact commands, emitted while
Refreshing. The panel ready after `k` samples within the limit: STATE Idle after (R237, R275, R311). A
panel not ready at any sample: `WAIT_MAX_POLLS + 1` samples with the delays between them,
`HardwareFault` and STATE Uninitialized (R225, R232). -/
def Obligations.DisplayFrameCompletes : Prop :=
  ∀ (s : State) (head : List Event),
    head = (match s.cfg.variant with
      | .a => cmdEvents s.cfg.cmdA.displayRefresh
      | .b => cmdEvents s.cfg.cmdB.displayUpdateControl2 ++ datsEvents [s.cfg.dataB.update]
          ++ cmdEvents s.cfg.cmdB.masterActivation
          ++ cmdEvents s.cfg.cmdB.terminateFrameReadWrite) →
    (s.fsm ≠ .idle → exec .ctlDisplayFrame s = .next (s.failed .invalidState)) ∧
    (s.fsm = .idle → ∀ k, ReadyAfter s k → exec .ctlDisplayFrame s =
      .next (s.ended .refreshing .idle .ok (head ++ waitEvents s.cfg k))) ∧
    (s.fsm = .idle → NeverReady s → exec .ctlDisplayFrame s =
      .next (s.ended .refreshing .uninitialized .hardwareFault (head ++ timeoutEvents s.cfg)))

/-- CTL_SLEEP: `InvalidState` alone outside Idle; from Idle, the panel ready after `k` samples within the
limit, the exact events and STATE Sleeping after; a panel not ready at any sample: `HardwareFault`,
STATE Uninitialized, and nothing sent after the wait (R238, R276, R312). -/
def Obligations.SleepCompletes : Prop :=
  ∀ (s : State) (head rest : List Event),
    head = (match s.cfg.variant with
      | .a => cmdEvents s.cfg.cmdA.powerOff
      | .b => cmdEvents s.cfg.cmdB.deepSleepMode) →
    rest = (match s.cfg.variant with
      | .a => cmdEvents s.cfg.cmdA.deepSleep ++ datsEvents [s.cfg.dataA.deepSleepKey]
      | .b => []) →
    (s.fsm ≠ .idle → exec .ctlSleep s = .next (s.failed .invalidState)) ∧
    (s.fsm = .idle → ∀ k, ReadyAfter s k → exec .ctlSleep s =
      .next (s.ended .idle .sleeping .ok (head ++ waitEvents s.cfg k ++ rest))) ∧
    (s.fsm = .idle → NeverReady s → exec .ctlSleep s =
      .next (s.ended .idle .uninitialized .hardwareFault (head ++ timeoutEvents s.cfg)))

/-- CTL_CLEAR_FRAME_MEMORY: `InvalidState` alone outside Idle. From Idle on variant A: both planes filled
with the low byte of ARG0, with no wait (R239, 43 R277). From Idle on variant B: the full area, then every
row filled with that byte, the panel ready after `k j` samples within the limit at row `j`'s wait; and
where it is never ready at row `n`'s, the rows before it, its pointer and the samples, `HardwareFault` and
STATE Uninitialized (R239, 44 R310). -/
def Obligations.ClearFrameMemoryCompletes : Prop :=
  ∀ s : State,
    (s.fsm ≠ .idle → exec .ctlClearFrameMemory s = .next (s.failed .invalidState)) ∧
    (∀ plane : Byte → List Event, s.fsm = .idle → s.cfg.variant = .a →
      (∀ b, plane b = cmdEvents b ++ settleEvents s.cfg
        ++ datsEvents (List.replicate ((s.cfg.panelW.toNat + 7) / 8 * s.cfg.panelH.toNat)
            (s.arg0.setWidth 8))
        ++ settleEvents s.cfg) →
      exec .ctlClearFrameMemory s = .next (s.ended .writing .idle .ok
        (plane s.cfg.cmdA.dataStartTransmission1 ++ plane s.cfg.cmdA.dataStartTransmission2))) ∧
    (∀ (k : Nat → Nat) (rows : Nat → List Event), s.fsm = .idle → s.cfg.variant = .b →
      (∀ n, rows n =
        areaEvents s.cfg 0 ((s.cfg.panelW.toNat + 7) / 8 - 1) 0 (s.cfg.panelH.toNat - 1)
          ++ (List.range n).flatMap fun j : Nat =>
              rowEvents s.cfg 0 j (k j)
                (List.replicate ((s.cfg.panelW.toNat + 7) / 8) (s.arg0.setWidth 8))) →
      (ReadyEach s s.cfg.panelH.toNat k →
        exec .ctlClearFrameMemory s = .next (s.ended .writing .idle .ok (rows s.cfg.panelH.toNat))) ∧
      (∀ n, n < s.cfg.panelH.toNat → ReadyThenNever s n k →
        exec .ctlClearFrameMemory s = .next (s.ended .writing .uninitialized .hardwareFault
          (rows n ++ pointerEvents s.cfg 0 n ++ timeoutEvents s.cfg))))

/-- The window clip keeps exactly the byte columns and rows of the request that are on the panel, and
indexes the source buffer with the unclipped stride (R233). On a variant A block the X bytes of the
window are its X coordinates: none is cut short (43 R270, R274). -/
def Obligations.ClipKeepsVisiblePart : Prop :=
  ∀ (cfg : Config) (x y w h : Int) (visible : Int → Int → Prop),
    (∀ c j, visible c j ↔
      0 ≤ c ∧ c < ((cfg.panelW.toNat + 7) / 8 : Nat) ∧ 0 ≤ j ∧ j < (cfg.panelH.toNat : Int) ∧
        x / 8 ≤ c ∧ c < x / 8 + w / 8 ∧ y ≤ j ∧ j < y + h) →
    (clip cfg x y w h = none ↔ ∀ c j, ¬ visible c j) ∧
    (∀ win, clip cfg x y w h = some win →
      (∀ c j, (win.cb0 ≤ c ∧ c ≤ win.cb1 ∧ win.cy0 ≤ j ∧ j ≤ win.cy1) ↔ visible c j) ∧
      (∀ buf c j, win.src buf c j = buf + (c - x / 8) + (j - y) * (w / 8)) ∧
      (cfg.Wf → cfg.variant = .a → ((lo8 (win.cb0 * 8)).toNat : Int) = win.cb0 * 8 ∧
        ((lo8 (win.cb1 * 8 + 7)).toNat : Int) = win.cb1 * 8 + 7))

/-- A_SET_PARTIAL_WINDOW and A_SET_PARTIAL_WINDOW_BLACK: `InvalidState` alone outside Idle; nothing and
`OK` where the window clips to nothing; else the exact events, emitted in PartialMode, with the bytes
of each plane or zeros where its buffer is absent (R272, R273, R274). -/
def Obligations.PartialWindowsComplete : Prop :=
  ∀ (s : State) (black red : Bool) (req : Option Window), s.cfg.variant = .a →
    req = clip s.cfg s.arg2.toInt s.arg3.toInt s.arg4.toInt s.arg5.toInt →
    (s.fsm ≠ .idle → exec (.aSetPartialWindow black red) s = .next (s.failed .invalidState) ∧
      exec (.aSetPartialWindowBlack black) s = .next (s.failed .invalidState)) ∧
    (s.fsm = .idle → req = none →
      exec (.aSetPartialWindow black red) s = .next { s with code := .ok, opbusy := false } ∧
      exec (.aSetPartialWindowBlack black) s = .next { s with code := .ok, opbusy := false }) ∧
    (∀ (win : Window) (plane : Int → Bool → List Event) (head : List Event),
      s.fsm = .idle → req = some win →
      (∀ buf has, plane buf has = (intRange win.cy0 win.cy1).flatMap (fun j =>
        datsEvents ((intRange win.cb0 win.cb1).map fun c =>
          if has then memRead s.mem (win.src buf c j) else 0x00)) ++ settleEvents s.cfg) →
      head = cmdEvents s.cfg.cmdA.partialIn ++ cmdEvents s.cfg.cmdA.partialWindow
        ++ datsEvents [lo8 (win.cb0 * 8), lo8 (win.cb1 * 8 + 7), hi8 win.cy0, lo8 win.cy0,
            hi8 win.cy1, lo8 win.cy1, s.cfg.dataA.ptScan]
        ++ settleEvents s.cfg
        ++ cmdEvents s.cfg.cmdA.dataStartTransmission1 ++ plane s.arg0.toNat black →
      exec (.aSetPartialWindow black red) s = .next (s.ended .partialMode .idle .ok
        (head ++ cmdEvents s.cfg.cmdA.dataStartTransmission2 ++ plane s.arg1.toNat red
          ++ cmdEvents s.cfg.cmdA.partialOut)) ∧
      exec (.aSetPartialWindowBlack black) s = .next (s.ended .partialMode .idle .ok
        (head ++ cmdEvents s.cfg.cmdA.partialOut)))

/-- B_SET_LUT: `InvalidState` alone outside Idle; from Idle the selected table is sent and LUT_CUR then
holds it, STATE staying Idle (R302, R303). -/
def Obligations.SetLutUploads : Prop :=
  ∀ (s : State) (sel : LutSel), s.cfg.variant = .b →
    (s.fsm ≠ .idle → exec (.bSetLut sel) s = .next (s.failed .invalidState)) ∧
    (s.fsm = .idle → ∃ L : Lut,
      (sel = .presetFull → L = s.cfg.lutFull) ∧ (sel = .presetPartial → L = s.cfg.lutPartial) ∧
      (sel = .custom → ∀ (k : Nat) (_ : k < 30), L[k] = memRead s.mem ((s.arg0.toNat : Int) + k)) ∧
      exec (.bSetLut sel) s = .next { s.ended .idle .idle .ok
        (cmdEvents s.cfg.cmdB.writeLutRegister ++ datsEvents L.toList) with lut := L })

/-- B_SET_MEMORY_AREA: `InvalidState` alone outside Idle; from Idle the area where both corners are on
the panel, and else `InvalidGeometry` with no event (R304, R305). -/
def Obligations.SetMemoryAreaChecksBounds : Prop :=
  ∀ (s : State) (x0 y0 x1 y1 W H : Int), s.cfg.variant = .b →
    x0 = s.arg0.toInt → y0 = s.arg1.toInt → x1 = s.arg2.toInt → y1 = s.arg3.toInt →
    W = (s.cfg.panelW.toNat : Int) → H = (s.cfg.panelH.toNat : Int) →
    exec .bSetMemoryArea s = .next
      (if s.fsm ≠ .idle then s.failed .invalidState
        else if 0 ≤ x0 ∧ x0 < W ∧ 0 ≤ x1 ∧ x1 < W ∧ 0 ≤ y0 ∧ y0 < H ∧ 0 ≤ y1 ∧ y1 < H
        then s.ended .idle .idle .ok (areaEvents s.cfg (x0 / 8) (x1 / 8) y0 y1)
        else s.failed .invalidGeometry)

/-- B_SET_MEMORY_POINTER: `InvalidState` alone outside Idle; `InvalidGeometry` with no event where the
point is off the panel; else the pointer is sent and the wait follows: `OK` when the panel is ready
after `k` samples within the limit, `HardwareFault` and STATE Uninitialized when it is ready at none
(R306, R307). -/
def Obligations.SetMemoryPointerWaits : Prop :=
  ∀ (s : State) (x y W H : Int), s.cfg.variant = .b →
    x = s.arg0.toInt → y = s.arg1.toInt →
    W = (s.cfg.panelW.toNat : Int) → H = (s.cfg.panelH.toNat : Int) →
    (s.fsm ≠ .idle → exec .bSetMemoryPointer s = .next (s.failed .invalidState)) ∧
    (s.fsm = .idle → ¬ (0 ≤ x ∧ x < W ∧ 0 ≤ y ∧ y < H) →
      exec .bSetMemoryPointer s = .next (s.failed .invalidGeometry)) ∧
    (s.fsm = .idle → 0 ≤ x ∧ x < W ∧ 0 ≤ y ∧ y < H →
      (∀ k, ReadyAfter s k → exec .bSetMemoryPointer s = .next (s.ended .idle .idle .ok
        (pointerEvents s.cfg (x / 8) y ++ waitEvents s.cfg k))) ∧
      (NeverReady s → exec .bSetMemoryPointer s = .next (s.ended .idle .uninitialized .hardwareFault
          (pointerEvents s.cfg (x / 8) y ++ timeoutEvents s.cfg))))

/-- B_SET_FRAME_MEMORY_AT: nothing and `OK` where the window clips to nothing; else, the panel ready
after `k j` samples within the limit at the wait of the `j`th visible row, the clipped area and each
visible row's bytes, taken from the buffer with the unclipped stride (R308, R385). -/
def Obligations.SetFrameMemoryAtCompletes : Prop :=
  ∀ s : State, s.cfg.variant = .b → s.fsm = .idle →
    ∀ req, req = clip s.cfg s.arg1.toInt s.arg2.toInt s.arg3.toInt s.arg4.toInt →
    (req = none → exec .bSetFrameMemoryAt s = .next { s with code := .ok, opbusy := false }) ∧
    (∀ (win : Window) (k : Nat → Nat), req = some win →
        ReadyEach s (win.cy1 - win.cy0 + 1).toNat k →
      exec .bSetFrameMemoryAt s = .next (s.ended .writing .idle .ok
        (areaEvents s.cfg win.cb0 win.cb1 win.cy0 win.cy1
          ++ (intRange win.cy0 win.cy1).flatMap fun j =>
              rowEvents s.cfg win.cb0 j (k (j - win.cy0).toNat) ((intRange win.cb0 win.cb1).map fun c =>
                memRead s.mem (win.src s.arg0.toNat c j)))))

/-- B_SET_FRAME_MEMORY, the panel ready after `k j` samples within the limit at row `j`'s wait: the full
area, then row `j`'s bytes from `buf + j * RB` (R309, R385). -/
def Obligations.SetFrameMemoryCompletes : Prop :=
  ∀ (s : State) (rb : Nat) (k : Nat → Nat), s.cfg.variant = .b → s.fsm = .idle →
    rb = (s.cfg.panelW.toNat + 7) / 8 → ReadyEach s s.cfg.panelH.toNat k →
    exec .bSetFrameMemory s = .next (s.ended .writing .idle .ok
      (areaEvents s.cfg 0 (rb - 1) 0 (s.cfg.panelH.toNat - 1)
        ++ (List.range s.cfg.panelH.toNat).flatMap fun j : Nat =>
            rowEvents s.cfg 0 j (k j) ((List.range rb).map fun c =>
              memRead s.mem ((s.arg0.toNat : Int) + c + j * rb))))

/-- B_SET_FRAME_MEMORY is B_SET_FRAME_MEMORY_AT of the whole panel, byte for byte (R309): the same
events and the same state after, whatever the panel answers. -/
def Obligations.FullFrameIsWholeWindow : Prop :=
  ∀ (s : State) (rb : Nat), s.cfg.variant = .b → rb = (s.cfg.panelW.toNat + 7) / 8 →
    0 < s.cfg.panelW.toNat → 0 < s.cfg.panelH.toNat →
    s.arg1.toInt = 0 → s.arg2.toInt = 0 → s.arg3.toInt = 8 * (rb : Int) →
    s.arg4.toInt = (s.cfg.panelH.toNat : Int) →
    exec .bSetFrameMemoryAt s = exec .bSetFrameMemory s

/-- `HardwareFault` is raised only by a wait that timed out, after `WAIT_MAX_POLLS * POLL_MS` ms of its
delays; STATE is Uninitialized, the events before it stand and nothing is emitted after it (R232,
R347). -/
def Obligations.FaultEndsAtTimedOutWait : Prop :=
  (∀ (i : Instr) (s t : State), exec i s = .next t → t.code = .hardwareFault →
    t.fsm = .uninitialized ∧
    ∃ before, t.trace.map Traced.event =
      (before ++ timeoutEvents s.cfg).reverse ++ s.trace.map Traced.event) ∧
  (∀ cfg : Config, delayTotal (timeoutEvents cfg) = cfg.waitMaxPolls * cfg.pollMs)

/-- The delay totals of R390's table, the panel being ready at every sample (no operation takes more
than `PANEL_H + 1` of them). -/
def Obligations.DelayTotals : Prop :=
  ∀ (i : Instr) (s t : State), i.WellFormed s.cfg.variant = true → ReadyFor s (s.cfg.panelH.toNat + 1) →
    exec i s = .next t → t.code = .ok →
    ∃ evs, t.trace.map Traced.event = evs.reverse ++ s.trace.map Traced.event ∧
      (match i with
        | .ctlReset | .ctlInitA | .ctlInitB _ => delayTotal evs = 2 * s.cfg.resetMs
        | .aSetPartialWindow _ _ => evs = [] ∨ delayTotal evs = 3 * s.cfg.settleMs
        | .aSetPartialWindowBlack _ => evs = [] ∨ delayTotal evs = 2 * s.cfg.settleMs
        | .ctlClearFrameMemory =>
          delayTotal evs = if s.cfg.variant = .a then 4 * s.cfg.settleMs else 0
        | _ => delayTotal evs = 0)

/-! ### Invariants of the step -/

/-- Every operation's events keep the transfer protocol: one `Xfer` in each pair of CS edges, DC driven
just before CS falls, no edge left open; and PINS follows the events (42 R241, 10_state.md R44). -/
def Obligations.EventsKeepPortProtocol : Prop :=
  ∀ (i : Instr) (s t : State), exec i s = .next t →
    ∃ evs, t.trace.map Traced.event = evs.reverse ++ s.trace.map Traced.event ∧
      portRun .between evs = some .between ∧ t.pins = pinsAfter s.pins evs ∧
      (s.pins.AtRest = true → t.pins.AtRest = true)

/-- Every step keeps the invariant of the block: parameters a block can have, canonical DMEM, R43, a
stable STATE, CS and RST high, and LUT_CUR at reset on variant A. -/
def Obligations.StepKeepsInv : Prop :=
  ∀ s t : State, s.Inv → step s = .next t → t.Inv

/-- The invariant holds after reset, for every launch memory in canonical form and all parameters a block
can have (R270). -/
def Obligations.ResetMeetsInv : Prop :=
  State.reset.Inv ∧
    ∀ (cfg : Config) (m : Memory), cfg.Wf → Memory.wf m = true → (State.resetWith cfg m).Inv

/-- Every step keeps the framebuffer invariant (R43). -/
def Obligations.StepKeepsFramebufferInvariant : Prop :=
  ∀ s t : State, s.fb.Wf → step s = .next t → t.fb.Wf

/-- No step changes the parameters, so ID, PANEL_W and PANEL_H never change. A step that changes LUT_CUR is
a block reset, which takes it to its reset value, or the run on variant B of a CTL_INIT or B_SET_LUT that
finishes `OK`, its last events the upload of the table LUT_CUR then holds (R6, R36, R37, R45, R302). -/
def Obligations.ParametersAndLutAreKept : Prop :=
  ∀ s t : State, step s = .next t → t.cfg = s.cfg ∧
    (t.lut = s.lut ∨
      (t.lut = Lut.reset ∧ ∃ k r, s.host = .blockReset k :: r) ∨
      (s.cfg.variant = .b ∧ s.opbusy = true ∧ t.code = .ok ∧
        (∃ sel, decode .b s.cmd = .ok (.ctlInitB sel) ∨ decode .b s.cmd = .ok (.bSetLut sel)) ∧
        ∃ before, t.trace.map Traced.event =
          (before ++ cmdEvents s.cfg.cmdB.writeLutRegister ++ datsEvents t.lut.toList).reverse
            ++ s.trace.map Traced.event))
end

