-- ==== Sys2Proof/Laws/Memory.lean ====
section
/-! SUPPORT. DMEM: every operation keeps the canonical form, a read after a write, and two canonical
memories that read alike are equal. -/

namespace Sys2Proof.Machine

theorem wfFrom_mono {lo lo' : Nat} (h : lo' ≤ lo) :
    ∀ {m : Memory}, Memory.wfFrom lo m = true → Memory.wfFrom lo' m = true
  | [], _ => rfl
  | (k, v) :: r, hm => by
    simp only [Memory.wfFrom, Bool.and_eq_true, decide_eq_true_eq] at hm ⊢
    exact ⟨⟨⟨by omega, hm.1.1.2⟩, hm.1.2⟩, hm.2⟩

/-- Below the bound of its canonical form a memory lists nothing. -/
theorem read_below {lo a : Nat} (h : a < lo) :
    ∀ {m : Memory}, Memory.wfFrom lo m = true → Memory.read m a = Memory.unlisted
  | [], _ => rfl
  | (k, v) :: r, hm => by
    simp only [Memory.wfFrom, Bool.and_eq_true, decide_eq_true_eq] at hm
    have hk : k ≠ a := by omega
    simp only [Memory.read, if_neg hk]
    exact read_below (lo := k + 1) (by omega) hm.2

theorem write_wfFrom {lo a : Nat} {v : Byte} (hlo : lo ≤ a) (ha : a < 65536) :
    ∀ {m : Memory}, Memory.wfFrom lo m = true → Memory.wfFrom lo (Memory.write m a v) = true
  | [], _ => by
    unfold Memory.write
    split
    · rfl
    · simp_all [Memory.wfFrom]
  | (k, w) :: r, hm => by
    simp only [Memory.wfFrom, Bool.and_eq_true, decide_eq_true_eq] at hm
    obtain ⟨⟨⟨h1, h2⟩, h3⟩, h4⟩ := hm
    unfold Memory.write
    split
    · simp only [Memory.wfFrom, Bool.and_eq_true, decide_eq_true_eq]
      exact ⟨⟨⟨h1, h2⟩, h3⟩, write_wfFrom (by omega) ha h4⟩
    · split
      · subst a
        split
        · exact wfFrom_mono (by omega) h4
        · simp only [Memory.wfFrom, Bool.and_eq_true, decide_eq_true_eq]
          exact ⟨⟨⟨hlo, ha⟩, by assumption⟩, h4⟩
      · split
        · simp only [Memory.wfFrom, Bool.and_eq_true, decide_eq_true_eq]
          exact ⟨⟨⟨h1, h2⟩, h3⟩, h4⟩
        · simp only [Memory.wfFrom, Bool.and_eq_true, decide_eq_true_eq]
          exact ⟨⟨⟨hlo, ha⟩, by assumption⟩, ⟨⟨by omega, h2⟩, h3⟩, h4⟩

/-- A write keeps the canonical form. -/
theorem write_wf {m : Memory} {a : Nat} {v : Byte} (hm : Memory.wf m = true) (ha : a < 65536) :
    Memory.wf (Memory.write m a v) = true := write_wfFrom (Nat.zero_le a) ha hm

theorem read_write_from {lo a : Nat} {v : Byte} (b : Nat) :
    ∀ {m : Memory}, Memory.wfFrom lo m = true →
      Memory.read (Memory.write m a v) b = if b = a then v else Memory.read m b
  | [], _ => by
    unfold Memory.write
    split
    · subst v; simp [Memory.read]
    · simp only [Memory.read]
      by_cases h : b = a
      · simp [h]
      · simp [h, Ne.symm h]
  | (k, w) :: r, hm => by
    simp only [Memory.wfFrom, Bool.and_eq_true, decide_eq_true_eq] at hm
    obtain ⟨⟨⟨h1, h2⟩, h3⟩, h4⟩ := hm
    unfold Memory.write
    split
    · simp only [Memory.read]
      by_cases hb : k = b
      · have : b ≠ a := by omega
        simp [hb, this]
      · simp only [if_neg hb]
        exact read_write_from b h4
    · split
      · subst a
        by_cases hb : b = k
        · subst hb
          split
          · subst v
            simp [read_below (Nat.lt_succ_self b) h4]
          · simp [Memory.read]
        · split <;> simp [Memory.read, Ne.symm hb]
      · have hka : a < k := by omega
        by_cases hb : b = a
        · subst hb
          have hkb : k ≠ b := by omega
          split
          · subst v
            simp [Memory.read, hkb, read_below (lo := k + 1) (a := b) (by omega) h4]
          · simp [Memory.read]
        · split <;> simp [Memory.read, Ne.symm hb]

/-- What a byte reads as after a write: the value at the address written, the old byte elsewhere. -/
theorem read_write {m : Memory} (hm : Memory.wf m = true) (a b : Nat) (v : Byte) :
    Memory.read (Memory.write m a v) b = if b = a then v else Memory.read m b :=
  read_write_from b hm

theorem wrapAddr_lt (a : Int) : wrapAddr a < 65536 := by
  unfold wrapAddr; omega

theorem wrapAddr_of_range {a : Int} (h0 : 0 ≤ a) (h1 : a < 65536) : (wrapAddr a : Int) = a := by
  unfold wrapAddr; omega

/-- `MemWrite` keeps the canonical form. -/
theorem memWrite_wf {m : Memory} (hm : Memory.wf m = true) (a : Int) (v : Byte) :
    Memory.wf (memWrite m a v) = true := write_wf hm (wrapAddr_lt a)

/-- `MemRead` after `MemWrite`. -/
theorem memRead_memWrite {m : Memory} (hm : Memory.wf m = true) (a b : Int) (v : Byte) :
    memRead (memWrite m a v) b = if wrapAddr b = wrapAddr a then v else memRead m b :=
  read_write hm _ _ _

theorem eq_of_read_from {lo : Nat} :
    ∀ {m m' : Memory}, Memory.wfFrom lo m = true → Memory.wfFrom lo m' = true →
      (∀ a, Memory.read m a = Memory.read m' a) → m = m'
  | [], [], _, _, _ => rfl
  | [], (k, v) :: r, _, h', h => by
    simp only [Memory.wfFrom, Bool.and_eq_true, decide_eq_true_eq] at h'
    have := h k
    simp [Memory.read] at this
    exact absurd this.symm h'.1.2
  | (k, v) :: r, [], h', _, h => by
    simp only [Memory.wfFrom, Bool.and_eq_true, decide_eq_true_eq] at h'
    have := h k
    simp [Memory.read] at this
    exact absurd this h'.1.2
  | (k, v) :: r, (k', v') :: r', h1, h2, h => by
    simp only [Memory.wfFrom, Bool.and_eq_true, decide_eq_true_eq] at h1 h2
    have hk : k = k' := by
      rcases Nat.lt_trichotomy k k' with hlt | heq | hlt
      · have := h k
        simp only [Memory.read, if_neg (show k' ≠ k by omega), if_true] at this
        rw [read_below (lo := k' + 1) (by omega) h2.2] at this
        exact absurd this h1.1.2
      · exact heq
      · have := h k'
        simp only [Memory.read, if_neg (show k ≠ k' by omega), if_true] at this
        rw [read_below (lo := k + 1) (by omega) h1.2] at this
        exact absurd this.symm h2.1.2
    subst hk
    have hv : v = v' := by have := h k; simpa [Memory.read] using this
    subst hv
    have : r = r' := by
      refine eq_of_read_from h1.2 h2.2 fun a => ?_
      by_cases ha : k = a
      · subst ha
        rw [read_below (Nat.lt_succ_self k) h1.2, read_below (Nat.lt_succ_self k) h2.2]
      · have := h a
        simpa [Memory.read, ha] using this
    rw [this]

/-- Two canonical memories that read alike at every address are equal. -/
theorem eq_of_read {m m' : Memory} (h : Memory.wf m = true) (h' : Memory.wf m' = true)
    (hr : ∀ a, Memory.read m a = Memory.read m' a) : m = m' := eq_of_read_from h h' hr

end Sys2Proof.Machine
end

