-- ==== Sys2Proof/Laws/Pixel.lean ====
section
/-! SUPPORT. What the pixel primitives do to memory: the pixel written, the pixels and bytes left alone,
and how drawing composes (40_framebuffer.md R147, R149). -/

namespace Sys2Proof.Machine

theorem u16_eq (w : Word) : u16 w = (w.toNat : Int) := rfl

theorem u16_nonneg (w : Word) : 0 ≤ u16 w := by simp [u16]

/-- The facts of R43 a pixel proof needs, in integers: the width is `8 * k`. -/
theorem FbRegs.Wf.geometry {fb : FbRegs} (h : fb.Wf) {x y : Int} (hf : inFrame fb x y) :
    ∃ k : Int, u16 fb.width = 8 * k ∧ 0 < k ∧ u16 fb.width * u16 fb.height / 8 = k * u16 fb.height ∧
      0 ≤ u16 fb.base ∧ u16 fb.base + k * u16 fb.height ≤ 65536 := by
  obtain ⟨h8, h⟩ := h
  obtain ⟨hx0, hx1, hy0, hy1⟩ := hf
  simp only [u16_eq] at *
  obtain ⟨k, hk⟩ : ∃ k : Nat, fb.width.toNat = 8 * k := ⟨fb.width.toNat / 8, by omega⟩
  have hkh : fb.width.toNat * fb.height.toNat / 8 = k * fb.height.toNat := by
    rw [hk, Nat.mul_assoc, Nat.mul_div_cancel_left _ (by decide)]
  refine ⟨(k : Int), by omega, by omega, ?_, by omega, ?_⟩
  · have : ((fb.width.toNat * fb.height.toNat / 8 : Nat) : Int) = ((k * fb.height.toNat : Nat) : Int) := by
      rw [hkh]
    push_cast at this
    exact this
  · rcases h with ⟨_, hw, _⟩ | ⟨_, _, _, hc, hb⟩
    · rw [hw] at hx1; simp at hx1; omega
    · rw [hkh] at hc
      have : ((k * fb.height.toNat : Nat) : Int) ≤ (fb.cap.toNat : Int) := by exact_mod_cast hc
      push_cast at this
      omega

/-- The byte index of a pixel of the frame, and that it stays inside the frame (R74). -/
theorem pixel_index {fb : FbRegs} (h : fb.Wf) {x y : Int} (hf : inFrame fb x y) :
    ∃ k : Int, u16 fb.width = 8 * k ∧ 0 < k ∧
      (x + y * u16 fb.width) / 8 = y * k + x / 8 ∧ 0 ≤ x / 8 ∧ x / 8 < k ∧
      0 ≤ y * k + x / 8 ∧ y * k + x / 8 < k * u16 fb.height ∧
      u16 fb.width * u16 fb.height / 8 = k * u16 fb.height ∧
      0 ≤ u16 fb.base ∧ u16 fb.base + k * u16 fb.height ≤ 65536 := by
  obtain ⟨k, hw, hk, hkh, hb0, hb1⟩ := h.geometry hf
  obtain ⟨hx0, hx1, hy0, hy1⟩ := hf
  have hidx : (x + y * u16 fb.width) / 8 = y * k + x / 8 := by
    have : x + y * (8 * k) = x + 8 * (y * k) := by ring
    rw [hw, this, Int.add_mul_ediv_left _ _ (by decide)]; ring
  have hxk : x / 8 < k := by omega
  have hyk : 0 ≤ y * k := by positivity
  have hlt : y * k + x / 8 < k * u16 fb.height := by
    have : (y + 1) * k ≤ u16 fb.height * k := by
      apply mul_le_mul_of_nonneg_right <;> omega
    nlinarith
  exact ⟨k, hw, hk, hidx, by omega, hxk, by omega, hlt, hkh, hb0, hb1⟩

theorem pixel_mask_or (b : Byte) (p q : Nat) (hp : p < 8) (hq : q < 8) :
    (b ||| (0x80#8 >>> p)).getLsbD (7 - q) = if p = q then true else b.getLsbD (7 - q) := by
  interval_cases p <;> interval_cases q <;> simp

theorem pixel_mask_and (b : Byte) (p q : Nat) (hp : p < 8) (hq : q < 8) :
    (b &&& ~~~(0x80#8 >>> p)).getLsbD (7 - q) = if p = q then false else b.getLsbD (7 - q) := by
  interval_cases p <;> interval_cases q <;> simp

/-- `PutAbs` outside the frame does nothing. -/
theorem putAbs_outside {fb : FbRegs} {x y : Int} (h : ¬ inFrame fb x y) (c : Colour) (m : Memory) :
    putAbs fb x y c m = m := by
  unfold putAbs
  rw [if_pos]
  unfold inFrame at h
  omega

/-- `PutAbs` inside the frame is one read and one write of the pixel's byte. -/
theorem putAbs_inside {fb : FbRegs} {x y : Int} (h : inFrame fb x y) (c : Colour) (m : Memory) :
    putAbs fb x y c m =
      memWrite m (u16 fb.base + (x + y * u16 fb.width) / 8)
        (if setBitFor fb.inv c
          then memRead m (u16 fb.base + (x + y * u16 fb.width) / 8) ||| (0x80#8 >>> (x % 8).toNat)
          else memRead m (u16 fb.base + (x + y * u16 fb.width) / 8) &&& ~~~(0x80#8 >>> (x % 8).toNat)) := by
  unfold putAbs
  rw [if_neg]
  unfold inFrame at h
  omega

theorem putAbs_wf {m : Memory} (hm : Memory.wf m = true) (fb : FbRegs) (x y : Int) (c : Colour) :
    Memory.wf (putAbs fb x y c m) = true := by
  by_cases h : inFrame fb x y
  · rw [putAbs_inside h]; exact memWrite_wf hm _ _
  · rw [putAbs_outside h]; exact hm

/-- What every pixel of the frame shows after `PutAbs` (R147). -/
theorem putAbs_pixel {fb : FbRegs} (hfb : fb.Wf) {m : Memory} (hm : Memory.wf m = true) (x y : Int)
    (c : Colour) {u v : Int} (huv : inFrame fb u v) :
    pixelBit fb (putAbs fb x y c m) u v =
      if x = u ∧ y = v then setBitFor fb.inv c else pixelBit fb m u v := by
  by_cases h : inFrame fb x y
  · obtain ⟨k, hw, hk, hi, hx0, hxk, hi0, hi1, _, hb0, hb1⟩ := pixel_index hfb h
    obtain ⟨k', hw', _, hi', hu0, huk, hj0, hj1, _, _, _⟩ := pixel_index hfb huv
    obtain rfl : k' = k := by omega
    have hadr : (wrapAddr (u16 fb.base + (u + v * u16 fb.width) / 8) =
        wrapAddr (u16 fb.base + (x + y * u16 fb.width) / 8)) ↔ (y = v ∧ x / 8 = u / 8) := by
      have e1 := wrapAddr_of_range (a := u16 fb.base + (u + v * u16 fb.width) / 8)
        (by rw [hi']; omega) (by rw [hi']; omega)
      have e2 := wrapAddr_of_range (a := u16 fb.base + (x + y * u16 fb.width) / 8)
        (by rw [hi]; omega) (by rw [hi]; omega)
      constructor
      · intro he
        have : y * k' + x / 8 = v * k' + u / 8 := by
          have : ((wrapAddr (u16 fb.base + (u + v * u16 fb.width) / 8) : Nat) : Int) =
            (wrapAddr (u16 fb.base + (x + y * u16 fb.width) / 8) : Nat) := by rw [he]
          rw [e1, e2, hi, hi'] at this
          omega
        have hy : y = v := by
          have h1 : (y * k' + x / 8) / k' = y := by
            rw [add_comm, Int.add_mul_ediv_right _ _ (by omega), Int.ediv_eq_zero_of_lt hx0 hxk]; simp
          have h2 : (v * k' + u / 8) / k' = v := by
            rw [add_comm, Int.add_mul_ediv_right _ _ (by omega), Int.ediv_eq_zero_of_lt hu0 huk]; simp
          rw [← h1, this, h2]
        subst hy
        exact ⟨rfl, by omega⟩
      · rintro ⟨rfl, hxu⟩
        rw [hi, hi', hxu]
    rw [putAbs_inside h]
    unfold pixelBit
    rw [memRead_memWrite hm]
    by_cases hsame : y = v ∧ x / 8 = u / 8
    · rw [if_pos (hadr.2 hsame)]
      have haddr : (x + y * u16 fb.width) / 8 = (u + v * u16 fb.width) / 8 := by
        rw [hi, hi', hsame.1, hsame.2]
      rw [haddr]
      have hp : (x % 8).toNat < 8 := by omega
      have hq : (u % 8).toNat < 8 := by omega
      have hxu : (x % 8).toNat = (u % 8).toNat ↔ (x = u ∧ y = v) := by
        constructor
        · intro; exact ⟨by omega, hsame.1⟩
        · rintro ⟨rfl, _⟩; rfl
      cases hs : setBitFor fb.inv c
      · simp only [Bool.false_eq_true, if_false]
        rw [pixel_mask_and _ _ _ hp hq]
        simp only [hxu]
      · simp only [if_true]
        rw [pixel_mask_or _ _ _ hp hq]
        simp only [hxu]
    · rw [if_neg (fun he => hsame (hadr.1 he)), if_neg]
      rintro ⟨rfl, rfl⟩
      exact hsame ⟨rfl, rfl⟩
  · rw [putAbs_outside h, if_neg]
    rintro ⟨rfl, rfl⟩
    exact h huv

/-- `PutAbs` leaves every byte outside the frame alone. -/
theorem putAbs_frame {fb : FbRegs} (hfb : fb.Wf) {m : Memory} (hm : Memory.wf m = true) (x y : Int)
    (c : Colour) {a : Nat} (ha : ¬ frameByte fb a) :
    Memory.read (putAbs fb x y c m) a = Memory.read m a := by
  by_cases h : inFrame fb x y
  · obtain ⟨k, hw, hk, hi, hx0, hxk, hi0, hi1, hkh, hb0, hb1⟩ := pixel_index hfb h
    rw [putAbs_inside h]
    unfold memWrite
    rw [read_write hm, if_neg]
    rintro rfl
    apply ha
    have e := wrapAddr_of_range (a := u16 fb.base + (x + y * u16 fb.width) / 8)
      (by rw [hi]; omega) (by rw [hi]; omega)
    unfold frameByte
    rw [e, hi, hkh]
    omega
  · rw [putAbs_outside h]

/-! ### Exactly the points drawn -/

theorem DrawsExactly.refl (fb : FbRegs) (c : Colour) (m : Memory) :
    DrawsExactly fb c (fun _ _ => False) m m :=
  ⟨fun _ _ _ => ⟨fun ⟨_, _, h, _⟩ => h.elim, fun _ => rfl⟩, fun _ _ => rfl⟩

theorem DrawsExactly.congr {fb : FbRegs} {c : Colour} {P Q : Int → Int → Prop} {m m' : Memory}
    (h : DrawsExactly fb c P m m') (e : ∀ x y, P x y ↔ Q x y) : DrawsExactly fb c Q m m' := by
  obtain rfl : P = Q := by funext x y; exact propext (e x y)
  exact h

/-- Drawing `P` and then `Q` draws exactly the points of either. -/
theorem DrawsExactly.trans {fb : FbRegs} {c : Colour} {P Q : Int → Int → Prop} {m m' m'' : Memory}
    (h : DrawsExactly fb c P m m') (k : DrawsExactly fb c Q m' m'') :
    DrawsExactly fb c (fun x y => P x y ∨ Q x y) m m'' := by
  refine ⟨fun u v huv => ⟨?_, ?_⟩, fun a ha => (k.2 a ha).trans (h.2 a ha)⟩
  · rintro ⟨x, y, hpq, hin, hr⟩
    by_cases hq : Hits fb Q u v
    · exact (k.1 u v huv).1 hq
    · rw [(k.1 u v huv).2 hq]
      rcases hpq with hp | hq'
      · exact (h.1 u v huv).1 ⟨x, y, hp, hin, hr⟩
      · exact absurd ⟨x, y, hq', hin, hr⟩ hq
  · intro hn
    rw [(k.1 u v huv).2 fun ⟨x, y, hq, r⟩ => hn ⟨x, y, .inr hq, r⟩,
      (h.1 u v huv).2 fun ⟨x, y, hp, r⟩ => hn ⟨x, y, .inl hp, r⟩]

@[simp] theorem dmem_fb (fb : FbRegs) (c : Colour) : (Surface.dmem fb c).fb = fb := rfl
@[simp] theorem dmem_read (fb : FbRegs) (c : Colour) (m : Memory) (a : Int) :
    (Surface.dmem fb c).read m a = memRead m a := rfl
@[simp] theorem dmem_plot (fb : FbRegs) (c : Colour) (x y : Int) (m : Memory) :
    (Surface.dmem fb c).plot x y m = putAbs fb x y c m := rfl
@[simp] theorem counted_fb (fb : FbRegs) (c : Colour) : (Surface.counted fb c).fb = fb := rfl
@[simp] theorem counted_read (fb : FbRegs) (c : Colour) (q : Nat × Memory) (a : Int) :
    (Surface.counted fb c).read q a = memRead q.2 a := rfl
@[simp] theorem counted_plot_zero (fb : FbRegs) (c : Colour) (x y : Int) (m : Memory) :
    (Surface.counted fb c).plot x y (0, m) = (0, m) := rfl
@[simp] theorem counted_plot_succ (fb : FbRegs) (c : Colour) (x y : Int) (n : Nat) (m : Memory) :
    (Surface.counted fb c).plot x y (n + 1, m) = (n, putAbs fb x y c m) := rfl

/-! ### Counted loops -/

/-- A property of the carried value that every pass keeps holds at the end. -/
theorem upTo_keeps {α : Type} {P : α → Prop} {f : Nat → α → α} {a : α} (h0 : P a) :
    ∀ n : Nat, (∀ k, k < n → ∀ b, P b → P (f k b)) → P (upTo n f a)
  | 0, _ => h0
  | n + 1, h => h n (Nat.lt_succ_self n) _ (upTo_keeps h0 n fun k hk => h k (Nat.lt_succ_of_lt hk))

/-! ### What drawing can do to a surface -/

/-- `f` changes a surface by calls of `PutAbs` alone: what every call keeps, `f` keeps. -/
abbrev OnlyPlots {σ : Type} (sf : Surface σ) (f : σ → σ) : Prop :=
  ∀ P : σ → Prop, (∀ x y a, P a → P (sf.plot x y a)) → ∀ a, P a → P (f a)

section OnlyPlots

variable {σ : Type} (sf : Surface σ)

theorem Surface.put_inside {x y : Int} (h : rotatedInBounds sf.fb x y = true) (a : σ) :
    sf.put x y a = sf.plot (rotate sf.fb x y).1 (rotate sf.fb x y).2 a := if_pos h

theorem Surface.put_outside {x y : Int} (h : ¬ rotatedInBounds sf.fb x y = true) (a : σ) :
    sf.put x y a = a := if_neg h

/-- The string ends at a 0x00 byte (R182). -/
theorem stringLoop_end (f : Font) (y : Int) (n : Nat) {t : Int} (col : Int) {a : σ}
    (h : sf.read a t = 0) : stringLoop sf f y (n + 1) t col a = a := if_pos h

/-- Any other byte is drawn, and the loop goes on (R182). -/
theorem stringLoop_next (f : Font) (y : Int) (n : Nat) {t : Int} (col : Int) {a : σ}
    (h : sf.read a t ≠ 0) : stringLoop sf f y (n + 1) t col a =
      stringLoop sf f y n (t + 1) (col + f.fw) (glyph sf f col y (sf.read a t) a) := if_neg h

theorem Surface.put_onlyPlots (x y : Int) : OnlyPlots sf (sf.put x y) := by
  intro P hp a ha
  unfold Surface.put
  split
  · exact hp _ _ _ ha
  · exact ha

theorem drawPoints_onlyPlots (pts : List (Int × Int)) : OnlyPlots sf (drawPoints sf pts) := by
  intro P hp a ha
  induction pts generalizing a with
  | nil => exact ha
  | cons p r ih => exact ih _ (sf.put_onlyPlots p.1 p.2 P hp a ha)

/-- One pixel of a glyph row leaves the surface, or puts one pixel (R180). -/
theorem glyphPixel_cases (x y p : Int) (i : Nat) (ba : Byte × σ) :
    (glyphPixel sf x y p i ba).2 = ba.2 ∨ (glyphPixel sf x y p i ba).2 = sf.put (x + i) y ba.2 := by
  unfold glyphPixel
  dsimp only
  generalize glyphByte sf p i ba = b
  by_cases h : b &&& (0x80#8 >>> (i % 8)) ≠ 0
  · exact .inr (if_pos h)
  · exact .inl (if_neg h)

theorem glyphRow_onlyPlots (fw x y p : Int) : OnlyPlots sf (glyphRow sf fw x y p) := by
  intro P hp a ha
  refine upTo_keeps (P := fun ba : Byte × σ => P ba.2) ha _ fun k _ b hb => ?_
  rcases glyphPixel_cases sf x y p k b with h | h <;> rw [h]
  · exact hb
  · exact sf.put_onlyPlots _ _ P hp _ hb

theorem glyph_onlyPlots (f : Font) (x y : Int) (ch : Byte) : OnlyPlots sf (glyph sf f x y ch) :=
  fun P hp _ ha => upTo_keeps ha _ fun _ _ _ hb => glyphRow_onlyPlots sf _ _ _ _ P hp _ hb

theorem stringLoop_onlyPlots (f : Font) (y : Int) :
    ∀ (n : Nat) (t col : Int), OnlyPlots sf (stringLoop sf f y n t col)
  | 0, _, _ => fun _ _ _ ha => ha
  | n + 1, t, col => by
    intro P hp a ha
    unfold stringLoop
    dsimp only
    split
    · exact ha
    · exact stringLoop_onlyPlots f y n _ _ P hp _ (glyph_onlyPlots sf f col y _ P hp a ha)

theorem paintClear_onlyPlots : OnlyPlots sf (paintClear sf) := by
  intro P hp a ha
  unfold paintClear
  induction clearPoints sf.fb generalizing a with
  | nil => exact ha
  | cons p r ih => exact ih _ (hp _ _ _ ha)

end OnlyPlots

/-- Drawing on DMEM keeps its canonical form. -/
theorem OnlyPlots.wf {fb : FbRegs} {c : Colour} {f : Memory → Memory}
    (h : OnlyPlots (Surface.dmem fb c) f) {m : Memory} (hm : Memory.wf m = true) :
    Memory.wf (f m) = true :=
  h (fun m => Memory.wf m = true) (fun _ _ _ ha => putAbs_wf ha _ _ _ _) m hm

/-- Drawing on DMEM leaves every byte outside the frame as it was. -/
theorem OnlyPlots.frame {fb : FbRegs} (hfb : fb.Wf) {c : Colour} {f : Memory → Memory}
    (h : OnlyPlots (Surface.dmem fb c) f) {m : Memory} (hm : Memory.wf m = true) {a : Nat}
    (ha : ¬ frameByte fb a) : Memory.read (f m) a = Memory.read m a :=
  (h (fun m' => Memory.wf m' = true ∧ Memory.read m' a = Memory.read m a)
    (fun _ _ _ hp => ⟨putAbs_wf hp.1 _ _ _ _, (putAbs_frame hfb hp.1 _ _ _ ha).trans hp.2⟩)
    m ⟨hm, rfl⟩).2

/-- A drawing cut short keeps what every call of `PutAbs` keeps. -/
theorem OnlyPlots.cut {fb : FbRegs} {c : Colour} {f : Nat × Memory → Nat × Memory}
    (h : OnlyPlots (Surface.counted fb c) f) {P : Memory → Prop}
    (hp : ∀ x y m, P m → P (putAbs fb x y c m)) (k : Nat) {m : Memory} (hm : P m) : P (f (k, m)).2 := by
  refine h (fun q => P q.2) (fun x y q hq => ?_) (k, m) hm
  rcases q with ⟨_ | n, m⟩
  · exact hq
  · exact hp _ _ _ hq

/-- A drawing cut before its first call of `PutAbs` changes nothing. -/
theorem OnlyPlots.cut_zero {fb : FbRegs} {c : Colour} {f : Nat × Memory → Nat × Memory}
    (h : OnlyPlots (Surface.counted fb c) f) (m : Memory) : f (0, m) = (0, m) :=
  h (fun q => q = (0, m)) (fun x y q hq => by subst hq; rfl) (0, m) rfl

/-! ### What `Put` draws -/

/-- What `Put` draws (R149): its one point, through the rotation. -/
theorem put_draws {fb : FbRegs} (hfb : fb.Wf) {m : Memory} (hm : Memory.wf m = true) (x y : Int)
    (c : Colour) :
    DrawsExactly fb c (fun x' y' => x' = x ∧ y' = y) m ((Surface.dmem fb c).put x y m) := by
  refine ⟨fun u v huv => ⟨?_, ?_⟩, fun a ha => ?_⟩
  · rintro ⟨_, _, ⟨rfl, rfl⟩, hin, hr⟩
    unfold Surface.put
    rw [if_pos (by simpa using hin), dmem_fb, dmem_plot, putAbs_pixel hfb hm _ _ _ huv, hr]
    simp
  · intro hn
    unfold Surface.put
    split
    · next hin =>
      rw [dmem_fb, dmem_plot, putAbs_pixel hfb hm _ _ _ huv, if_neg]
      intro hr
      exact hn ⟨x, y, ⟨rfl, rfl⟩, hin, Prod.ext hr.1 hr.2⟩
    · rfl
  · unfold Surface.put
    split
    · exact putAbs_frame hfb hm _ _ _ ha
    · rfl

/-- A list of points drawn in order draws exactly its members. -/
theorem drawPoints_draws {fb : FbRegs} (hfb : fb.Wf) (c : Colour) :
    ∀ (pts : List (Int × Int)) {m : Memory}, Memory.wf m = true →
      DrawsExactly fb c (fun x y => (x, y) ∈ pts) m (drawPoints (Surface.dmem fb c) pts m)
  | [], _, _ => (DrawsExactly.refl fb c _).congr (by simp)
  | p :: r, _, hm => by
    have h1 := put_draws hfb hm p.1 p.2 c
    have h2 := drawPoints_draws hfb c r
      ((Surface.put_onlyPlots (Surface.dmem fb c) p.1 p.2).wf hm)
    refine (h1.trans h2).congr fun x y => ?_
    simp [List.mem_cons, Prod.ext_iff]

theorem mem_intRange {a b i : Int} : i ∈ intRange a b ↔ a ≤ i ∧ i ≤ b := by
  unfold intRange
  simp only [List.mem_map, List.mem_range]
  constructor
  · rintro ⟨k, hk, rfl⟩; omega
  · intro h; exact ⟨(i - a).toNat, by omega, by omega⟩

end Sys2Proof.Machine
end

