-- ==== Sys2Proof/Laws/State.lean ====
section
/-! SUPPORT. What each state update does to each field of State: one lemma per field, so that no later
proof unfolds an update. -/

namespace Sys2Proof.Machine

variable (s : State)

/-! ### finish -/

@[simp] theorem finish_cfg (c : Code) : (finish c s).cfg = s.cfg := rfl
@[simp] theorem finish_cmd (c : Code) : (finish c s).cmd = s.cmd := rfl
@[simp] theorem finish_arg0 (c : Code) : (finish c s).arg0 = s.arg0 := rfl
@[simp] theorem finish_arg1 (c : Code) : (finish c s).arg1 = s.arg1 := rfl
@[simp] theorem finish_arg2 (c : Code) : (finish c s).arg2 = s.arg2 := rfl
@[simp] theorem finish_arg3 (c : Code) : (finish c s).arg3 = s.arg3 := rfl
@[simp] theorem finish_arg4 (c : Code) : (finish c s).arg4 = s.arg4 := rfl
@[simp] theorem finish_arg5 (c : Code) : (finish c s).arg5 = s.arg5 := rfl
@[simp] theorem finish_fsm (c : Code) : (finish c s).fsm = s.fsm := rfl
@[simp] theorem finish_code (c : Code) : (finish c s).code = c := rfl
@[simp] theorem finish_opbusy (c : Code) : (finish c s).opbusy = false := rfl
@[simp] theorem finish_fb (c : Code) : (finish c s).fb = s.fb := rfl
@[simp] theorem finish_pins (c : Code) : (finish c s).pins = s.pins := rfl
@[simp] theorem finish_lut (c : Code) : (finish c s).lut = s.lut := rfl
@[simp] theorem finish_mem (c : Code) : (finish c s).mem = s.mem := rfl
@[simp] theorem finish_trace (c : Code) : (finish c s).trace = s.trace := rfl
@[simp] theorem finish_host (c : Code) : (finish c s).host = s.host := rfl
@[simp] theorem finish_replies (c : Code) : (finish c s).replies = s.replies := rfl
@[simp] theorem finish_busyIn (c : Code) : (finish c s).busyIn = s.busyIn := rfl
@[simp] theorem finish_initIn (c : Code) : (finish c s).initIn = s.initIn := rfl
@[simp] theorem finish_draws (c : Code) : (finish c s).draws = s.draws := rfl

/-! ### raise -/

@[simp] theorem raise_cfg (c : Code) : (raise c s).cfg = s.cfg := rfl
@[simp] theorem raise_cmd (c : Code) : (raise c s).cmd = s.cmd := rfl
@[simp] theorem raise_arg0 (c : Code) : (raise c s).arg0 = s.arg0 := rfl
@[simp] theorem raise_arg1 (c : Code) : (raise c s).arg1 = s.arg1 := rfl
@[simp] theorem raise_arg2 (c : Code) : (raise c s).arg2 = s.arg2 := rfl
@[simp] theorem raise_arg3 (c : Code) : (raise c s).arg3 = s.arg3 := rfl
@[simp] theorem raise_arg4 (c : Code) : (raise c s).arg4 = s.arg4 := rfl
@[simp] theorem raise_arg5 (c : Code) : (raise c s).arg5 = s.arg5 := rfl
@[simp] theorem raise_fsm (c : Code) : (raise c s).fsm = s.fsm := rfl
@[simp] theorem raise_code (c : Code) : (raise c s).code = c := rfl
@[simp] theorem raise_opbusy (c : Code) : (raise c s).opbusy = false := rfl
@[simp] theorem raise_fb (c : Code) : (raise c s).fb = s.fb := rfl
@[simp] theorem raise_pins (c : Code) : (raise c s).pins = s.pins := rfl
@[simp] theorem raise_lut (c : Code) : (raise c s).lut = s.lut := rfl
@[simp] theorem raise_mem (c : Code) : (raise c s).mem = s.mem := rfl
@[simp] theorem raise_trace (c : Code) : (raise c s).trace = s.trace := rfl
@[simp] theorem raise_host (c : Code) : (raise c s).host = s.host := rfl
@[simp] theorem raise_replies (c : Code) : (raise c s).replies = s.replies := rfl
@[simp] theorem raise_busyIn (c : Code) : (raise c s).busyIn = s.busyIn := rfl
@[simp] theorem raise_initIn (c : Code) : (raise c s).initIn = s.initIn := rfl
@[simp] theorem raise_draws (c : Code) : (raise c s).draws = s.draws := rfl

/-! ### setFsm -/

@[simp] theorem setFsm_cfg (f : Fsm) : (setFsm f s).cfg = s.cfg := rfl
@[simp] theorem setFsm_cmd (f : Fsm) : (setFsm f s).cmd = s.cmd := rfl
@[simp] theorem setFsm_arg0 (f : Fsm) : (setFsm f s).arg0 = s.arg0 := rfl
@[simp] theorem setFsm_arg1 (f : Fsm) : (setFsm f s).arg1 = s.arg1 := rfl
@[simp] theorem setFsm_arg2 (f : Fsm) : (setFsm f s).arg2 = s.arg2 := rfl
@[simp] theorem setFsm_arg3 (f : Fsm) : (setFsm f s).arg3 = s.arg3 := rfl
@[simp] theorem setFsm_arg4 (f : Fsm) : (setFsm f s).arg4 = s.arg4 := rfl
@[simp] theorem setFsm_arg5 (f : Fsm) : (setFsm f s).arg5 = s.arg5 := rfl
@[simp] theorem setFsm_fsm (f : Fsm) : (setFsm f s).fsm = f := rfl
@[simp] theorem setFsm_code (f : Fsm) : (setFsm f s).code = s.code := rfl
@[simp] theorem setFsm_opbusy (f : Fsm) : (setFsm f s).opbusy = s.opbusy := rfl
@[simp] theorem setFsm_fb (f : Fsm) : (setFsm f s).fb = s.fb := rfl
@[simp] theorem setFsm_pins (f : Fsm) : (setFsm f s).pins = s.pins := rfl
@[simp] theorem setFsm_lut (f : Fsm) : (setFsm f s).lut = s.lut := rfl
@[simp] theorem setFsm_mem (f : Fsm) : (setFsm f s).mem = s.mem := rfl
@[simp] theorem setFsm_trace (f : Fsm) : (setFsm f s).trace = s.trace := rfl
@[simp] theorem setFsm_host (f : Fsm) : (setFsm f s).host = s.host := rfl
@[simp] theorem setFsm_replies (f : Fsm) : (setFsm f s).replies = s.replies := rfl
@[simp] theorem setFsm_busyIn (f : Fsm) : (setFsm f s).busyIn = s.busyIn := rfl
@[simp] theorem setFsm_initIn (f : Fsm) : (setFsm f s).initIn = s.initIn := rfl
@[simp] theorem setFsm_draws (f : Fsm) : (setFsm f s).draws = s.draws := rfl

/-! ### setLut -/

@[simp] theorem setLut_cfg (l : Lut) : (setLut l s).cfg = s.cfg := rfl
@[simp] theorem setLut_cmd (l : Lut) : (setLut l s).cmd = s.cmd := rfl
@[simp] theorem setLut_arg0 (l : Lut) : (setLut l s).arg0 = s.arg0 := rfl
@[simp] theorem setLut_arg1 (l : Lut) : (setLut l s).arg1 = s.arg1 := rfl
@[simp] theorem setLut_arg2 (l : Lut) : (setLut l s).arg2 = s.arg2 := rfl
@[simp] theorem setLut_arg3 (l : Lut) : (setLut l s).arg3 = s.arg3 := rfl
@[simp] theorem setLut_arg4 (l : Lut) : (setLut l s).arg4 = s.arg4 := rfl
@[simp] theorem setLut_arg5 (l : Lut) : (setLut l s).arg5 = s.arg5 := rfl
@[simp] theorem setLut_fsm (l : Lut) : (setLut l s).fsm = s.fsm := rfl
@[simp] theorem setLut_code (l : Lut) : (setLut l s).code = s.code := rfl
@[simp] theorem setLut_opbusy (l : Lut) : (setLut l s).opbusy = s.opbusy := rfl
@[simp] theorem setLut_fb (l : Lut) : (setLut l s).fb = s.fb := rfl
@[simp] theorem setLut_pins (l : Lut) : (setLut l s).pins = s.pins := rfl
@[simp] theorem setLut_lut (l : Lut) : (setLut l s).lut = l := rfl
@[simp] theorem setLut_mem (l : Lut) : (setLut l s).mem = s.mem := rfl
@[simp] theorem setLut_trace (l : Lut) : (setLut l s).trace = s.trace := rfl
@[simp] theorem setLut_host (l : Lut) : (setLut l s).host = s.host := rfl
@[simp] theorem setLut_replies (l : Lut) : (setLut l s).replies = s.replies := rfl
@[simp] theorem setLut_busyIn (l : Lut) : (setLut l s).busyIn = s.busyIn := rfl
@[simp] theorem setLut_initIn (l : Lut) : (setLut l s).initIn = s.initIn := rfl
@[simp] theorem setLut_draws (l : Lut) : (setLut l s).draws = s.draws := rfl

/-! ### setHost -/

@[simp] theorem setHost_cfg (h : List HostAct) : (setHost h s).cfg = s.cfg := rfl
@[simp] theorem setHost_cmd (h : List HostAct) : (setHost h s).cmd = s.cmd := rfl
@[simp] theorem setHost_arg0 (h : List HostAct) : (setHost h s).arg0 = s.arg0 := rfl
@[simp] theorem setHost_arg1 (h : List HostAct) : (setHost h s).arg1 = s.arg1 := rfl
@[simp] theorem setHost_arg2 (h : List HostAct) : (setHost h s).arg2 = s.arg2 := rfl
@[simp] theorem setHost_arg3 (h : List HostAct) : (setHost h s).arg3 = s.arg3 := rfl
@[simp] theorem setHost_arg4 (h : List HostAct) : (setHost h s).arg4 = s.arg4 := rfl
@[simp] theorem setHost_arg5 (h : List HostAct) : (setHost h s).arg5 = s.arg5 := rfl
@[simp] theorem setHost_fsm (h : List HostAct) : (setHost h s).fsm = s.fsm := rfl
@[simp] theorem setHost_code (h : List HostAct) : (setHost h s).code = s.code := rfl
@[simp] theorem setHost_opbusy (h : List HostAct) : (setHost h s).opbusy = s.opbusy := rfl
@[simp] theorem setHost_fb (h : List HostAct) : (setHost h s).fb = s.fb := rfl
@[simp] theorem setHost_pins (h : List HostAct) : (setHost h s).pins = s.pins := rfl
@[simp] theorem setHost_lut (h : List HostAct) : (setHost h s).lut = s.lut := rfl
@[simp] theorem setHost_mem (h : List HostAct) : (setHost h s).mem = s.mem := rfl
@[simp] theorem setHost_trace (h : List HostAct) : (setHost h s).trace = s.trace := rfl
@[simp] theorem setHost_host (h : List HostAct) : (setHost h s).host = h := rfl
@[simp] theorem setHost_replies (h : List HostAct) : (setHost h s).replies = s.replies := rfl
@[simp] theorem setHost_busyIn (h : List HostAct) : (setHost h s).busyIn = s.busyIn := rfl
@[simp] theorem setHost_initIn (h : List HostAct) : (setHost h s).initIn = s.initIn := rfl
@[simp] theorem setHost_draws (h : List HostAct) : (setHost h s).draws = s.draws := rfl

/-! ### startCommand -/

@[simp] theorem startCommand_cfg (w : Word) : (startCommand w s).cfg = s.cfg := rfl
@[simp] theorem startCommand_cmd (w : Word) : (startCommand w s).cmd = w := rfl
@[simp] theorem startCommand_arg0 (w : Word) : (startCommand w s).arg0 = s.arg0 := rfl
@[simp] theorem startCommand_arg1 (w : Word) : (startCommand w s).arg1 = s.arg1 := rfl
@[simp] theorem startCommand_arg2 (w : Word) : (startCommand w s).arg2 = s.arg2 := rfl
@[simp] theorem startCommand_arg3 (w : Word) : (startCommand w s).arg3 = s.arg3 := rfl
@[simp] theorem startCommand_arg4 (w : Word) : (startCommand w s).arg4 = s.arg4 := rfl
@[simp] theorem startCommand_arg5 (w : Word) : (startCommand w s).arg5 = s.arg5 := rfl
@[simp] theorem startCommand_fsm (w : Word) : (startCommand w s).fsm = s.fsm := rfl
@[simp] theorem startCommand_code (w : Word) : (startCommand w s).code = s.code := rfl
@[simp] theorem startCommand_opbusy (w : Word) : (startCommand w s).opbusy = true := rfl
@[simp] theorem startCommand_fb (w : Word) : (startCommand w s).fb = s.fb := rfl
@[simp] theorem startCommand_pins (w : Word) : (startCommand w s).pins = s.pins := rfl
@[simp] theorem startCommand_lut (w : Word) : (startCommand w s).lut = s.lut := rfl
@[simp] theorem startCommand_mem (w : Word) : (startCommand w s).mem = s.mem := rfl
@[simp] theorem startCommand_trace (w : Word) : (startCommand w s).trace = s.trace := rfl
@[simp] theorem startCommand_host (w : Word) : (startCommand w s).host = s.host := rfl
@[simp] theorem startCommand_replies (w : Word) : (startCommand w s).replies = s.replies := rfl
@[simp] theorem startCommand_busyIn (w : Word) : (startCommand w s).busyIn = s.busyIn := rfl
@[simp] theorem startCommand_initIn (w : Word) : (startCommand w s).initIn = s.initIn := rfl
@[simp] theorem startCommand_draws (w : Word) : (startCommand w s).draws = s.draws := rfl

/-! ### emit -/

@[simp] theorem emit_cfg (e : Event) : (emit e s).cfg = s.cfg := rfl
@[simp] theorem emit_cmd (e : Event) : (emit e s).cmd = s.cmd := rfl
@[simp] theorem emit_arg0 (e : Event) : (emit e s).arg0 = s.arg0 := rfl
@[simp] theorem emit_arg1 (e : Event) : (emit e s).arg1 = s.arg1 := rfl
@[simp] theorem emit_arg2 (e : Event) : (emit e s).arg2 = s.arg2 := rfl
@[simp] theorem emit_arg3 (e : Event) : (emit e s).arg3 = s.arg3 := rfl
@[simp] theorem emit_arg4 (e : Event) : (emit e s).arg4 = s.arg4 := rfl
@[simp] theorem emit_arg5 (e : Event) : (emit e s).arg5 = s.arg5 := rfl
@[simp] theorem emit_fsm (e : Event) : (emit e s).fsm = s.fsm := rfl
@[simp] theorem emit_code (e : Event) : (emit e s).code = s.code := rfl
@[simp] theorem emit_opbusy (e : Event) : (emit e s).opbusy = s.opbusy := rfl
@[simp] theorem emit_fb (e : Event) : (emit e s).fb = s.fb := rfl
@[simp] theorem emit_pins (e : Event) : (emit e s).pins = s.pins := rfl
@[simp] theorem emit_lut (e : Event) : (emit e s).lut = s.lut := rfl
@[simp] theorem emit_mem (e : Event) : (emit e s).mem = s.mem := rfl
@[simp] theorem emit_trace (e : Event) : (emit e s).trace = ⟨s.fsm, e⟩ :: s.trace := rfl
@[simp] theorem emit_host (e : Event) : (emit e s).host = s.host := rfl
@[simp] theorem emit_replies (e : Event) : (emit e s).replies = s.replies := rfl
@[simp] theorem emit_busyIn (e : Event) : (emit e s).busyIn = s.busyIn := rfl
@[simp] theorem emit_initIn (e : Event) : (emit e s).initIn = s.initIn := rfl
@[simp] theorem emit_draws (e : Event) : (emit e s).draws = s.draws := rfl

/-! ### delay -/

@[simp] theorem delay_cfg (ms : Nat) : (delay ms s).cfg = s.cfg := rfl
@[simp] theorem delay_cmd (ms : Nat) : (delay ms s).cmd = s.cmd := rfl
@[simp] theorem delay_arg0 (ms : Nat) : (delay ms s).arg0 = s.arg0 := rfl
@[simp] theorem delay_arg1 (ms : Nat) : (delay ms s).arg1 = s.arg1 := rfl
@[simp] theorem delay_arg2 (ms : Nat) : (delay ms s).arg2 = s.arg2 := rfl
@[simp] theorem delay_arg3 (ms : Nat) : (delay ms s).arg3 = s.arg3 := rfl
@[simp] theorem delay_arg4 (ms : Nat) : (delay ms s).arg4 = s.arg4 := rfl
@[simp] theorem delay_arg5 (ms : Nat) : (delay ms s).arg5 = s.arg5 := rfl
@[simp] theorem delay_fsm (ms : Nat) : (delay ms s).fsm = s.fsm := rfl
@[simp] theorem delay_code (ms : Nat) : (delay ms s).code = s.code := rfl
@[simp] theorem delay_opbusy (ms : Nat) : (delay ms s).opbusy = s.opbusy := rfl
@[simp] theorem delay_fb (ms : Nat) : (delay ms s).fb = s.fb := rfl
@[simp] theorem delay_pins (ms : Nat) : (delay ms s).pins = s.pins := rfl
@[simp] theorem delay_lut (ms : Nat) : (delay ms s).lut = s.lut := rfl
@[simp] theorem delay_mem (ms : Nat) : (delay ms s).mem = s.mem := rfl
@[simp] theorem delay_trace (ms : Nat) : (delay ms s).trace = ⟨s.fsm, .delay ms⟩ :: s.trace := rfl
@[simp] theorem delay_host (ms : Nat) : (delay ms s).host = s.host := rfl
@[simp] theorem delay_replies (ms : Nat) : (delay ms s).replies = s.replies := rfl
@[simp] theorem delay_busyIn (ms : Nat) : (delay ms s).busyIn = s.busyIn := rfl
@[simp] theorem delay_initIn (ms : Nat) : (delay ms s).initIn = s.initIn := rfl
@[simp] theorem delay_draws (ms : Nat) : (delay ms s).draws = s.draws := rfl

/-! ### setPin -/

@[simp] theorem setPin_cfg (p : Pin) (l : Bool) : (setPin p l s).cfg = s.cfg := rfl
@[simp] theorem setPin_cmd (p : Pin) (l : Bool) : (setPin p l s).cmd = s.cmd := rfl
@[simp] theorem setPin_arg0 (p : Pin) (l : Bool) : (setPin p l s).arg0 = s.arg0 := rfl
@[simp] theorem setPin_arg1 (p : Pin) (l : Bool) : (setPin p l s).arg1 = s.arg1 := rfl
@[simp] theorem setPin_arg2 (p : Pin) (l : Bool) : (setPin p l s).arg2 = s.arg2 := rfl
@[simp] theorem setPin_arg3 (p : Pin) (l : Bool) : (setPin p l s).arg3 = s.arg3 := rfl
@[simp] theorem setPin_arg4 (p : Pin) (l : Bool) : (setPin p l s).arg4 = s.arg4 := rfl
@[simp] theorem setPin_arg5 (p : Pin) (l : Bool) : (setPin p l s).arg5 = s.arg5 := rfl
@[simp] theorem setPin_fsm (p : Pin) (l : Bool) : (setPin p l s).fsm = s.fsm := rfl
@[simp] theorem setPin_code (p : Pin) (l : Bool) : (setPin p l s).code = s.code := rfl
@[simp] theorem setPin_opbusy (p : Pin) (l : Bool) : (setPin p l s).opbusy = s.opbusy := rfl
@[simp] theorem setPin_fb (p : Pin) (l : Bool) : (setPin p l s).fb = s.fb := rfl
@[simp] theorem setPin_pins (p : Pin) (l : Bool) : (setPin p l s).pins = pinsAfterEvent s.pins (.pin p l) := by cases p <;> rfl
@[simp] theorem setPin_lut (p : Pin) (l : Bool) : (setPin p l s).lut = s.lut := rfl
@[simp] theorem setPin_mem (p : Pin) (l : Bool) : (setPin p l s).mem = s.mem := rfl
@[simp] theorem setPin_trace (p : Pin) (l : Bool) : (setPin p l s).trace = ⟨s.fsm, .pin p l⟩ :: s.trace := rfl
@[simp] theorem setPin_host (p : Pin) (l : Bool) : (setPin p l s).host = s.host := rfl
@[simp] theorem setPin_replies (p : Pin) (l : Bool) : (setPin p l s).replies = s.replies := rfl
@[simp] theorem setPin_busyIn (p : Pin) (l : Bool) : (setPin p l s).busyIn = s.busyIn := rfl
@[simp] theorem setPin_initIn (p : Pin) (l : Bool) : (setPin p l s).initIn = s.initIn := rfl
@[simp] theorem setPin_draws (p : Pin) (l : Bool) : (setPin p l s).draws = s.draws := rfl

/-! ### sampleBusy -/

@[simp] theorem sampleBusy_cfg (l : Bool) : (sampleBusy l s).cfg = s.cfg := rfl
@[simp] theorem sampleBusy_cmd (l : Bool) : (sampleBusy l s).cmd = s.cmd := rfl
@[simp] theorem sampleBusy_arg0 (l : Bool) : (sampleBusy l s).arg0 = s.arg0 := rfl
@[simp] theorem sampleBusy_arg1 (l : Bool) : (sampleBusy l s).arg1 = s.arg1 := rfl
@[simp] theorem sampleBusy_arg2 (l : Bool) : (sampleBusy l s).arg2 = s.arg2 := rfl
@[simp] theorem sampleBusy_arg3 (l : Bool) : (sampleBusy l s).arg3 = s.arg3 := rfl
@[simp] theorem sampleBusy_arg4 (l : Bool) : (sampleBusy l s).arg4 = s.arg4 := rfl
@[simp] theorem sampleBusy_arg5 (l : Bool) : (sampleBusy l s).arg5 = s.arg5 := rfl
@[simp] theorem sampleBusy_fsm (l : Bool) : (sampleBusy l s).fsm = s.fsm := rfl
@[simp] theorem sampleBusy_code (l : Bool) : (sampleBusy l s).code = s.code := rfl
@[simp] theorem sampleBusy_opbusy (l : Bool) : (sampleBusy l s).opbusy = s.opbusy := rfl
@[simp] theorem sampleBusy_fb (l : Bool) : (sampleBusy l s).fb = s.fb := rfl
@[simp] theorem sampleBusy_pins (l : Bool) : (sampleBusy l s).pins = pinsAfterEvent s.pins (.busy l) := rfl
@[simp] theorem sampleBusy_lut (l : Bool) : (sampleBusy l s).lut = s.lut := rfl
@[simp] theorem sampleBusy_mem (l : Bool) : (sampleBusy l s).mem = s.mem := rfl
@[simp] theorem sampleBusy_trace (l : Bool) : (sampleBusy l s).trace = ⟨s.fsm, .busy l⟩ :: s.trace := rfl
@[simp] theorem sampleBusy_host (l : Bool) : (sampleBusy l s).host = s.host := rfl
@[simp] theorem sampleBusy_replies (l : Bool) : (sampleBusy l s).replies = s.replies := rfl
@[simp] theorem sampleBusy_busyIn (l : Bool) : (sampleBusy l s).busyIn = s.busyIn := rfl
@[simp] theorem sampleBusy_initIn (l : Bool) : (sampleBusy l s).initIn = s.initIn := rfl
@[simp] theorem sampleBusy_draws (l : Bool) : (sampleBusy l s).draws = s.draws := rfl

/-! ### sendByte -/

@[simp] theorem sendByte_cfg (d : Bool) (b : Byte) : (sendByte d b s).cfg = s.cfg := by simp [sendByte]
@[simp] theorem sendByte_cmd (d : Bool) (b : Byte) : (sendByte d b s).cmd = s.cmd := by simp [sendByte]
@[simp] theorem sendByte_arg0 (d : Bool) (b : Byte) : (sendByte d b s).arg0 = s.arg0 := by simp [sendByte]
@[simp] theorem sendByte_arg1 (d : Bool) (b : Byte) : (sendByte d b s).arg1 = s.arg1 := by simp [sendByte]
@[simp] theorem sendByte_arg2 (d : Bool) (b : Byte) : (sendByte d b s).arg2 = s.arg2 := by simp [sendByte]
@[simp] theorem sendByte_arg3 (d : Bool) (b : Byte) : (sendByte d b s).arg3 = s.arg3 := by simp [sendByte]
@[simp] theorem sendByte_arg4 (d : Bool) (b : Byte) : (sendByte d b s).arg4 = s.arg4 := by simp [sendByte]
@[simp] theorem sendByte_arg5 (d : Bool) (b : Byte) : (sendByte d b s).arg5 = s.arg5 := by simp [sendByte]
@[simp] theorem sendByte_fsm (d : Bool) (b : Byte) : (sendByte d b s).fsm = s.fsm := by simp [sendByte]
@[simp] theorem sendByte_code (d : Bool) (b : Byte) : (sendByte d b s).code = s.code := by simp [sendByte]
@[simp] theorem sendByte_opbusy (d : Bool) (b : Byte) : (sendByte d b s).opbusy = s.opbusy := by simp [sendByte]
@[simp] theorem sendByte_fb (d : Bool) (b : Byte) : (sendByte d b s).fb = s.fb := by simp [sendByte]
@[simp] theorem sendByte_lut (d : Bool) (b : Byte) : (sendByte d b s).lut = s.lut := by simp [sendByte]
@[simp] theorem sendByte_mem (d : Bool) (b : Byte) : (sendByte d b s).mem = s.mem := by simp [sendByte]
@[simp] theorem sendByte_host (d : Bool) (b : Byte) : (sendByte d b s).host = s.host := by simp [sendByte]
@[simp] theorem sendByte_replies (d : Bool) (b : Byte) : (sendByte d b s).replies = s.replies := by simp [sendByte]
@[simp] theorem sendByte_busyIn (d : Bool) (b : Byte) : (sendByte d b s).busyIn = s.busyIn := by simp [sendByte]
@[simp] theorem sendByte_initIn (d : Bool) (b : Byte) : (sendByte d b s).initIn = s.initIn := by simp [sendByte]
@[simp] theorem sendByte_draws (d : Bool) (b : Byte) : (sendByte d b s).draws = s.draws := by simp [sendByte]

/-! ### sendCommand -/

@[simp] theorem sendCommand_cfg (b : Byte) : (sendCommand b s).cfg = s.cfg := by simp [sendCommand]
@[simp] theorem sendCommand_cmd (b : Byte) : (sendCommand b s).cmd = s.cmd := by simp [sendCommand]
@[simp] theorem sendCommand_arg0 (b : Byte) : (sendCommand b s).arg0 = s.arg0 := by simp [sendCommand]
@[simp] theorem sendCommand_arg1 (b : Byte) : (sendCommand b s).arg1 = s.arg1 := by simp [sendCommand]
@[simp] theorem sendCommand_arg2 (b : Byte) : (sendCommand b s).arg2 = s.arg2 := by simp [sendCommand]
@[simp] theorem sendCommand_arg3 (b : Byte) : (sendCommand b s).arg3 = s.arg3 := by simp [sendCommand]
@[simp] theorem sendCommand_arg4 (b : Byte) : (sendCommand b s).arg4 = s.arg4 := by simp [sendCommand]
@[simp] theorem sendCommand_arg5 (b : Byte) : (sendCommand b s).arg5 = s.arg5 := by simp [sendCommand]
@[simp] theorem sendCommand_fsm (b : Byte) : (sendCommand b s).fsm = s.fsm := by simp [sendCommand]
@[simp] theorem sendCommand_code (b : Byte) : (sendCommand b s).code = s.code := by simp [sendCommand]
@[simp] theorem sendCommand_opbusy (b : Byte) : (sendCommand b s).opbusy = s.opbusy := by simp [sendCommand]
@[simp] theorem sendCommand_fb (b : Byte) : (sendCommand b s).fb = s.fb := by simp [sendCommand]
@[simp] theorem sendCommand_lut (b : Byte) : (sendCommand b s).lut = s.lut := by simp [sendCommand]
@[simp] theorem sendCommand_mem (b : Byte) : (sendCommand b s).mem = s.mem := by simp [sendCommand]
@[simp] theorem sendCommand_host (b : Byte) : (sendCommand b s).host = s.host := by simp [sendCommand]
@[simp] theorem sendCommand_replies (b : Byte) : (sendCommand b s).replies = s.replies := by simp [sendCommand]
@[simp] theorem sendCommand_busyIn (b : Byte) : (sendCommand b s).busyIn = s.busyIn := by simp [sendCommand]
@[simp] theorem sendCommand_initIn (b : Byte) : (sendCommand b s).initIn = s.initIn := by simp [sendCommand]
@[simp] theorem sendCommand_draws (b : Byte) : (sendCommand b s).draws = s.draws := by simp [sendCommand]

/-! ### sendData -/

@[simp] theorem sendData_cfg (b : Byte) : (sendData b s).cfg = s.cfg := by simp [sendData]
@[simp] theorem sendData_cmd (b : Byte) : (sendData b s).cmd = s.cmd := by simp [sendData]
@[simp] theorem sendData_arg0 (b : Byte) : (sendData b s).arg0 = s.arg0 := by simp [sendData]
@[simp] theorem sendData_arg1 (b : Byte) : (sendData b s).arg1 = s.arg1 := by simp [sendData]
@[simp] theorem sendData_arg2 (b : Byte) : (sendData b s).arg2 = s.arg2 := by simp [sendData]
@[simp] theorem sendData_arg3 (b : Byte) : (sendData b s).arg3 = s.arg3 := by simp [sendData]
@[simp] theorem sendData_arg4 (b : Byte) : (sendData b s).arg4 = s.arg4 := by simp [sendData]
@[simp] theorem sendData_arg5 (b : Byte) : (sendData b s).arg5 = s.arg5 := by simp [sendData]
@[simp] theorem sendData_fsm (b : Byte) : (sendData b s).fsm = s.fsm := by simp [sendData]
@[simp] theorem sendData_code (b : Byte) : (sendData b s).code = s.code := by simp [sendData]
@[simp] theorem sendData_opbusy (b : Byte) : (sendData b s).opbusy = s.opbusy := by simp [sendData]
@[simp] theorem sendData_fb (b : Byte) : (sendData b s).fb = s.fb := by simp [sendData]
@[simp] theorem sendData_lut (b : Byte) : (sendData b s).lut = s.lut := by simp [sendData]
@[simp] theorem sendData_mem (b : Byte) : (sendData b s).mem = s.mem := by simp [sendData]
@[simp] theorem sendData_host (b : Byte) : (sendData b s).host = s.host := by simp [sendData]
@[simp] theorem sendData_replies (b : Byte) : (sendData b s).replies = s.replies := by simp [sendData]
@[simp] theorem sendData_busyIn (b : Byte) : (sendData b s).busyIn = s.busyIn := by simp [sendData]
@[simp] theorem sendData_initIn (b : Byte) : (sendData b s).initIn = s.initIn := by simp [sendData]
@[simp] theorem sendData_draws (b : Byte) : (sendData b s).draws = s.draws := by simp [sendData]

/-! ### resetPulse -/

@[simp] theorem resetPulse_cfg : (resetPulse s).cfg = s.cfg := by simp [resetPulse]
@[simp] theorem resetPulse_cmd : (resetPulse s).cmd = s.cmd := by simp [resetPulse]
@[simp] theorem resetPulse_arg0 : (resetPulse s).arg0 = s.arg0 := by simp [resetPulse]
@[simp] theorem resetPulse_arg1 : (resetPulse s).arg1 = s.arg1 := by simp [resetPulse]
@[simp] theorem resetPulse_arg2 : (resetPulse s).arg2 = s.arg2 := by simp [resetPulse]
@[simp] theorem resetPulse_arg3 : (resetPulse s).arg3 = s.arg3 := by simp [resetPulse]
@[simp] theorem resetPulse_arg4 : (resetPulse s).arg4 = s.arg4 := by simp [resetPulse]
@[simp] theorem resetPulse_arg5 : (resetPulse s).arg5 = s.arg5 := by simp [resetPulse]
@[simp] theorem resetPulse_fsm : (resetPulse s).fsm = s.fsm := by simp [resetPulse]
@[simp] theorem resetPulse_code : (resetPulse s).code = s.code := by simp [resetPulse]
@[simp] theorem resetPulse_opbusy : (resetPulse s).opbusy = s.opbusy := by simp [resetPulse]
@[simp] theorem resetPulse_fb : (resetPulse s).fb = s.fb := by simp [resetPulse]
@[simp] theorem resetPulse_lut : (resetPulse s).lut = s.lut := by simp [resetPulse]
@[simp] theorem resetPulse_mem : (resetPulse s).mem = s.mem := by simp [resetPulse]
@[simp] theorem resetPulse_host : (resetPulse s).host = s.host := by simp [resetPulse]
@[simp] theorem resetPulse_replies : (resetPulse s).replies = s.replies := by simp [resetPulse]
@[simp] theorem resetPulse_busyIn : (resetPulse s).busyIn = s.busyIn := by simp [resetPulse]
@[simp] theorem resetPulse_initIn : (resetPulse s).initIn = s.initIn := by simp [resetPulse]
@[simp] theorem resetPulse_draws : (resetPulse s).draws = s.draws := by simp [resetPulse]

/-! ### emitted -/

@[simp] theorem emitted_cfg (evs : List Traced) : (emitted evs s).cfg = s.cfg := rfl
@[simp] theorem emitted_cmd (evs : List Traced) : (emitted evs s).cmd = s.cmd := rfl
@[simp] theorem emitted_arg0 (evs : List Traced) : (emitted evs s).arg0 = s.arg0 := rfl
@[simp] theorem emitted_arg1 (evs : List Traced) : (emitted evs s).arg1 = s.arg1 := rfl
@[simp] theorem emitted_arg2 (evs : List Traced) : (emitted evs s).arg2 = s.arg2 := rfl
@[simp] theorem emitted_arg3 (evs : List Traced) : (emitted evs s).arg3 = s.arg3 := rfl
@[simp] theorem emitted_arg4 (evs : List Traced) : (emitted evs s).arg4 = s.arg4 := rfl
@[simp] theorem emitted_arg5 (evs : List Traced) : (emitted evs s).arg5 = s.arg5 := rfl
@[simp] theorem emitted_fsm (evs : List Traced) : (emitted evs s).fsm = s.fsm := rfl
@[simp] theorem emitted_code (evs : List Traced) : (emitted evs s).code = s.code := rfl
@[simp] theorem emitted_opbusy (evs : List Traced) : (emitted evs s).opbusy = s.opbusy := rfl
@[simp] theorem emitted_fb (evs : List Traced) : (emitted evs s).fb = s.fb := rfl
@[simp] theorem emitted_pins (evs : List Traced) : (emitted evs s).pins = s.pins := rfl
@[simp] theorem emitted_lut (evs : List Traced) : (emitted evs s).lut = s.lut := rfl
@[simp] theorem emitted_mem (evs : List Traced) : (emitted evs s).mem = s.mem := rfl
@[simp] theorem emitted_trace (evs : List Traced) : (emitted evs s).trace = evs ++ s.trace := rfl
@[simp] theorem emitted_host (evs : List Traced) : (emitted evs s).host = s.host := rfl
@[simp] theorem emitted_replies (evs : List Traced) : (emitted evs s).replies = s.replies := rfl
@[simp] theorem emitted_busyIn (evs : List Traced) : (emitted evs s).busyIn = s.busyIn.drop (evs.countP fun e => e.event.isBusy) := rfl
@[simp] theorem emitted_initIn (evs : List Traced) : (emitted evs s).initIn = s.initIn.drop (evs.countP fun e => e.event.isHwInit) := rfl

/-! ### blockReset -/

@[simp] theorem blockReset_cfg : (blockReset s).cfg = s.cfg := rfl
@[simp] theorem blockReset_cmd : (blockReset s).cmd = 0 := rfl
@[simp] theorem blockReset_arg0 : (blockReset s).arg0 = 0 := rfl
@[simp] theorem blockReset_arg1 : (blockReset s).arg1 = 0 := rfl
@[simp] theorem blockReset_arg2 : (blockReset s).arg2 = 0 := rfl
@[simp] theorem blockReset_arg3 : (blockReset s).arg3 = 0 := rfl
@[simp] theorem blockReset_arg4 : (blockReset s).arg4 = 0 := rfl
@[simp] theorem blockReset_arg5 : (blockReset s).arg5 = 0 := rfl
@[simp] theorem blockReset_fsm : (blockReset s).fsm = .uninitialized := rfl
@[simp] theorem blockReset_code : (blockReset s).code = .ok := rfl
@[simp] theorem blockReset_opbusy : (blockReset s).opbusy = false := rfl
@[simp] theorem blockReset_fb : (blockReset s).fb = FbRegs.reset := rfl
@[simp] theorem blockReset_pins : (blockReset s).pins = Pins.reset := rfl
@[simp] theorem blockReset_lut : (blockReset s).lut = Lut.reset := rfl
@[simp] theorem blockReset_mem : (blockReset s).mem = s.mem := rfl
@[simp] theorem blockReset_trace : (blockReset s).trace = s.trace := rfl
@[simp] theorem blockReset_host : (blockReset s).host = s.host := rfl
@[simp] theorem blockReset_replies : (blockReset s).replies = s.replies := rfl
@[simp] theorem blockReset_busyIn : (blockReset s).busyIn = s.busyIn := rfl
@[simp] theorem blockReset_initIn : (blockReset s).initIn = s.initIn := rfl
@[simp] theorem blockReset_draws : (blockReset s).draws = s.draws := rfl

/-! ### drawn -/

@[simp] theorem drawn_cfg (m : Memory) : (s.drawn m).cfg = s.cfg := rfl
@[simp] theorem drawn_cmd (m : Memory) : (s.drawn m).cmd = s.cmd := rfl
@[simp] theorem drawn_arg0 (m : Memory) : (s.drawn m).arg0 = s.arg0 := rfl
@[simp] theorem drawn_arg1 (m : Memory) : (s.drawn m).arg1 = s.arg1 := rfl
@[simp] theorem drawn_arg2 (m : Memory) : (s.drawn m).arg2 = s.arg2 := rfl
@[simp] theorem drawn_arg3 (m : Memory) : (s.drawn m).arg3 = s.arg3 := rfl
@[simp] theorem drawn_arg4 (m : Memory) : (s.drawn m).arg4 = s.arg4 := rfl
@[simp] theorem drawn_arg5 (m : Memory) : (s.drawn m).arg5 = s.arg5 := rfl
@[simp] theorem drawn_fsm (m : Memory) : (s.drawn m).fsm = s.fsm := rfl
@[simp] theorem drawn_code (m : Memory) : (s.drawn m).code = .ok := rfl
@[simp] theorem drawn_opbusy (m : Memory) : (s.drawn m).opbusy = false := rfl
@[simp] theorem drawn_fb (m : Memory) : (s.drawn m).fb = s.fb := rfl
@[simp] theorem drawn_pins (m : Memory) : (s.drawn m).pins = s.pins := rfl
@[simp] theorem drawn_lut (m : Memory) : (s.drawn m).lut = s.lut := rfl
@[simp] theorem drawn_mem (m : Memory) : (s.drawn m).mem = m := rfl
@[simp] theorem drawn_trace (m : Memory) : (s.drawn m).trace = s.trace := rfl
@[simp] theorem drawn_host (m : Memory) : (s.drawn m).host = s.host := rfl
@[simp] theorem drawn_replies (m : Memory) : (s.drawn m).replies = s.replies := rfl
@[simp] theorem drawn_busyIn (m : Memory) : (s.drawn m).busyIn = s.busyIn := rfl
@[simp] theorem drawn_initIn (m : Memory) : (s.drawn m).initIn = s.initIn := rfl
@[simp] theorem drawn_draws (m : Memory) : (s.drawn m).draws = s.draws := rfl

/-! ### failed -/

@[simp] theorem failed_cfg (c : Code) : (s.failed c).cfg = s.cfg := rfl
@[simp] theorem failed_cmd (c : Code) : (s.failed c).cmd = s.cmd := rfl
@[simp] theorem failed_arg0 (c : Code) : (s.failed c).arg0 = s.arg0 := rfl
@[simp] theorem failed_arg1 (c : Code) : (s.failed c).arg1 = s.arg1 := rfl
@[simp] theorem failed_arg2 (c : Code) : (s.failed c).arg2 = s.arg2 := rfl
@[simp] theorem failed_arg3 (c : Code) : (s.failed c).arg3 = s.arg3 := rfl
@[simp] theorem failed_arg4 (c : Code) : (s.failed c).arg4 = s.arg4 := rfl
@[simp] theorem failed_arg5 (c : Code) : (s.failed c).arg5 = s.arg5 := rfl
@[simp] theorem failed_fsm (c : Code) : (s.failed c).fsm = s.fsm := rfl
@[simp] theorem failed_code (c : Code) : (s.failed c).code = c := rfl
@[simp] theorem failed_opbusy (c : Code) : (s.failed c).opbusy = false := rfl
@[simp] theorem failed_fb (c : Code) : (s.failed c).fb = s.fb := rfl
@[simp] theorem failed_pins (c : Code) : (s.failed c).pins = s.pins := rfl
@[simp] theorem failed_lut (c : Code) : (s.failed c).lut = s.lut := rfl
@[simp] theorem failed_mem (c : Code) : (s.failed c).mem = s.mem := rfl
@[simp] theorem failed_trace (c : Code) : (s.failed c).trace = s.trace := rfl
@[simp] theorem failed_host (c : Code) : (s.failed c).host = s.host := rfl
@[simp] theorem failed_replies (c : Code) : (s.failed c).replies = s.replies := rfl
@[simp] theorem failed_busyIn (c : Code) : (s.failed c).busyIn = s.busyIn := rfl
@[simp] theorem failed_initIn (c : Code) : (s.failed c).initIn = s.initIn := rfl
@[simp] theorem failed_draws (c : Code) : (s.failed c).draws = s.draws := rfl

/-! ### observed -/

@[simp] theorem observed_cfg (d : Fsm) (evs : List Event) : (s.observed d evs).cfg = s.cfg := rfl
@[simp] theorem observed_cmd (d : Fsm) (evs : List Event) : (s.observed d evs).cmd = s.cmd := rfl
@[simp] theorem observed_arg0 (d : Fsm) (evs : List Event) : (s.observed d evs).arg0 = s.arg0 := rfl
@[simp] theorem observed_arg1 (d : Fsm) (evs : List Event) : (s.observed d evs).arg1 = s.arg1 := rfl
@[simp] theorem observed_arg2 (d : Fsm) (evs : List Event) : (s.observed d evs).arg2 = s.arg2 := rfl
@[simp] theorem observed_arg3 (d : Fsm) (evs : List Event) : (s.observed d evs).arg3 = s.arg3 := rfl
@[simp] theorem observed_arg4 (d : Fsm) (evs : List Event) : (s.observed d evs).arg4 = s.arg4 := rfl
@[simp] theorem observed_arg5 (d : Fsm) (evs : List Event) : (s.observed d evs).arg5 = s.arg5 := rfl
@[simp] theorem observed_fsm (d : Fsm) (evs : List Event) : (s.observed d evs).fsm = s.fsm := rfl
@[simp] theorem observed_code (d : Fsm) (evs : List Event) : (s.observed d evs).code = s.code := rfl
@[simp] theorem observed_opbusy (d : Fsm) (evs : List Event) : (s.observed d evs).opbusy = s.opbusy := rfl
@[simp] theorem observed_fb (d : Fsm) (evs : List Event) : (s.observed d evs).fb = s.fb := rfl
@[simp] theorem observed_pins (d : Fsm) (evs : List Event) : (s.observed d evs).pins = pinsAfter s.pins evs := rfl
@[simp] theorem observed_lut (d : Fsm) (evs : List Event) : (s.observed d evs).lut = s.lut := rfl
@[simp] theorem observed_mem (d : Fsm) (evs : List Event) : (s.observed d evs).mem = s.mem := rfl
@[simp] theorem observed_trace (d : Fsm) (evs : List Event) : (s.observed d evs).trace = (evs.map (Traced.mk d)).reverse ++ s.trace := rfl
@[simp] theorem observed_host (d : Fsm) (evs : List Event) : (s.observed d evs).host = s.host := rfl
@[simp] theorem observed_replies (d : Fsm) (evs : List Event) : (s.observed d evs).replies = s.replies := rfl
@[simp] theorem observed_busyIn (d : Fsm) (evs : List Event) : (s.observed d evs).busyIn = s.busyIn.drop (evs.countP Event.isBusy) := rfl
@[simp] theorem observed_initIn (d : Fsm) (evs : List Event) : (s.observed d evs).initIn = s.initIn.drop (evs.countP Event.isHwInit) := rfl
@[simp] theorem observed_draws (d : Fsm) (evs : List Event) : (s.observed d evs).draws = s.draws := rfl

/-! ### ended -/

@[simp] theorem ended_cfg (d a : Fsm) (c : Code) (evs : List Event) : (s.ended d a c evs).cfg = s.cfg := rfl
@[simp] theorem ended_cmd (d a : Fsm) (c : Code) (evs : List Event) : (s.ended d a c evs).cmd = s.cmd := rfl
@[simp] theorem ended_arg0 (d a : Fsm) (c : Code) (evs : List Event) : (s.ended d a c evs).arg0 = s.arg0 := rfl
@[simp] theorem ended_arg1 (d a : Fsm) (c : Code) (evs : List Event) : (s.ended d a c evs).arg1 = s.arg1 := rfl
@[simp] theorem ended_arg2 (d a : Fsm) (c : Code) (evs : List Event) : (s.ended d a c evs).arg2 = s.arg2 := rfl
@[simp] theorem ended_arg3 (d a : Fsm) (c : Code) (evs : List Event) : (s.ended d a c evs).arg3 = s.arg3 := rfl
@[simp] theorem ended_arg4 (d a : Fsm) (c : Code) (evs : List Event) : (s.ended d a c evs).arg4 = s.arg4 := rfl
@[simp] theorem ended_arg5 (d a : Fsm) (c : Code) (evs : List Event) : (s.ended d a c evs).arg5 = s.arg5 := rfl
@[simp] theorem ended_fsm (d a : Fsm) (c : Code) (evs : List Event) : (s.ended d a c evs).fsm = a := rfl
@[simp] theorem ended_code (d a : Fsm) (c : Code) (evs : List Event) : (s.ended d a c evs).code = c := rfl
@[simp] theorem ended_opbusy (d a : Fsm) (c : Code) (evs : List Event) : (s.ended d a c evs).opbusy = false := rfl
@[simp] theorem ended_fb (d a : Fsm) (c : Code) (evs : List Event) : (s.ended d a c evs).fb = s.fb := rfl
@[simp] theorem ended_pins (d a : Fsm) (c : Code) (evs : List Event) : (s.ended d a c evs).pins = pinsAfter s.pins evs := rfl
@[simp] theorem ended_lut (d a : Fsm) (c : Code) (evs : List Event) : (s.ended d a c evs).lut = s.lut := rfl
@[simp] theorem ended_mem (d a : Fsm) (c : Code) (evs : List Event) : (s.ended d a c evs).mem = s.mem := rfl
@[simp] theorem ended_trace (d a : Fsm) (c : Code) (evs : List Event) : (s.ended d a c evs).trace = (evs.map (Traced.mk d)).reverse ++ s.trace := rfl
@[simp] theorem ended_host (d a : Fsm) (c : Code) (evs : List Event) : (s.ended d a c evs).host = s.host := rfl
@[simp] theorem ended_replies (d a : Fsm) (c : Code) (evs : List Event) : (s.ended d a c evs).replies = s.replies := rfl
@[simp] theorem ended_busyIn (d a : Fsm) (c : Code) (evs : List Event) : (s.ended d a c evs).busyIn = s.busyIn.drop (evs.countP Event.isBusy) := rfl
@[simp] theorem ended_initIn (d a : Fsm) (c : Code) (evs : List Event) : (s.ended d a c evs).initIn = s.initIn.drop (evs.countP Event.isHwInit) := rfl
@[simp] theorem ended_draws (d a : Fsm) (c : Code) (evs : List Event) : (s.ended d a c evs).draws = s.draws := rfl

end Sys2Proof.Machine
end

