-- ==== Sys2Proof/Laws/Port.lean ====
section
/-! SUPPORT. What the transport primitives and a byte sequence can do: each emits a list of events that
keeps the transfer protocol (42_controller_core.md R241), PINS follows the events, and nothing else
changes but the answers taken from the environment; and what they do when the panel is ready. -/

namespace Sys2Proof.Machine

/-! ### Event lists -/

@[simp] theorem portRun_nil (p : PortPhase) : portRun p [] = some p := rfl

theorem portRun_append (e f : List Event) :
    ∀ p, portRun p (e ++ f) = (portRun p e).bind fun q => portRun q f := by
  induction e with
  | nil => intro p; rfl
  | cons x r ih =>
    intro p
    simp only [List.cons_append, portRun]
    cases portStep p x with
    | none => rfl
    | some q => exact ih q

theorem portRun_between_append {e f : List Event} (he : portRun .between e = some .between)
    (hf : portRun .between f = some .between) : portRun .between (e ++ f) = some .between := by
  rw [portRun_append, he]; exact hf

theorem pinsAfter_append (p : Pins) (e f : List Event) :
    pinsAfter p (e ++ f) = pinsAfter (pinsAfter p e) f := List.foldl_append

/-- After a list of events that keeps the protocol, CS is high if it was before. -/
theorem pinsAfter_cs {e : List Event} :
    ∀ {ph q : PortPhase} {p : Pins}, portRun ph e = some q →
      (ph = .between ∨ ph = .dcDriven → p.cs = true) → (q = .between ∨ q = .dcDriven) →
      (pinsAfter p e).cs = true := by
  induction e with
  | nil =>
    intro ph q p h hp hq
    simp only [portRun, Option.some.injEq] at h
    subst h
    exact hp hq
  | cons x r ih =>
    intro ph q p h hp hq
    simp only [portRun] at h
    split at h
    · next ph' hph =>
      refine ih (p := pinsAfterEvent p x) h ?_ hq
      intro hph'
      cases ph <;> rcases x with ⟨_ | _ | _, _ | _⟩ | _ | _ | _ | _ <;>
        simp_all [portStep, pinsAfterEvent] <;> subst hph <;> simp_all
    · cases h

/-- The events keep the protocol and leave RST high. -/
abbrev Tidy (evs : List Event) : Prop :=
  portRun .between evs = some .between ∧ ∀ p : Pins, p.rst = true → (pinsAfter p evs).rst = true

theorem Tidy.append {e f : List Event} (he : Tidy e) (hf : Tidy f) : Tidy (e ++ f) :=
  ⟨portRun_between_append he.1 hf.1, fun p hp => by rw [pinsAfter_append]; exact hf.2 _ (he.2 p hp)⟩

theorem Tidy.nil : Tidy [] := ⟨rfl, fun _ h => h⟩

theorem Tidy.atRest {evs : List Event} {p : Pins} (h : Tidy evs) (hp : p.AtRest = true) :
    (pinsAfter p evs).AtRest = true := by
  simp only [Pins.AtRest, Bool.and_eq_true] at hp ⊢
  exact ⟨pinsAfter_cs h.1 (fun _ => hp.1) (.inl rfl), h.2 p hp.2⟩

theorem cmdEvents_tidy (b : Byte) : Tidy (cmdEvents b) := ⟨rfl, fun _ h => h⟩
theorem datEvents_tidy (b : Byte) : Tidy (datEvents b) := ⟨rfl, fun _ h => h⟩
theorem delay_tidy (ms : Nat) : Tidy [.delay ms] := ⟨rfl, fun _ h => h⟩
theorem busy_tidy (l : Bool) : Tidy [.busy l] := ⟨rfl, fun _ h => h⟩
theorem hwInit_tidy (r : Bool) : Tidy [.hwInit r] := ⟨rfl, fun _ h => h⟩
theorem resetPulseEvents_tidy (cfg : Config) : Tidy (resetPulseEvents cfg) := ⟨rfl, fun _ _ => rfl⟩

/-! ### What a run can do -/

/-- `t` is `s` after the events `evs`: the trace and PINS follow them, and only the environment's
answers differ besides. -/
abbrev Ran (s t : State) (evs : List Event) : Prop :=
  t = { s with
    trace := (evs.map (Traced.mk s.fsm)).reverse ++ s.trace
    pins := pinsAfter s.pins evs
    busyIn := t.busyIn
    initIn := t.initIn
    draws := t.draws }

theorem Ran.refl (s : State) : Ran s s [] := rfl

theorem Ran.trans {s t u : State} {e f : List Event} (h : Ran s t e) (k : Ran t u f) :
    Ran s u (e ++ f) := by
  rw [Ran] at *
  have hf : t.fsm = s.fsm := by rw [h]
  have htr : t.trace = (e.map (Traced.mk s.fsm)).reverse ++ s.trace := by rw [h]
  have hp : t.pins = pinsAfter s.pins e := by rw [h]
  rw [k, hf, htr, hp, h]
  simp [pinsAfter_append]

theorem emit_ran (e : Event) (s : State) (h : ∀ p, pinsAfterEvent p e = p) : Ran s (emit e s) [e] := by
  simp [Ran, emit, pinsAfter, h]

theorem setPin_ran (p : Pin) (l : Bool) (s : State) : Ran s (setPin p l s) [.pin p l] := by
  cases p <;> rfl

theorem delay_ran (ms : Nat) (s : State) : Ran s (delay ms s) [.delay ms] := emit_ran _ _ fun _ => rfl

theorem sendByte_ran (d : Bool) (b : Byte) (s : State) :
    Ran s (sendByte d b s) [.pin .dc d, .pin .cs false, .xfer b, .pin .cs true] :=
  (((setPin_ran .dc d s).trans (setPin_ran .cs false _)).trans
    (emit_ran (.xfer b) _ fun _ => rfl)).trans (setPin_ran .cs true _)

theorem sendCommand_ran (b : Byte) (s : State) : Ran s (sendCommand b s) (cmdEvents b) :=
  sendByte_ran false b s

theorem sendData_ran (b : Byte) (s : State) : Ran s (sendData b s) (datEvents b) :=
  sendByte_ran true b s

theorem resetPulse_ran (s : State) : Ran s (resetPulse s) (resetPulseEvents s.cfg) :=
  (((setPin_ran .rst false s).trans (delay_ran _ _)).trans (setPin_ran .rst true _)).trans
    (delay_ran _ _)

theorem sampleBusy_ran (l : Bool) (s : State) : Ran s (sampleBusy l s) [.busy l] := rfl

theorem drawBusy_ran (s : State) : Ran s (drawBusy s).2 [] := by
  unfold drawBusy; split <;> rfl

theorem drawInit_ran (s : State) : Ran s (drawInit s).2 [] := by
  unfold drawInit; split <;> rfl

theorem hwInit_ran (s : State) : Ran s (hwInit s).2 [.hwInit (hwInit s).1] :=
  (drawInit_ran s).trans (emit_ran (.hwInit (drawInit s).1) _ fun _ => rfl)

theorem drawBusy_sample_ran (s : State) :
    Ran s (sampleBusy (drawBusy s).1 (drawBusy s).2) [.busy (drawBusy s).1] :=
  (drawBusy_ran s).trans (sampleBusy_ran _ _)

/-- What a wait can do: it emits samples and delays and changes nothing but the environment's
answers, PINS and the trace. -/
theorem pollLoop_ran : ∀ (k : Nat) (s : State), ∃ evs, Ran s (pollLoop k s).2 evs ∧ Tidy evs
  | 0, s => ⟨_, drawBusy_sample_ran s, busy_tidy _⟩
  | k + 1, s => by
    by_cases h : (drawBusy s).1 = s.cfg.readyLevel
    · refine ⟨[.busy (drawBusy s).1], ?_, busy_tidy _⟩
      simp only [pollLoop, if_pos h]
      exact drawBusy_sample_ran s
    · obtain ⟨evs, hr, ht⟩ :=
        pollLoop_ran k (delay s.cfg.pollMs (sampleBusy (drawBusy s).1 (drawBusy s).2))
      refine ⟨_, ?_, ((busy_tidy (drawBusy s).1).append (delay_tidy s.cfg.pollMs)).append ht⟩
      simp only [pollLoop, if_neg h]
      exact ((drawBusy_sample_ran s).trans (delay_ran _ _)).trans hr

theorem waitIdle_ran (s : State) : ∃ evs, Ran s (waitIdle s).2 evs ∧ Tidy evs := pollLoop_ran _ s

/-- What a byte sequence can do, whether or not a wait in it times out. -/
theorem runPort_ran : ∀ (ops : List PortOp) (s : State), ∃ evs, Ran s (runPort ops s).2 evs ∧ Tidy evs
  | [], s => ⟨[], Ran.refl s, Tidy.nil⟩
  | .cmd b :: r, s => by
    obtain ⟨evs, hr, ht⟩ := runPort_ran r (sendCommand b s)
    exact ⟨_, (sendCommand_ran b s).trans hr, (cmdEvents_tidy b).append ht⟩
  | .dat b :: r, s => by
    obtain ⟨evs, hr, ht⟩ := runPort_ran r (sendData b s)
    exact ⟨_, (sendData_ran b s).trans hr, (datEvents_tidy b).append ht⟩
  | .delay ms :: r, s => by
    obtain ⟨evs, hr, ht⟩ := runPort_ran r (delay ms s)
    exact ⟨_, (delay_ran ms s).trans hr, (delay_tidy ms).append ht⟩
  | .wait :: r, s => by
    obtain ⟨e, he, hte⟩ := waitIdle_ran s
    simp only [runPort]
    split
    · obtain ⟨evs, hr, ht⟩ := runPort_ran r (waitIdle s).2
      exact ⟨_, he.trans hr, hte.append ht⟩
    · exact ⟨e, he, hte⟩

/-! ### What a run does when the panel answers -/

@[simp] theorem observed_nil (s : State) (d : Fsm) : s.observed d [] = s := rfl

theorem observed_append (s : State) (d : Fsm) (e f : List Event) :
    (s.observed d e).observed d f = s.observed d (e ++ f) := by
  simp [State.observed, pinsAfter_append, List.drop_drop]

theorem sendCommand_eq (b : Byte) (s : State) : sendCommand b s = s.observed s.fsm (cmdEvents b) := by
  have h := sendCommand_ran b s
  simp only [Ran, sendCommand_busyIn, sendCommand_initIn, sendCommand_draws] at h
  rw [h]; rfl

theorem sendData_eq (b : Byte) (s : State) : sendData b s = s.observed s.fsm (datEvents b) := by
  have h := sendData_ran b s
  simp only [Ran, sendData_busyIn, sendData_initIn, sendData_draws] at h
  rw [h]; rfl

theorem delay_eq (ms : Nat) (s : State) : delay ms s = s.observed s.fsm [.delay ms] := rfl

theorem resetPulse_eq (s : State) : resetPulse s = s.observed s.fsm (resetPulseEvents s.cfg) := by
  have h := resetPulse_ran s
  simp only [Ran, resetPulse_busyIn, resetPulse_initIn, resetPulse_draws] at h
  rw [h]; rfl

/-- The sample of a listed answer. -/
theorem drawBusy_sample_eq {s : State} {l : Bool} {r : List Bool} (h : s.busyIn = l :: r) :
    (drawBusy s).1 = l ∧
      sampleBusy (drawBusy s).1 (drawBusy s).2 = s.observed s.fsm [.busy l] := by
  simp only [drawBusy, h, true_and]
  simp [sampleBusy, emit, State.observed, pinsAfter, pinsAfterEvent, h, Event.isBusy, Event.isHwInit]

/-- A wait whose listed answers are `k` times not ready, with `k` at most the delays left, and then
ready. -/
theorem pollLoop_ready (n : Nat) : ∀ (k : Nat) (s : State) (rest : List Bool), k ≤ n →
    s.busyIn = List.replicate k (!s.cfg.readyLevel) ++ s.cfg.readyLevel :: rest →
    pollLoop n s = (true, s.observed s.fsm (waitEvents s.cfg k)) := by
  induction n with
  | zero =>
    intro k s rest hk h
    obtain rfl : k = 0 := by omega
    obtain ⟨h1, h2⟩ := drawBusy_sample_eq (s := s) (l := s.cfg.readyLevel) (r := rest) (by simpa using h)
    rw [h1] at h2
    simp [pollLoop, h2, waitEvents, h1]
  | succ n ih =>
    intro k s rest hk h
    cases k with
    | zero =>
      obtain ⟨h1, h2⟩ :=
        drawBusy_sample_eq (s := s) (l := s.cfg.readyLevel) (r := rest) (by simpa using h)
      rw [h1] at h2
      simp [pollLoop, h2, waitEvents, h1]
    | succ k =>
      have hb : s.busyIn = (!s.cfg.readyLevel) ::
          (List.replicate k (!s.cfg.readyLevel) ++ s.cfg.readyLevel :: rest) := by
        simpa [List.replicate_succ] using h
      obtain ⟨h1, h2⟩ := drawBusy_sample_eq hb
      have hne : (drawBusy s).1 ≠ s.cfg.readyLevel := by rw [h1]; cases s.cfg.readyLevel <;> decide
      simp only [pollLoop, if_neg hne, h2, delay_eq, observed_fsm, observed_append]
      rw [ih k _ rest (by omega) (by simp [hb, Event.isBusy, List.countP_cons])]
      simp [observed_append, waitEvents, List.replicate_succ]

/-- A wait with `n` delays left whose next `n + 1` listed answers are all not ready times out. -/
theorem pollLoop_timeout (n : Nat) : ∀ (s : State) (rest : List Bool),
    s.busyIn = List.replicate (n + 1) (!s.cfg.readyLevel) ++ rest →
    pollLoop n s = (false, s.observed s.fsm
      ((List.replicate n [Event.busy (!s.cfg.readyLevel), Event.delay s.cfg.pollMs]).flatten
        ++ [.busy (!s.cfg.readyLevel)])) := by
  induction n with
  | zero =>
    intro s rest h
    obtain ⟨h1, h2⟩ :=
      drawBusy_sample_eq (s := s) (l := !s.cfg.readyLevel) (r := rest) (by simpa using h)
    rw [h1] at h2
    simp [pollLoop, h2, h1]
  | succ n ih =>
    intro s rest h
    have hb : s.busyIn =
        (!s.cfg.readyLevel) :: (List.replicate (n + 1) (!s.cfg.readyLevel) ++ rest) := by
      simpa [List.replicate_succ] using h
    obtain ⟨h1, h2⟩ := drawBusy_sample_eq hb
    have hne : (drawBusy s).1 ≠ s.cfg.readyLevel := by rw [h1]; cases s.cfg.readyLevel <;> decide
    simp only [pollLoop, if_neg hne, h2, delay_eq, observed_fsm, observed_append]
    rw [ih _ rest (by simp [hb, Event.isBusy, List.countP_cons])]
    simp [observed_append, List.replicate_succ]

/-- How many waits a byte sequence has. -/
def waits (ops : List PortOp) : Nat := ops.countP (· == .wait)

@[simp] theorem waits_nil : waits [] = 0 := rfl
@[simp] theorem waits_cmd (b : Byte) (r : List PortOp) : waits (.cmd b :: r) = waits r := rfl
@[simp] theorem waits_dat (b : Byte) (r : List PortOp) : waits (.dat b :: r) = waits r := rfl
@[simp] theorem waits_delay (n : Nat) (r : List PortOp) : waits (.delay n :: r) = waits r := rfl
@[simp] theorem waits_wait (r : List PortOp) : waits (.wait :: r) = waits r + 1 := by
  simp [waits]
@[simp] theorem waits_append (a b : List PortOp) : waits (a ++ b) = waits a + waits b := by
  simp [waits]

/-- The events of a byte sequence whose `j`th wait takes `k j` not-ready samples. -/
def seqEvents (cfg : Config) : (Nat → Nat) → List PortOp → List Event
  | _, [] => []
  | k, .cmd b :: r => cmdEvents b ++ seqEvents cfg k r
  | k, .dat b :: r => datEvents b ++ seqEvents cfg k r
  | k, .delay ms :: r => .delay ms :: seqEvents cfg k r
  | k, .wait :: r => waitEvents cfg (k 0) ++ seqEvents cfg (fun j => k (j + 1)) r

/-- The events of a sequence followed by another, whose waits are numbered on. -/
theorem seqEvents_append (cfg : Config) : ∀ (a b : List PortOp) (k : Nat → Nat),
    seqEvents cfg k (a ++ b) = seqEvents cfg k a ++ seqEvents cfg (fun j => k (j + waits a)) b
  | [], b, k => rfl
  | .cmd x :: r, b, k => by simp [seqEvents, seqEvents_append cfg r b]
  | .dat x :: r, b, k => by simp [seqEvents, seqEvents_append cfg r b]
  | .delay x :: r, b, k => by simp [seqEvents, seqEvents_append cfg r b]
  | .wait :: r, b, k => by
    simp [seqEvents, seqEvents_append cfg r b, Nat.add_assoc]

/-- A wait with `k` not-ready samples takes `k + 1` answers. -/
theorem waitEvents_busy (cfg : Config) (k : Nat) : (waitEvents cfg k).countP Event.isBusy = k + 1 := by
  have : ∀ m : Nat, (List.replicate m [Event.busy (!cfg.readyLevel), Event.delay cfg.pollMs]).flatten.countP
      Event.isBusy = m := by
    intro m
    induction m with
    | zero => rfl
    | succ m ih => simp [List.replicate_succ, List.countP_cons, Event.isBusy, ih]
  simp [waitEvents, this, Event.isBusy]

/-- The first wait of a panel that answers each wait within the limit, and what is left for the rest. -/
theorem ReadyEach.first {s : State} {n : Nat} {k : Nat → Nat} (h : ReadyEach s (n + 1) k) :
    waitIdle s = (true, s.observed s.fsm (waitEvents s.cfg (k 0))) ∧
      ReadyEach (s.observed s.fsm (waitEvents s.cfg (k 0))) n fun j => k (j + 1) := by
  obtain ⟨hk, rest, hb⟩ := h
  rw [List.range_succ_eq_map, List.flatMap_cons, List.flatMap_map] at hb
  have hs : s.busyIn = List.replicate (k 0) (!s.cfg.readyLevel) ++ s.cfg.readyLevel ::
      (((List.range n).flatMap fun j =>
        List.replicate (k (j + 1)) (!s.cfg.readyLevel) ++ [s.cfg.readyLevel]) ++ rest) := by
    rw [← hb]; simp
  refine ⟨pollLoop_ready _ _ s _ (hk 0 (Nat.succ_pos n)) hs, fun j hj => hk (j + 1) (by omega), rest, ?_⟩
  simp only [observed_busyIn, observed_cfg, waitEvents_busy, hs]
  rw [List.append_cons, List.drop_left' (by simp)]

/-- A byte sequence on a panel that is ready within the limit at every wait: each element's events in
order, and true. -/
theorem runPort_readyEach : ∀ (ops : List PortOp) (k : Nat → Nat) (s : State), ReadyEach s (waits ops) k →
    runPort ops s = (true, s.observed s.fsm (seqEvents s.cfg k ops))
  | [], _, s, _ => rfl
  | .cmd b :: r, k, s, h => by
    simp only [runPort, sendCommand_eq]
    rw [runPort_readyEach r k _ (by simpa [ReadyEach, cmdEvents, Event.isBusy] using h)]
    simp [observed_append, seqEvents]
  | .dat b :: r, k, s, h => by
    simp only [runPort, sendData_eq]
    rw [runPort_readyEach r k _ (by simpa [ReadyEach, datEvents, Event.isBusy] using h)]
    simp [observed_append, seqEvents]
  | .delay ms :: r, k, s, h => by
    simp only [runPort, delay_eq]
    rw [runPort_readyEach r k _ (by simpa [ReadyEach, Event.isBusy] using h)]
    simp [observed_append, seqEvents]
  | .wait :: r, k, s, h => by
    rw [waits_wait] at h
    simp only [runPort, h.first.1]
    rw [if_pos trivial, runPort_readyEach r _ _ h.first.2]
    simp [observed_append, seqEvents]

/-- A panel that is ready at once answers each wait with no sample before. -/
theorem ReadyFor.each {s : State} {n : Nat} (h : ReadyFor s n) : ReadyEach s n fun _ => 0 := by
  refine ⟨fun _ _ => Nat.zero_le _, s.busyIn.drop n, ?_⟩
  have : ((List.range n).flatMap fun _ => List.replicate 0 (!s.cfg.readyLevel) ++ [s.cfg.readyLevel]) =
      s.busyIn.take n := by
    rw [h, List.replicate_zero, List.nil_append, ← List.map_eq_flatMap, List.map_const', List.length_range]
  rw [this, List.take_append_drop]

theorem seqEvents_zero (cfg : Config) : ∀ ops : List PortOp,
    seqEvents cfg (fun _ => 0) ops = ops.flatMap (PortOp.readyEvents cfg)
  | [] => rfl
  | .cmd _ :: r | .dat _ :: r | .delay _ :: r | .wait :: r => by
    simp [seqEvents, seqEvents_zero cfg r, PortOp.readyEvents, waitEvents]

/-- A byte sequence on a panel that is ready at once at every wait: each element's events in order,
and true. -/
theorem runPort_ready (ops : List PortOp) (s : State) (h : ReadyFor s (waits ops)) :
    runPort ops s = (true, s.observed s.fsm (ops.flatMap (PortOp.readyEvents s.cfg))) := by
  rw [runPort_readyEach ops _ s h.each, seqEvents_zero]

/-- A byte sequence followed by another, where the first does not time out. -/
theorem runPort_append : ∀ (a b : List PortOp) (s : State),
    runPort (a ++ b) s = if (runPort a s).1 then runPort b (runPort a s).2 else runPort a s
  | [], b, s => rfl
  | .cmd x :: r, b, s => runPort_append r b _
  | .dat x :: r, b, s => runPort_append r b _
  | .delay x :: r, b, s => runPort_append r b _
  | .wait :: r, b, s => by
    simp only [List.cons_append, runPort]
    split
    · exact runPort_append r b _
    · simp_all

/-- A byte sequence whose waits before `b` are answered within the limit and whose next wait is answered
at no sample: the events before it, the samples and delays of that wait, nothing after, and false. -/
theorem runPort_timeout (a b : List PortOp) (k : Nat → Nat) (s : State)
    (h : ReadyThenNever s (waits a) k) : runPort (a ++ .wait :: b) s =
      (false, s.observed s.fsm (seqEvents s.cfg k a ++ timeoutEvents s.cfg)) := by
  obtain ⟨hk, rest, hb⟩ := h
  have ha := runPort_readyEach a k s ⟨hk, _, by rw [← hb, List.append_assoc]⟩
  have hc : ∀ (ops : List PortOp) (k : Nat → Nat), (seqEvents s.cfg k ops).countP Event.isBusy =
      ((List.range (waits ops)).flatMap fun j =>
        List.replicate (k j) (!s.cfg.readyLevel) ++ [s.cfg.readyLevel]).length := by
    intro ops
    induction ops with
    | nil => intro k; rfl
    | cons o r ih =>
      intro k
      cases o with
      | wait =>
        rw [waits_wait, List.range_succ_eq_map, List.flatMap_cons, List.flatMap_map, seqEvents,
          List.countP_append, ih, waitEvents_busy, List.length_append]
        simp
      | _ => simp [seqEvents, ih, cmdEvents, datEvents, Event.isBusy]
  have hw : waitIdle (s.observed s.fsm (seqEvents s.cfg k a)) =
      (false, (s.observed s.fsm (seqEvents s.cfg k a)).observed s.fsm (timeoutEvents s.cfg)) := by
    refine pollLoop_timeout _ _ rest ?_
    simp only [observed_busyIn, observed_cfg, hc, ← hb, List.append_assoc]
    exact List.drop_left
  rw [runPort_append, ha]
  simp only [runPort, hw, if_true, Bool.false_eq_true, if_false, observed_append]

end Sys2Proof.Machine
end

