-- ==== Sys2Proof/Laws/Exec.lean ====
section
/-! SUPPORT. Everything one operation can do, said once: STATUS alone, the geometry registers, DMEM of
the frame, or a run of the panel port (40_framebuffer.md R140, 42_controller_core.md R229 to R232,
60_exceptions.md R349). Invariants of the step follow from `exec_effect`. -/

namespace Sys2Proof.Machine

theorem s16_range (w : Word) : -32768 ≤ s16 w ∧ s16 w ≤ 32767 := by
  unfold s16
  have h1 := BitVec.toInt_lt (x := w)
  have h2 := BitVec.le_toInt (x := w)
  norm_num at h1 h2
  omega

theorem u16_range (w : Word) : 0 ≤ u16 w ∧ u16 w ≤ 65535 := by
  unfold u16
  have := w.isLt
  omega

theorem toWord_toNat {v : Int} (h0 : 0 ≤ v) (h1 : v < 65536) : ((toWord v).toNat : Int) = v := by
  unfold toWord
  rw [BitVec.toNat_ofInt]
  norm_num
  omega

theorem u16_toWord {v : Int} (h0 : 0 ≤ v) (h1 : v < 65536) : u16 (toWord v) = v := toWord_toNat h0 h1

theorem toWord_u16 (w : Word) : toWord (u16 w) = w := by
  apply BitVec.eq_of_toNat_eq
  have h := u16_range w
  have := toWord_toNat h.1 (by omega : u16 w < 65536)
  unfold u16 at this
  exact_mod_cast this

theorem ceil8_mul8 (w : Int) : ∃ k : Int, ceil8 w = 8 * k ∧ w ≤ 8 * k ∧ 8 * k < w + 8 :=
  ⟨(w + 7) / 8, by unfold ceil8; ring, by omega, by omega⟩

/-- A frame of width `8 * k` and height `h` has `k * h` bytes. -/
theorem bytes_of_width (k h : Int) : 8 * k * h / 8 = k * h := by
  rw [mul_assoc, Int.mul_ediv_cancel_left _ (by decide)]

/-- The geometry invariant (R43) from facts in integers. -/
theorem FbRegs.Wf.of_int {fb : FbRegs} {k : Int} (hw : u16 fb.width = 8 * k) (hk : 0 < k)
    (hh : 0 < u16 fb.height) (hc : k * u16 fb.height ≤ u16 fb.cap) (hb : u16 fb.base + u16 fb.cap ≤ 65536) :
    fb.Wf := by
  have hpos : 0 < k * u16 fb.height := by positivity
  simp only [u16_eq] at *
  obtain ⟨n, rfl⟩ : ∃ n : Nat, k = n := ⟨k.toNat, by omega⟩
  have hw' : fb.width.toNat = 8 * n := by omega
  have hc' : n * fb.height.toNat ≤ fb.cap.toNat := by exact_mod_cast hc
  refine ⟨by omega, .inr ⟨by omega, by omega, by omega, ?_, by omega⟩⟩
  rw [hw', Nat.mul_assoc, Nat.mul_div_cancel_left _ (by decide)]
  exact hc'

/-- The facts R43 gives where a buffer is bound, in integers. -/
theorem FbRegs.Wf.bound {fb : FbRegs} (h : fb.Wf) (hc : u16 fb.cap ≠ 0) :
    ∃ k : Int, u16 fb.width = 8 * k ∧ 0 < k ∧ 0 < u16 fb.height ∧ k * u16 fb.height ≤ u16 fb.cap ∧
      u16 fb.base + u16 fb.cap ≤ 65536 := by
  obtain ⟨h8, ⟨h0, _, _⟩ | ⟨_, hw, hh, hb, ha⟩⟩ := h
  · rw [h0] at hc; exact absurd rfl hc
  · simp only [u16_eq] at *
    obtain ⟨k, hk⟩ : ∃ k : Nat, fb.width.toNat = 8 * k := ⟨fb.width.toNat / 8, by omega⟩
    rw [hk, Nat.mul_assoc, Nat.mul_div_cancel_left _ (by decide)] at hb
    exact ⟨k, by omega, by omega, by omega, by exact_mod_cast hb, by omega⟩

/-- What FB_INIT can do (R141). -/
theorem fbInit_cases (s : State) :
    fbInit s = s.failed .invalidGeometry ∨
      ∃ k : Int, ceil8 (s16 s.arg2) = 8 * k ∧ 0 < k ∧ k ≤ 4096 ∧ 0 < s16 s.arg3 ∧
        k * s16 s.arg3 ≤ u16 s.arg1 ∧ u16 s.arg0 + u16 s.arg1 ≤ 65536 ∧
        fbInit s = { s with
          fb := { base := s.arg0, cap := s.arg1, width := toWord (8 * k), height := s.arg3,
                  rot := .r0, inv := s.fb.inv }
          code := .ok
          opbusy := false } := by
  unfold fbInit
  dsimp only
  split
  · exact .inl rfl
  · split
    · exact .inl rfl
    · split
      · exact .inl rfl
      · next h1 h2 h3 =>
        obtain ⟨k, hk, hk0, hk1⟩ := ceil8_mul8 (s16 s.arg2)
        have hr := s16_range s.arg2
        have hr3 := s16_range s.arg3
        refine .inr ⟨k, hk, by omega, by omega, by omega, ?_, by omega, ?_⟩
        · unfold fbBytes at h3
          rw [hk, bytes_of_width] at h3
          omega
        · have e3 : toWord (s16 s.arg3) = s.arg3 := by unfold toWord s16; simp
          rw [hk, toWord_u16, toWord_u16, e3]
          rfl

theorem fbInit_wf {k h : Int} {base cap height : Word} (hk : 0 < k) (hk' : k ≤ 4096)
    (hh : s16 height = h) (h0 : 0 < h) (hc : k * h ≤ u16 cap) (hb : u16 base + u16 cap ≤ 65536)
    (r : Rotation) (v : Bool) :
    FbRegs.Wf ⟨base, cap, toWord (8 * k), height, r, v⟩ := by
  have hu : u16 height = h := by
    subst hh
    unfold s16 at *
    unfold u16
    rw [BitVec.toInt_eq_toNat_cond] at *
    split at * <;> omega
  refine FbRegs.Wf.of_int (k := k) (u16_toWord (by omega) (by omega)) hk (by simp only [hu]; exact h0) ?_ hb
  simp only [hu]; exact hc

/-- What FB_SET_WIDTH can do (R143). -/
theorem fbSetWidth_cases (s : State) :
    fbSetWidth s = s.failed .invalidGeometry ∨
      ∃ k : Int, ceil8 (s16 s.arg0) = 8 * k ∧ 0 < k ∧ k ≤ 4096 ∧ u16 s.fb.cap ≠ 0 ∧
        k * u16 s.fb.height ≤ u16 s.fb.cap ∧
        fbSetWidth s = { s with
          fb := { s.fb with width := toWord (8 * k) }, code := .ok, opbusy := false } := by
  unfold fbSetWidth
  dsimp only
  split
  · exact .inl rfl
  · split
    · exact .inl rfl
    · next h1 h2 =>
      obtain ⟨k, hk, hk0, hk1⟩ := ceil8_mul8 (s16 s.arg0)
      have hr := s16_range s.arg0
      refine .inr ⟨k, hk, by omega, by omega, by omega, ?_, ?_⟩
      · unfold fbBytes at h2
        rw [hk, bytes_of_width] at h2
        omega
      · rw [hk]; rfl

/-- What FB_SET_HEIGHT can do (R144). -/
theorem fbSetHeight_cases (s : State) :
    fbSetHeight s = s.failed .invalidGeometry ∨
      (0 < s16 s.arg0 ∧ u16 s.fb.cap ≠ 0 ∧ u16 s.fb.width * s16 s.arg0 / 8 ≤ u16 s.fb.cap ∧
        fbSetHeight s = { s with
          fb := { s.fb with height := s.arg0 }, code := .ok, opbusy := false }) := by
  unfold fbSetHeight
  dsimp only
  split
  · exact .inl rfl
  · split
    · exact .inl rfl
    · next h1 h2 =>
      have e : toWord (s16 s.arg0) = s.arg0 := by unfold toWord s16; simp
      refine .inr ⟨by omega, by omega, by omega, ?_⟩
      rw [e]; rfl

/-- The geometry invariant after FB_INIT, FB_SET_WIDTH or FB_SET_HEIGHT. -/
theorem fbInit_keeps {s : State} (h : s.fb.Wf) : (fbInit s).fb.Wf := by
  rcases fbInit_cases s with he | ⟨k, _, hk, hk', h0, hc, hb, he⟩ <;> rw [he]
  · exact h
  · exact fbInit_wf hk hk' rfl h0 hc hb _ _

theorem fbSetWidth_keeps {s : State} (h : s.fb.Wf) : (fbSetWidth s).fb.Wf := by
  rcases fbSetWidth_cases s with he | ⟨k, _, hk, hk', hcap, hc, he⟩ <;> rw [he]
  · exact h
  · obtain ⟨_, _, _, hh, _, hb⟩ := h.bound hcap
    exact FbRegs.Wf.of_int (k := k) (u16_toWord (by omega) (by omega)) hk hh hc hb

theorem fbSetHeight_keeps {s : State} (h : s.fb.Wf) : (fbSetHeight s).fb.Wf := by
  rcases fbSetHeight_cases s with he | ⟨h0, hcap, hc, he⟩ <;> rw [he]
  · exact h
  · obtain ⟨k, hw, hk, _, _, hb⟩ := h.bound hcap
    have hu : u16 s.arg0 = s16 s.arg0 := by
      unfold s16 at *
      unfold u16
      rw [BitVec.toInt_eq_toNat_cond] at *
      split at * <;> omega
    rw [hw, bytes_of_width] at hc
    exact FbRegs.Wf.of_int hw hk (by simp only [hu]; exact h0) (by simp only [hu]; exact hc) hb

/-! ### One operation -/

/-- What an operation can leave (see the file's header). -/
inductive Effect (i : Instr) (s : State) : State → Prop
  /-- STATUS alone -/
  | status (c : Code) : Effect i s (s.failed c)
  /-- the geometry registers, keeping R43 -/
  | geometry (fb : FbRegs) (h : s.fb.Wf → fb.Wf) :
      Effect i s { s with fb := fb, code := .ok, opbusy := false }
  /-- DMEM, by a drawing operation -/
  | drawn (m : Memory) (hd : i.draws = true) (hm : Memory.wf s.mem = true → Memory.wf m = true) :
      Effect i s (s.drawn m)
  /-- a run of the panel port: events that keep the protocol, and a stable state after -/
  | port (after : Fsm) (c : Code) (evs : List Traced) (lut : Lut) (busyIn initIn : List Bool)
      (draws : Nat) (ha : after.stable = true) (ht : Tidy (evs.map Traced.event))
      (hl : s.cfg.variant = .a → lut = s.lut) (hd : i.allowed.isSome = true) :
      Effect i s { s with
        fsm := after, code := c, opbusy := false, trace := evs.reverse ++ s.trace
        pins := pinsAfter s.pins (evs.map Traced.event), lut := lut
        busyIn := busyIn, initIn := initIn, draws := draws }

/-- What a run holding `s.fsm` leaves when the operation ends with `after` and `c`. -/
theorem Ran.effect {i : Instr} {s t u : State} {f : Fsm} {evs : List Event} (h : Ran (setFsm f s) t evs)
    (ht : Tidy evs) {after : Fsm} {c : Code} (ha : after.stable = true) (hi : i.allowed.isSome = true)
    (hu : u = { t with fsm := after, code := c, opbusy := false }) : Effect i s u := by
  have := Effect.port (i := i) (s := s) after c (evs.map (Traced.mk f)) s.lut t.busyIn t.initIn t.draws ha
    (by simpa [List.map_map, Function.comp_def] using ht) (fun _ => rfl) hi
  convert this using 1
  rw [hu, h]
  simp [List.map_map, Function.comp_def, setFsm]

/-- A run that ends an operation, timed out or not. -/
theorem endRun_effect {i : Instr} {s : State} {f : Fsm} {r : Bool × State} {evs : List Event}
    (h : Ran (setFsm f s) r.2 evs) (ht : Tidy evs) {after : Fsm} (ha : after.stable = true)
    (hi : i.allowed.isSome = true) : Effect i s (endRun after r) := by
  unfold endRun
  split
  · exact h.effect ht ha hi rfl
  · exact h.effect ht (after := .uninitialized) rfl hi rfl

theorem runAs_effect {i : Instr} (during after : Fsm) (ops : List PortOp) (s : State)
    (ha : after.stable = true) (hi : i.allowed.isSome = true) :
    Effect i s (runAs during after ops s) := by
  obtain ⟨evs, hr, ht⟩ := runPort_ran ops (setFsm during s)
  exact endRun_effect hr ht ha hi

theorem guarded_effect {i : Instr} (allowed : List Fsm) {body : State → State} (s : State)
    (h : allowed.contains s.fsm = true → Effect i s (body s)) : Effect i s (guarded allowed body s) := by
  unfold guarded
  split
  · exact h (by assumption)
  · exact .status .invalidState

theorem onVariant_effect {i : Instr} (v : Variant) {body : State → State} (s : State)
    (h : s.cfg.variant = v → Effect i s (body s)) : Effect i s (onVariant v body s) := by
  unfold onVariant
  split
  · exact h (by assumption)
  · exact .status .illegalOp

theorem setFsm_self (s : State) : setFsm s.fsm s = s := rfl

theorem idle_of_guard {s : State} (h : [Fsm.idle].contains s.fsm = true) : s.fsm = .idle := by
  simpa using h

/-- The LUT upload with the LUT_CUR write before it, and STATE as it was. -/
theorem setLutB_effect {i : Instr} {s s0 : State} {evs0 : List Event} {f : Fsm} (sel : LutSel)
    (h0 : Ran (setFsm f s0) s evs0) (ht0 : Tidy evs0) (hb : s0.cfg.variant = .b)
    (hi : i.allowed.isSome = true) : Effect i s0 (endRun .idle (setLutB sel s)) := by
  obtain ⟨evs, hr, ht⟩ := runPort_ran (uploadLut s.cfg (lutFor sel s)) (setLut (lutFor sel s) s)
  have hv : s0.cfg.variant = .a → lutFor sel s = s0.lut := by rw [hb]; intro h; cases h
  have key : ∀ (after : Fsm) (c : Code), after.stable = true →
      Effect i s0 { (setLutB sel s).2 with fsm := after, code := c, opbusy := false } := by
    intro after c ha
    have := Effect.port (i := i) (s := s0) after c ((evs0 ++ evs).map (Traced.mk f)) (lutFor sel s)
      (setLutB sel s).2.busyIn (setLutB sel s).2.initIn (setLutB sel s).2.draws ha
      (by simpa [List.map_map, Function.comp_def] using ht0.append ht) hv hi
    convert this using 1
    have hf : s.fsm = f := by rw [h0]; rfl
    have htr : s.trace = (evs0.map (Traced.mk f)).reverse ++ s0.trace := by rw [h0]; rfl
    have hp : s.pins = pinsAfter s0.pins evs0 := by rw [h0]; rfl
    have e := hr
    rw [Ran] at e
    change (setLutB sel s).2 = _ at e
    rw [e]
    simp only [setLut_trace, setLut_pins, setLut_fsm, hf, htr, hp]
    rw [h0]
    simp [List.map_map, Function.comp_def, setFsm, setLut, pinsAfter_append]
  unfold endRun
  split
  · exact key .idle .ok rfl
  · exact key .uninitialized .hardwareFault rfl

theorem runInit_effect {i : Instr} {s : State} {body : State → Bool × State}
    (hi : i.allowed.isSome = true)
    (h : ∀ t evs, Ran (setFsm .uninitialized s) t evs → Tidy evs → Effect i s (endRun .idle (body t))) :
    Effect i s (runInit body s) := by
  unfold runInit
  dsimp only
  have hr := hwInit_ran (setFsm .uninitialized s)
  split
  · exact h _ _ (hr.trans (resetPulse_ran _)) ((hwInit_tidy _).append (resetPulseEvents_tidy _))
  · have hf : (hwInit (setFsm .uninitialized s)).2.fsm = .uninitialized := by rw [hr]; rfl
    refine hr.effect (hwInit_tidy _) (after := .uninitialized) (c := .hardwareInitFailure) rfl hi ?_
    generalize (hwInit (setFsm .uninitialized s)).2 = t at hf
    cases t
    simp only at hf
    subst hf
    rfl

/-- Everything one operation can do: it always answers a next state, and that state is one of
`Effect`'s. -/
theorem exec_effect (i : Instr) (s : State) : ∃ t, exec i s = .next t ∧ Effect i s t := by
  cases i with
  | nop => exact ⟨_, rfl, .status .ok⟩
  | fbInit =>
    refine ⟨_, rfl, ?_⟩
    rcases fbInit_cases s with he | ⟨k, _, hk, hk', h0, hc, hb, he⟩ <;> rw [he]
    · exact .status _
    · exact .geometry _ fun _ => fbInit_wf hk hk' rfl h0 hc hb _ _
  | fbSetRotation r => exact ⟨_, rfl, .geometry { s.fb with rot := r } fun h => h⟩
  | fbSetWidth =>
    refine ⟨_, rfl, ?_⟩
    have hk := fbSetWidth_keeps (s := s)
    rcases fbSetWidth_cases s with he | ⟨k, _, _, _, _, _, he⟩ <;> rw [he] at hk ⊢
    · exact .status _
    · exact .geometry _ hk
  | fbSetHeight =>
    refine ⟨_, rfl, ?_⟩
    have hk := fbSetHeight_keeps (s := s)
    rcases fbSetHeight_cases s with he | ⟨_, _, _, he⟩ <;> rw [he] at hk ⊢
    · exact .status _
    · exact .geometry _ hk
  | fbSetInvert v => exact ⟨_, rfl, .geometry { s.fb with inv := v } fun h => h⟩
  | fbClear c => exact ⟨_, rfl, .drawn _ rfl (paintClear_onlyPlots _).wf⟩
  | fbDrawAbsPixel c => exact ⟨_, rfl, .drawn _ rfl fun h => putAbs_wf h _ _ _ c⟩
  | fbDrawPixel c => exact ⟨_, rfl, .drawn _ rfl (Surface.put_onlyPlots _ _ _).wf⟩
  | fbDrawChar c => exact ⟨_, rfl, .drawn _ rfl (glyph_onlyPlots _ _ _ _ _).wf⟩
  | fbDrawString c => exact ⟨_, rfl, .drawn _ rfl (stringLoop_onlyPlots _ _ _ _ _ _).wf⟩
  | fbDrawLine c => exact ⟨_, rfl, .drawn _ rfl (drawPoints_onlyPlots _ _).wf⟩
  | fbDrawHline c => exact ⟨_, rfl, .drawn _ rfl (drawPoints_onlyPlots _ _).wf⟩
  | fbDrawVline c => exact ⟨_, rfl, .drawn _ rfl (drawPoints_onlyPlots _ _).wf⟩
  | fbDrawRect c => exact ⟨_, rfl, .drawn _ rfl (drawPoints_onlyPlots _ _).wf⟩
  | fbDrawFilledRect c => exact ⟨_, rfl, .drawn _ rfl (drawPoints_onlyPlots _ _).wf⟩
  | fbDrawCircle c => exact ⟨_, rfl, .drawn _ rfl (drawPoints_onlyPlots _ _).wf⟩
  | fbDrawFilledCircle c => exact ⟨_, rfl, .drawn _ rfl (drawPoints_onlyPlots _ _).wf⟩
  | ctlReset =>
    exact ⟨_, rfl, guarded_effect _ s fun _ =>
      (resetPulse_ran (setFsm .uninitialized s)).effect (resetPulseEvents_tidy _)
        (after := .uninitialized) rfl rfl rfl⟩
  | ctlInitA =>
    refine ⟨_, rfl, onVariant_effect _ s fun _ => guarded_effect _ s fun _ => runInit_effect rfl ?_⟩
    intro t evs hr ht
    obtain ⟨evs', hr', ht'⟩ := runPort_ran (initA t.cfg) t
    exact endRun_effect (hr.trans hr') (ht.append ht') rfl rfl
  | ctlInitB sel =>
    refine ⟨_, rfl, onVariant_effect _ s fun hv => guarded_effect _ s fun _ => runInit_effect rfl ?_⟩
    intro t evs hr ht
    obtain ⟨evs', hr', ht'⟩ := runPort_ran (initB t.cfg) t
    unfold runInitB
    dsimp only
    split
    · exact setLutB_effect sel (hr.trans hr') (ht.append ht') hv rfl
    · exact endRun_effect (hr.trans hr') (ht.append ht') rfl rfl
  | ctlDisplayFrame => exact ⟨_, rfl, guarded_effect _ s fun _ => runAs_effect _ _ _ s rfl rfl⟩
  | ctlSleep => exact ⟨_, rfl, guarded_effect _ s fun _ => runAs_effect _ _ _ s rfl rfl⟩
  | ctlClearFrameMemory => exact ⟨_, rfl, guarded_effect _ s fun _ => runAs_effect _ _ _ s rfl rfl⟩
  | aSetPartialWindow black red =>
    refine ⟨_, rfl, onVariant_effect _ s fun _ => guarded_effect _ s fun _ => ?_⟩
    unfold runPartialA
    split
    · exact .status .ok
    · exact runAs_effect _ _ _ s rfl rfl
  | aSetPartialWindowBlack black =>
    refine ⟨_, rfl, onVariant_effect _ s fun _ => guarded_effect _ s fun _ => ?_⟩
    unfold runPartialA
    split
    · exact .status .ok
    · exact runAs_effect _ _ _ s rfl rfl
  | bSetLut sel =>
    refine ⟨_, rfl, onVariant_effect _ s fun hv => guarded_effect _ s fun _ => ?_⟩
    exact setLutB_effect (f := s.fsm) sel (Ran.refl s) Tidy.nil hv rfl
  | bSetMemoryArea =>
    refine ⟨_, rfl, onVariant_effect _ s fun _ => guarded_effect _ s fun hg => ?_⟩
    unfold runSetMemoryArea
    dsimp only
    split
    · obtain ⟨evs, hr, ht⟩ := runPort_ran
        (areaB s.cfg (s16 s.arg0 / 8) (s16 s.arg2 / 8) (s16 s.arg1) (s16 s.arg3)) s
      exact endRun_effect (f := s.fsm) hr ht rfl rfl
    · exact .status .invalidGeometry
  | bSetMemoryPointer =>
    refine ⟨_, rfl, onVariant_effect _ s fun _ => guarded_effect _ s fun hg => ?_⟩
    unfold runSetMemoryPointer
    dsimp only
    split
    · obtain ⟨evs, hr, ht⟩ := runPort_ran (pointerB s.cfg (s16 s.arg0 / 8) (s16 s.arg1)) s
      exact endRun_effect (f := s.fsm) hr ht rfl rfl
    · exact .status .invalidGeometry
  | bSetFrameMemoryAt =>
    refine ⟨_, rfl, onVariant_effect _ s fun _ => guarded_effect _ s fun _ => ?_⟩
    unfold runSetFrameMemoryAt
    split
    · exact .status .ok
    · exact runAs_effect _ _ _ s rfl rfl
  | bSetFrameMemory =>
    exact ⟨_, rfl, onVariant_effect _ s fun _ => guarded_effect _ s fun _ => runAs_effect _ _ _ s rfl rfl⟩

end Sys2Proof.Machine
end

