-- ==== Sys2Proof/Laws/Abandon.lean ====
section
/-! SUPPORT. What a block reset during an operation can do (70_reset_and_hazards.md R380): the events it
lets stand are the operation's first, DMEM is what some of the operation's pixel writes leave, and a
reset late enough finds all of them. -/

namespace Sys2Proof.Machine

/-! ### A drawing cut short and the whole drawing -/

/-- `m'` is `m` after some calls of `PutAbs` in colour `c`. -/
inductive Drawn (fb : FbRegs) (c : Colour) : Memory → Memory → Prop
  | refl (m : Memory) : Drawn fb c m m
  | plot {m m' : Memory} (x y : Int) (h : Drawn fb c m m') : Drawn fb c m (putAbs fb x y c m')

/-- What every call of `PutAbs` keeps, a drawing keeps. -/
theorem Drawn.keeps {fb : FbRegs} {c : Colour} {P : Memory → Prop} {m m' : Memory} (h : Drawn fb c m m')
    (hp : ∀ x y m, P m → P (putAbs fb x y c m)) (hm : P m) : P m' := by
  induction h with
  | refl => exact hm
  | plot x y _ ih => exact hp x y _ ih

/-- What a run with a count of calls left and the run without one have in common: the same memory, or
the count used up and only calls of `PutAbs` between. -/
abbrev Behind (fb : FbRegs) (c : Colour) (q : Nat × Memory) (m : Memory) : Prop :=
  q.2 = m ∨ (q.1 = 0 ∧ Drawn fb c q.2 m)

/-- A drawing with a count `f` and without one `g` stay together. -/
abbrev Follows (fb : FbRegs) (c : Colour) (f : Nat × Memory → Nat × Memory) (g : Memory → Memory) : Prop :=
  ∀ q m, Behind fb c q m → Behind fb c (f q) (g m)

section Follows

variable (fb : FbRegs) (c : Colour)

theorem plot_follows (x y : Int) :
    Follows fb c ((Surface.counted fb c).plot x y) ((Surface.dmem fb c).plot x y) := by
  rintro ⟨n, m⟩ m' (rfl | ⟨rfl, h⟩)
  · cases n with
    | zero => exact .inr ⟨rfl, .plot x y (.refl _)⟩
    | succ n => exact .inl rfl
  · exact .inr ⟨rfl, .plot x y h⟩

theorem put_follows (x y : Int) :
    Follows fb c ((Surface.counted fb c).put x y) ((Surface.dmem fb c).put x y) := by
  intro q m h
  by_cases hr : rotatedInBounds fb x y = true
  · rw [Surface.put_inside _ hr, Surface.put_inside _ hr]
    exact plot_follows fb c _ _ q m h
  · rw [Surface.put_outside _ hr, Surface.put_outside _ hr]
    exact h

theorem foldl_follows {α : Type} {f : α → Nat × Memory → Nat × Memory} {g : α → Memory → Memory}
    (h : ∀ p, Follows fb c (f p) (g p)) (l : List α) :
    Follows fb c (fun q => l.foldl (fun q p => f p q) q) (fun m => l.foldl (fun m p => g p m) m) := by
  induction l with
  | nil => exact fun q m hq => hq
  | cons p r ih => exact fun q m hq => ih _ _ (h p q m hq)

/-- A drawing whose count is used up, whatever it reads, beside any drawing on DMEM. -/
theorem follows_stopped {f : Nat × Memory → Nat × Memory} {g : Memory → Memory}
    (hf : OnlyPlots (Surface.counted fb c) f) (hg : OnlyPlots (Surface.dmem fb c) g) {q : Nat × Memory}
    {m : Memory} (hq : q.1 = 0) (h : Drawn fb c q.2 m) : Behind fb c (f q) (g m) := by
  obtain ⟨n, m0⟩ := q
  obtain rfl : n = 0 := hq
  rw [hf.cut_zero]
  exact .inr ⟨rfl, hg (fun m' => Drawn fb c m0 m') (fun x y _ hp => .plot x y hp) m h⟩

theorem glyphRow_follows (fw x y p : Int) :
    Follows fb c (glyphRow (Surface.counted fb c) fw x y p) (glyphRow (Surface.dmem fb c) fw x y p) := by
  rintro q m (rfl | ⟨hq, h⟩)
  · -- pass by pass: the same byte and memory, or the count used up
    have key : ∀ n : Nat,
        let a := upTo n (glyphPixel (Surface.counted fb c) x y p) (0, q)
        let b := upTo n (glyphPixel (Surface.dmem fb c) x y p) (0, q.2)
        (a.1 = b.1 ∧ a.2.2 = b.2) ∨ (a.2.1 = 0 ∧ Drawn fb c a.2.2 b.2) := by
      intro n
      induction n with
      | zero => exact .inl ⟨rfl, rfl⟩
      | succ n ih =>
        simp only [upTo]
        rcases ih with ⟨h1, h2⟩ | ⟨h1, h2⟩
        · generalize upTo n (glyphPixel (Surface.counted fb c) x y p) (0, q) = a at *
          generalize upTo n (glyphPixel (Surface.dmem fb c) x y p) (0, q.2) = b at *
          obtain ⟨ab, aq⟩ := a
          obtain ⟨bb, bm⟩ := b
          simp only at h1 h2
          subst h1
          have hbyte : glyphByte (Surface.counted fb c) p n (ab, aq) =
              glyphByte (Surface.dmem fb c) p n (ab, bm) := by subst h2; rfl
          unfold glyphPixel
          dsimp only
          rw [hbyte]
          generalize glyphByte (Surface.dmem fb c) p n (ab, bm) = byte
          by_cases hb : byte &&& (0x80#8 >>> (n % 8)) ≠ 0
          · rw [if_pos hb, if_pos hb]
            rcases put_follows fb c (x + n) y aq bm (.inl h2) with h | h
            · exact .inl ⟨rfl, h⟩
            · exact .inr h
          · rw [if_neg hb, if_neg hb]
            exact .inl ⟨rfl, h2⟩
        · generalize upTo n (glyphPixel (Surface.counted fb c) x y p) (0, q) = a at *
          generalize upTo n (glyphPixel (Surface.dmem fb c) x y p) (0, q.2) = b at *
          have ha : (glyphPixel (Surface.counted fb c) x y p n a).2 = a.2 := by
            rcases glyphPixel_cases (Surface.counted fb c) x y p n a with h | h <;> rw [h]
            obtain ⟨ab, an, am⟩ := a
            simp only at h1
            subst h1
            exact (Surface.put_onlyPlots _ _ _).cut_zero am
          rw [ha]
          refine .inr ⟨h1, ?_⟩
          rcases glyphPixel_cases (Surface.dmem fb c) x y p n b with h | h <;> rw [h]
          · exact h2
          · exact (Surface.put_onlyPlots (Surface.dmem fb c) _ _) (fun m' => Drawn fb c a.2.2 m')
              (fun x y _ hp => .plot x y hp) _ h2
    rcases key fw.toNat with ⟨_, h⟩ | h
    · exact .inl h
    · exact .inr h
  · exact follows_stopped fb c (glyphRow_onlyPlots _ _ _ _ _) (glyphRow_onlyPlots _ _ _ _ _) hq h

theorem upTo_follows {f : Nat → Nat × Memory → Nat × Memory} {g : Nat → Memory → Memory}
    (h : ∀ j, Follows fb c (f j) (g j)) (n : Nat) : Follows fb c (upTo n f) (upTo n g) := by
  intro q m hq
  induction n with
  | zero => exact hq
  | succ n ih => exact h n _ _ ih

theorem glyph_follows (f : Font) (x y : Int) (ch : Byte) :
    Follows fb c (glyph (Surface.counted fb c) f x y ch) (glyph (Surface.dmem fb c) f x y ch) :=
  upTo_follows fb c (fun _ => glyphRow_follows fb c _ _ _ _) _

theorem stringLoop_follows (f : Font) (y : Int) :
    ∀ (n : Nat) (t col : Int), Follows fb c (stringLoop (Surface.counted fb c) f y n t col)
      (stringLoop (Surface.dmem fb c) f y n t col)
  | 0, _, _ => fun _ _ h => h
  | n + 1, t, col => by
    rintro q m (rfl | ⟨hq, h⟩)
    · by_cases h0 : memRead q.2 t = 0
      · rw [stringLoop_end _ _ _ _ _ h0, stringLoop_end _ _ _ _ _ h0]
        exact .inl rfl
      · rw [stringLoop_next _ _ _ _ _ h0, stringLoop_next _ _ _ _ _ h0]
        exact stringLoop_follows f y n _ _ _ _ (glyph_follows fb c f col y _ q _ (.inl rfl))
    · exact follows_stopped fb c (stringLoop_onlyPlots _ _ _ _ _ _) (stringLoop_onlyPlots _ _ _ _ _ _) hq h

end Follows

/-! ### A count that is large enough -/

/-- With enough calls allowed the drawing with a count is the drawing, each call taken off the count. -/
abbrev Suffices (f : Nat × Memory → Nat × Memory) (g : Memory → Memory) : Prop :=
  ∀ m, ∃ n, ∀ j, f (n + j, m) = (j, g m)

section Suffices

variable (fb : FbRegs) (c : Colour)

theorem Suffices.comp {f f' : Nat × Memory → Nat × Memory} {g g' : Memory → Memory} (h : Suffices f g)
    (h' : Suffices f' g') : Suffices (fun q => f' (f q)) (fun m => g' (g m)) := by
  intro m
  obtain ⟨n, hn⟩ := h m
  obtain ⟨n', hn'⟩ := h' (g m)
  exact ⟨n + n', fun j => by simp only [Nat.add_assoc, hn, hn']⟩

theorem plot_suffices (x y : Int) :
    Suffices ((Surface.counted fb c).plot x y) ((Surface.dmem fb c).plot x y) :=
  fun m => ⟨1, fun j => by rw [Nat.add_comm]; rfl⟩

theorem put_suffices (x y : Int) :
    Suffices ((Surface.counted fb c).put x y) ((Surface.dmem fb c).put x y) := by
  by_cases hr : rotatedInBounds fb x y = true
  · intro m
    obtain ⟨n, hn⟩ := plot_suffices fb c (rotate fb x y).1 (rotate fb x y).2 m
    exact ⟨n, fun j => by rw [Surface.put_inside _ hr, Surface.put_inside _ hr]; exact hn j⟩
  · exact fun m => ⟨0, fun j => by
      rw [Surface.put_outside _ hr, Surface.put_outside _ hr, Nat.zero_add]⟩

theorem foldl_suffices {α : Type} {f : α → Nat × Memory → Nat × Memory} {g : α → Memory → Memory}
    (h : ∀ p, Suffices (f p) (g p)) (l : List α) :
    Suffices (fun q => l.foldl (fun q p => f p q) q) (fun m => l.foldl (fun m p => g p m) m) := by
  induction l with
  | nil => exact fun m => ⟨0, fun j => by simp⟩
  | cons p r ih => exact (h p).comp ih

theorem glyphRow_suffices (fw x y p : Int) :
    Suffices (glyphRow (Surface.counted fb c) fw x y p) (glyphRow (Surface.dmem fb c) fw x y p) := by
  intro m
  have key : ∀ n : Nat, ∃ k, ∀ j, upTo n (glyphPixel (Surface.counted fb c) x y p) (0, k + j, m) =
      ((upTo n (glyphPixel (Surface.dmem fb c) x y p) (0, m)).1, j,
        (upTo n (glyphPixel (Surface.dmem fb c) x y p) (0, m)).2) := by
    intro n
    induction n with
    | zero => exact ⟨0, fun j => by simp [upTo]⟩
    | succ n ih =>
      obtain ⟨k, hk⟩ := ih
      simp only [upTo]
      generalize upTo n (glyphPixel (Surface.dmem fb c) x y p) (0, m) = b at *
      obtain ⟨byte, bm⟩ := b
      have hbyte : ∀ j, glyphByte (Surface.counted fb c) p n (byte, j, bm) =
          glyphByte (Surface.dmem fb c) p n (byte, bm) := fun _ => rfl
      obtain ⟨k', hk'⟩ : ∃ k', ∀ j, glyphPixel (Surface.counted fb c) x y p n (byte, k' + j, bm) =
          ((glyphPixel (Surface.dmem fb c) x y p n (byte, bm)).1, j,
            (glyphPixel (Surface.dmem fb c) x y p n (byte, bm)).2) := by
        unfold glyphPixel
        dsimp only
        simp only [hbyte]
        generalize glyphByte (Surface.dmem fb c) p n (byte, bm) = byte'
        by_cases hb : byte' &&& (0x80#8 >>> (n % 8)) ≠ 0
        · obtain ⟨k', hk'⟩ := put_suffices fb c (x + n) y bm
          exact ⟨k', fun j => by rw [if_pos hb, if_pos hb, hk']⟩
        · exact ⟨0, fun j => by rw [if_neg hb, if_neg hb, Nat.zero_add]⟩
      exact ⟨k + k', fun j => by rw [Nat.add_assoc, hk, hk']⟩
  obtain ⟨k, hk⟩ := key fw.toNat
  exact ⟨k, fun j => by unfold glyphRow; rw [hk]⟩

theorem upTo_suffices {f : Nat → Nat × Memory → Nat × Memory} {g : Nat → Memory → Memory}
    (h : ∀ j, Suffices (f j) (g j)) : ∀ n, Suffices (upTo n f) (upTo n g)
  | 0 => fun m => ⟨0, fun j => by simp [upTo]⟩
  | n + 1 => (upTo_suffices h n).comp (h n)

theorem glyph_suffices (f : Font) (x y : Int) (ch : Byte) :
    Suffices (glyph (Surface.counted fb c) f x y ch) (glyph (Surface.dmem fb c) f x y ch) :=
  upTo_suffices (fun _ => glyphRow_suffices fb c _ _ _ _) _

theorem stringLoop_suffices (f : Font) (y : Int) :
    ∀ (n : Nat) (t col : Int), Suffices (stringLoop (Surface.counted fb c) f y n t col)
      (stringLoop (Surface.dmem fb c) f y n t col)
  | 0, _, _ => fun m => ⟨0, fun j => by simp [stringLoop]⟩
  | n + 1, t, col => by
    intro m
    by_cases h0 : memRead m t = 0
    · exact ⟨0, fun j => by rw [stringLoop_end _ _ _ _ _ h0, stringLoop_end _ _ _ _ _ h0, Nat.zero_add]⟩
    · have hg := glyph_suffices fb c f col y (memRead m t)
      obtain ⟨k, hk⟩ := (hg.comp (stringLoop_suffices f y n (t + 1) (col + f.fw))) m
      refine ⟨k, fun j => ?_⟩
      rw [stringLoop_next (Surface.counted fb c) f y n col (a := (k + j, m)) h0,
        stringLoop_next (Surface.dmem fb c) f y n col h0]
      exact hk j

end Suffices

/-! ### DMEM after the first effects of an operation -/

/-- Everything the DMEM of an abandoned operation can be: what the finished operation leaves is some
calls of `PutAbs` after it, it is some calls of `PutAbs` after DMEM as it was, and where nothing was
written yet or nothing is drawn it is DMEM as it was. -/
theorem memAfter_cases (i : Instr) (s : State) : ∃ (c : Colour) (t : State), exec i s = .next t ∧
    (∀ k, Drawn s.fb c (memAfter k i s) t.mem) ∧ (∀ k, Drawn s.fb c s.mem (memAfter k i s)) ∧
    (∃ n, ∀ k, n ≤ k → memAfter k i s = t.mem) ∧ memAfter 0 i s = s.mem ∧
    (i.draws = false → ∀ k, memAfter k i s = s.mem) := by
  have paint : ∀ (c : Colour) (f : Nat × Memory → Nat × Memory) (g : Memory → Memory),
      OnlyPlots (Surface.counted s.fb c) f → Follows s.fb c f g → Suffices f g →
      (∀ k, Drawn s.fb c (f (k, s.mem)).2 (g s.mem)) ∧ (∀ k, Drawn s.fb c s.mem (f (k, s.mem)).2) ∧
      (∃ n, ∀ k, n ≤ k → (f (k, s.mem)).2 = g s.mem) ∧ (f (0, s.mem)).2 = s.mem := by
    intro c f g hf hfg hs
    refine ⟨fun k => ?_, fun k => ?_, ?_, ?_⟩
    · rcases hfg (k, s.mem) s.mem (.inl rfl) with h | h
      · rw [h]; exact .refl _
      · exact h.2
    · exact hf.cut (P := fun m => Drawn s.fb c s.mem m) (fun x y _ h => .plot x y h) k (.refl _)
    · obtain ⟨n, hn⟩ := hs s.mem
      refine ⟨n, fun k hk => ?_⟩
      obtain ⟨j, rfl⟩ := Nat.exists_eq_add_of_le hk
      rw [hn]
    · rw [hf.cut_zero]
  have shape : ∀ (c : Colour) (pts : List (Int × Int)), _ := fun c pts =>
    paint c _ _ (drawPoints_onlyPlots (Surface.counted s.fb c) pts)
      (foldl_follows s.fb c (fun p : Int × Int => put_follows s.fb c p.1 p.2) pts)
      (foldl_suffices (fun p : Int × Int => put_suffices s.fb c p.1 p.2) pts)
  have whole : ∀ {c : Colour} {t : State} {m : Nat → Memory}, t.mem = s.mem → (∀ k, m k = s.mem) →
      (∀ k, Drawn s.fb c (m k) t.mem) ∧ (∀ k, Drawn s.fb c s.mem (m k)) ∧
      (∃ n, ∀ k, n ≤ k → m k = t.mem) ∧ m 0 = s.mem := fun ht hm =>
    ⟨fun k => by rw [hm, ht]; exact .refl _, fun k => by rw [hm]; exact .refl _,
      ⟨0, fun k _ => by rw [hm, ht]⟩, hm 0⟩
  by_cases hd : i.draws = true
  · cases i with
    | fbClear c =>
      obtain ⟨h1, h2, h3, h4⟩ := paint c _ _ (paintClear_onlyPlots _)
        (foldl_follows s.fb c (fun p : Int × Int => plot_follows s.fb c p.1 p.2) _)
        (foldl_suffices (fun p : Int × Int => plot_suffices s.fb c p.1 p.2) _)
      exact ⟨c, _, rfl, h1, h2, h3, h4, by simp [Instr.draws]⟩
    | fbDrawAbsPixel c =>
      obtain ⟨h1, h2, h3, h4⟩ := paint c _ _ (fun _ hp _ ha => hp _ _ _ ha) (plot_follows s.fb c _ _)
        (plot_suffices s.fb c (s16 s.arg0) (s16 s.arg1))
      exact ⟨c, _, rfl, h1, h2, h3, h4, by simp [Instr.draws]⟩
    | fbDrawPixel c =>
      obtain ⟨h1, h2, h3, h4⟩ := paint c _ _ (Surface.put_onlyPlots _ _ _) (put_follows s.fb c _ _)
        (put_suffices s.fb c (s16 s.arg0) (s16 s.arg1))
      exact ⟨c, _, rfl, h1, h2, h3, h4, by simp [Instr.draws]⟩
    | fbDrawChar c =>
      obtain ⟨h1, h2, h3, h4⟩ := paint c _ _ (glyph_onlyPlots _ _ _ _ _) (glyph_follows s.fb c _ _ _ _)
        (glyph_suffices s.fb c (fontOf s) (s16 s.arg0) (s16 s.arg1) (u8 s.arg2))
      exact ⟨c, _, rfl, h1, h2, h3, h4, by simp [Instr.draws]⟩
    | fbDrawString c =>
      obtain ⟨h1, h2, h3, h4⟩ := paint c _ _ (stringLoop_onlyPlots _ _ _ _ _ _)
        (stringLoop_follows s.fb c _ _ _ _ _)
        (stringLoop_suffices s.fb c (fontOf s) (s16 s.arg1) 65536 (u16 s.arg2) (s16 s.arg0))
      exact ⟨c, _, rfl, h1, h2, h3, h4, by simp [Instr.draws]⟩
    | fbDrawLine c =>
      obtain ⟨h1, h2, h3, h4⟩ := shape c (linePoints s.cfg.lineMode (segmentOf s))
      exact ⟨c, _, rfl, h1, h2, h3, h4, by simp [Instr.draws]⟩
    | fbDrawHline c =>
      obtain ⟨h1, h2, h3, h4⟩ := shape c (hlinePoints (s16 s.arg0) (s16 s.arg1) (s16 s.arg2))
      exact ⟨c, _, rfl, h1, h2, h3, h4, by simp [Instr.draws]⟩
    | fbDrawVline c =>
      obtain ⟨h1, h2, h3, h4⟩ := shape c (vlinePoints (s16 s.arg0) (s16 s.arg1) (s16 s.arg2))
      exact ⟨c, _, rfl, h1, h2, h3, h4, by simp [Instr.draws]⟩
    | fbDrawRect c =>
      obtain ⟨h1, h2, h3, h4⟩ := shape c (rectPoints (segmentOf s))
      exact ⟨c, _, rfl, h1, h2, h3, h4, by simp [Instr.draws]⟩
    | fbDrawFilledRect c =>
      obtain ⟨h1, h2, h3, h4⟩ := shape c (filledRectPoints (segmentOf s))
      exact ⟨c, _, rfl, h1, h2, h3, h4, by simp [Instr.draws]⟩
    | fbDrawCircle c =>
      obtain ⟨h1, h2, h3, h4⟩ := shape c (circlePoints (s16 s.arg0) (s16 s.arg1) (s16 s.arg2) false)
      exact ⟨c, _, rfl, h1, h2, h3, h4, by simp [Instr.draws]⟩
    | fbDrawFilledCircle c =>
      obtain ⟨h1, h2, h3, h4⟩ := shape c (circlePoints (s16 s.arg0) (s16 s.arg1) (s16 s.arg2) true)
      exact ⟨c, _, rfl, h1, h2, h3, h4, by simp [Instr.draws]⟩
    | _ => simp [Instr.draws] at hd
  · simp only [Bool.not_eq_true] at hd
    obtain ⟨t, ht, he⟩ := exec_effect i s
    have htm : t.mem = s.mem := by
      cases he with
      | status | geometry | port => rfl
      | drawn m hd' => rw [hd] at hd'; cases hd'
    have hm : ∀ k, memAfter k i s = s.mem := by
      intro k
      cases i <;> first | rfl | simp [Instr.draws] at hd
    obtain ⟨h1, h2, h3, h4⟩ := whole (c := .colored) htm hm
    exact ⟨.colored, t, ht, h1, h2, h3, h4, fun _ => hm⟩

/-! ### What an abandoned operation leaves -/

theorem firstEvents_eq (k : Nat) {s t : State} {new : List Traced} (h : t.trace = new ++ s.trace) :
    firstEvents k s t = new.drop (new.length - k) := by
  simp [firstEvents, h]

/-- An operation only adds to the trace. -/
theorem exec_trace {i : Instr} {s t : State} (h : exec i s = .next t) :
    ∃ new, t.trace = new ++ s.trace := by
  obtain ⟨t', ht, he⟩ := exec_effect i s
  rw [h] at ht
  cases ht
  cases he with
  | status | geometry | drawn => exact ⟨[], rfl⟩
  | port _ _ evs => exact ⟨evs.reverse, rfl⟩

/-- The abandoned operation: its first events, and DMEM as far as it was drawn (R380). -/
theorem abandoned_started (k : Nat) {s t : State} {i : Instr} (hb : s.opbusy = true)
    (hd : decode s.cfg.variant s.cmd = .ok i) (ht : exec i s = .next t) :
    abandoned k s = { emitted (firstEvents k s t) s with mem := memAfter k i s } := by
  unfold abandoned
  rw [hb, hd]
  simp only [ht]

/-- Nothing is abandoned while no operation runs, or where CMD's word does not decode. -/
theorem abandoned_nothing (k : Nat) {s : State}
    (h : s.opbusy = false ∨ ∀ i, decode s.cfg.variant s.cmd ≠ .ok i) : abandoned k s = s := by
  unfold abandoned
  split
  · next i hb hd =>
    rcases h with h | h
    · rw [h] at hb; cases hb
    · exact absurd hd (h i)
  · rfl

/-- An operation abandoned before its first effect leaves nothing. -/
theorem abandoned_zero (s : State) : abandoned 0 s = s := by
  by_cases h : s.opbusy = true ∧ ∃ i, decode s.cfg.variant s.cmd = .ok i
  · obtain ⟨hb, i, hd⟩ := h
    obtain ⟨_, t, ht, _, _, _, h0, _⟩ := memAfter_cases i s
    obtain ⟨new, hn⟩ := exec_trace ht
    rw [abandoned_started 0 hb hd ht, firstEvents_eq 0 hn, h0]
    simp [emitted]
  · refine abandoned_nothing 0 ?_
    by_cases hb : s.opbusy = true
    · exact .inr fun i hd => h ⟨hb, i, hd⟩
    · exact .inl (by simpa using hb)

/-- An abandoned operation changes the trace, the answers taken and DMEM alone, and keeps the canonical
form of DMEM. -/
theorem abandoned_cases (k : Nat) (s : State) : ∃ (evs : List Traced) (m : Memory),
    abandoned k s = { emitted evs s with mem := m } ∧ (Memory.wf s.mem = true → Memory.wf m = true) := by
  by_cases h : s.opbusy = true ∧ ∃ i, decode s.cfg.variant s.cmd = .ok i
  · obtain ⟨hb, i, hd⟩ := h
    obtain ⟨c, t, ht, _, h2, _⟩ := memAfter_cases i s
    refine ⟨_, _, abandoned_started k hb hd ht, fun hm => ?_⟩
    exact (h2 k).keeps (P := fun m => Memory.wf m = true) (fun _ _ _ h => putAbs_wf h _ _ _ _) hm
  · refine ⟨[], s.mem, ?_, id⟩
    rw [abandoned_nothing k]
    · simp [emitted]
    · by_cases hb : s.opbusy = true
      · exact .inr fun i hd => h ⟨hb, i, hd⟩
      · exact .inl (by simpa using hb)

end Sys2Proof.Machine
end

