-- ==== Sys2Proof/Laws/PerInstr.lean ====
section
/-! SUPPORT. The command word of every operation: RSV is 0, MOD and OPC are the operation's own, and
OPC is in the range of the variant that has it (30_encoding.md R100, R104, R105). -/

namespace Sys2Proof.Laws.EncodedWord

/-- The word of `i` has RSV = 0, `i`'s MOD and `i`'s OPC; and its OPC is in 0x30 to 0x3F, or in 0x40
to 0x4F, only where one variant alone has `i`. -/
abbrev Statement (i : Instr) : Prop :=
  rsvOf (encode i) = 0#4 ∧ modOf (encode i) = i.modifier ∧ opcOf (encode i) = i.opcode ∧
    (0x30 ≤ i.opcode.toNat ∧ i.opcode.toNat ≤ 0x3F → i.onlyOn = some .a) ∧
    (0x40 ≤ i.opcode.toNat → i.onlyOn = some .b)

theorem nop : Statement .nop := by decide
theorem fbInit : Statement .fbInit := by decide
theorem fbSetRotation (r : Rotation) : Statement (.fbSetRotation r) := by cases r <;> decide
theorem fbSetWidth : Statement .fbSetWidth := by decide
theorem fbSetHeight : Statement .fbSetHeight := by decide
theorem fbSetInvert (v : Bool) : Statement (.fbSetInvert v) := by cases v <;> decide
theorem fbClear (c : Colour) : Statement (.fbClear c) := by cases c <;> decide
theorem fbDrawAbsPixel (c : Colour) : Statement (.fbDrawAbsPixel c) := by cases c <;> decide
theorem fbDrawPixel (c : Colour) : Statement (.fbDrawPixel c) := by cases c <;> decide
theorem fbDrawChar (c : Colour) : Statement (.fbDrawChar c) := by cases c <;> decide
theorem fbDrawString (c : Colour) : Statement (.fbDrawString c) := by cases c <;> decide
theorem fbDrawLine (c : Colour) : Statement (.fbDrawLine c) := by cases c <;> decide
theorem fbDrawHline (c : Colour) : Statement (.fbDrawHline c) := by cases c <;> decide
theorem fbDrawVline (c : Colour) : Statement (.fbDrawVline c) := by cases c <;> decide
theorem fbDrawRect (c : Colour) : Statement (.fbDrawRect c) := by cases c <;> decide
theorem fbDrawFilledRect (c : Colour) : Statement (.fbDrawFilledRect c) := by cases c <;> decide
theorem fbDrawCircle (c : Colour) : Statement (.fbDrawCircle c) := by cases c <;> decide
theorem fbDrawFilledCircle (c : Colour) : Statement (.fbDrawFilledCircle c) := by cases c <;> decide
theorem ctlReset : Statement .ctlReset := by decide
theorem ctlInitA : Statement .ctlInitA := by decide
theorem ctlInitB (s : LutSel) : Statement (.ctlInitB s) := by cases s <;> decide
theorem ctlDisplayFrame : Statement .ctlDisplayFrame := by decide
theorem ctlSleep : Statement .ctlSleep := by decide
theorem ctlClearFrameMemory : Statement .ctlClearFrameMemory := by decide
theorem aSetPartialWindow (b r : Bool) : Statement (.aSetPartialWindow b r) := by
  cases b <;> cases r <;> decide
theorem aSetPartialWindowBlack (b : Bool) : Statement (.aSetPartialWindowBlack b) := by cases b <;> decide
theorem bSetLut (s : LutSel) : Statement (.bSetLut s) := by cases s <;> decide
theorem bSetMemoryArea : Statement .bSetMemoryArea := by decide
theorem bSetMemoryPointer : Statement .bSetMemoryPointer := by decide
theorem bSetFrameMemoryAt : Statement .bSetFrameMemoryAt := by decide
theorem bSetFrameMemory : Statement .bSetFrameMemory := by decide

end Sys2Proof.Laws.EncodedWord
end

