-- ==== Sys2Proof/Machine/Assembler.lean ====
section
/-! DEFINITION. What an assembly line becomes: host writes of the written operands in ascending
register order, then of the command word (30_encoding.md R108), and the pseudo-operations (R109). -/

namespace Sys2Proof.Machine

/-- The argument registers an operation's operands go to, in operand order (R104, R108). -/
def operandRegs : Instr → List Nat
  | .fbInit => [0, 1, 2, 3]
  | .fbSetWidth | .fbSetHeight => [0]
  | .fbDrawAbsPixel _ | .fbDrawPixel _ => [0, 1]
  | .fbDrawChar _ | .fbDrawString _ => [0, 1, 2, 3, 4, 5]
  | .fbDrawLine _ | .fbDrawRect _ | .fbDrawFilledRect _ => [0, 1, 2, 3]
  | .fbDrawHline _ | .fbDrawVline _ => [0, 1, 2]
  | .fbDrawCircle _ | .fbDrawFilledCircle _ => [0, 1, 2]
  | .ctlClearFrameMemory => [0]
  | .aSetPartialWindow _ _ => [0, 1, 2, 3, 4, 5]
  | .aSetPartialWindowBlack _ => [0, 2, 3, 4, 5]
  | .ctlInitB .custom | .bSetLut .custom => [0]
  | .ctlInitB .presetFull | .ctlInitB .presetPartial => []
  | .bSetLut .presetFull | .bSetLut .presetPartial => []
  | .bSetMemoryArea => [0, 1, 2, 3]
  | .bSetMemoryPointer => [0, 1]
  | .bSetFrameMemoryAt => [0, 1, 2, 3, 4]
  | .bSetFrameMemory => [0]
  | .nop | .fbSetRotation _ | .fbSetInvert _ | .fbClear _ | .ctlReset | .ctlInitA
  | .ctlDisplayFrame | .ctlSleep => []

/-- The host writes of one line: an operand written `-` is `none` and writes nothing (R108). -/
def assemble (i : Instr) (operands : List (Option Word)) : List HostAct :=
  ((operandRegs i).zip operands).filterMap
      (fun p => p.2.map fun v => HostAct.regWrite (BitVec.ofNat 8 (p.1 + 1)) v)
    ++ [.regWrite 0x00 (encode i)]

/-- The pseudo-operations (R109); PUSH_FB takes the framebuffer registers the assembler knows. -/
inductive Pseudo where
  | wake
  | showFrame
  | pushFb (base width height : Word)
  | fill (c : Colour)
  deriving DecidableEq, Repr

/-- The host writes a pseudo-operation expands to on a variant (R109). -/
def Pseudo.expand (v : Variant) : Pseudo → List HostAct
  | .wake =>
    assemble .ctlReset [] ++ (match v with
      | .a => assemble .ctlInitA []
      | .b => assemble (.ctlInitB .presetFull) [])
  | .showFrame => assemble .ctlDisplayFrame []
  | .pushFb base width height =>
    match v with
    | .a => assemble (.aSetPartialWindowBlack true)
        [some base, some 0, some 0, some width, some height]
    | .b => assemble .bSetFrameMemory [some base]
  | .fill c => assemble (.fbClear c) []

end Sys2Proof.Machine
end

