-- ==== Sys2Proof/Tests/Slice0.lean ====
section
/-! SUPPORT. Tests against spec/95_test_vectors.md and the words of 30_encoding.md, the refusals of
WellFormed, and one witness for the hypotheses of each obligation that has any. -/

set_option Elab.async false -- one test at a time: many at once run out of stack memory

namespace Sys2Proof.Tests

open Sys2Proof.Machine

/-! ### Helpers -/

/-- The state an operation leaves. -/
def after (i : Instr) (s : State) : State :=
  match exec i s with
  | .next t => t
  | .fault _ => s
  | .refused _ => s

/-- The state one step leaves. -/
def afterStep (s : State) : State :=
  match step s with
  | .next t => t
  | .fault _ => s
  | .refused _ => s

/-- What one operation does on a block whose trace is empty: the code, the state and the events. -/
def outcome (i : Instr) (s : State) : Code × Fsm × List Event :=
  ((after i s).code, (after i s).fsm, ((after i s).trace.map Traced.event).reverse)

/-- ARG0 to ARG5 of a state. -/
def withArgs (s : State) (a0 a1 a2 a3 a4 a5 : Word) : State :=
  { s with arg0 := a0, arg1 := a1, arg2 := a2, arg3 := a3, arg4 := a4, arg5 := a5 }

/-- Variant A with the defaults, in FSM state `f`, the panel answering `busy` and the hardware
interface `ini`. -/
def blockA (f : Fsm) (busy ini : List Bool) : State :=
  { State.resetWith Params.defaultA [] with fsm := f, busyIn := busy, initIn := ini }

/-- Variant B with the defaults. -/
def blockB (f : Fsm) (busy ini : List Bool) : State :=
  { State.resetWith Params.defaultB [] with fsm := f, busyIn := busy, initIn := ini }

/-- A small panel of variant A: 16 by 2, with a poll limit of 2. -/
def smallA (f : Fsm) (busy ini : List Bool) : State :=
  { blockA f busy ini with
    cfg := { Params.defaultA with panelW := 16, panelH := 2, waitMaxPolls := 2 } }

/-- A small panel of variant B: 16 by 2, with a poll limit of 2. -/
def smallB (f : Fsm) (busy ini : List Bool) : State :=
  { blockB f busy ini with
    cfg := { Params.defaultB with panelW := 16, panelH := 2, waitMaxPolls := 2 } }

/-- A block with a 16-wide framebuffer of `h` rows at 0x1000. -/
def canvas (h : Word) (rot : Rotation) (inv : Bool) (m : Memory) : State :=
  { State.resetWith Params.defaultA m with
    fb := { base := 0x1000, cap := 32, width := 16, height := h, rot := rot, inv := inv } }

/-- The pixels of the frame whose bit is 1, row by row. -/
def lit (s : State) : List (Int × Int) :=
  (clearPoints s.fb).filter fun p => pixelBit s.fb s.mem p.1 p.2

/-- The pixels an operation lights on an empty 16 by 16 frame with INV = 1. -/
def drawnBy (i : Instr) (a0 a1 a2 a3 a4 a5 : Word) (m : Memory) : List (Int × Int) :=
  lit (after i (withArgs (canvas 16 .r0 true m) a0 a1 a2 a3 a4 a5))

/-! ### Well-formedness: an ill-formed term for each check -/

/-- An operation of variant A is refused on B and one of B on A (R105). -/
theorem test_wellformed_refuses :
    (Instr.aSetPartialWindow true true).WellFormed .b = false ∧
      (Instr.aSetPartialWindowBlack true).WellFormed .b = false ∧
      Instr.ctlInitA.WellFormed .b = false ∧ (Instr.ctlInitB .presetFull).WellFormed .a = false ∧
      (Instr.bSetLut .custom).WellFormed .a = false ∧ Instr.bSetMemoryArea.WellFormed .a = false ∧
      Instr.bSetMemoryPointer.WellFormed .a = false ∧
      Instr.bSetFrameMemoryAt.WellFormed .a = false ∧ Instr.bSetFrameMemory.WellFormed .a = false := by
  decide +kernel

/-- An operation of both variants is well formed on each (R104). -/
theorem test_wellformed_accepts :
    Instr.nop.WellFormed .a = true ∧ Instr.nop.WellFormed .b = true ∧
      Instr.ctlInitA.WellFormed .a = true ∧ (Instr.ctlInitB .custom).WellFormed .b = true := by decide +kernel

/-! ### Decoding: words written out from 30_encoding.md R100, R102 and R104 -/

theorem test_decode_configuration :
    decode .a 0b0000_0000_0000_0000 = .ok .nop ∧ decode .b 0b0000_0000_0000_0001 = .ok .fbInit ∧
      decode .a 0b0000_0010_0000_0010 = .ok (.fbSetRotation .r180) ∧
      decode .b 0b0000_0011_0000_0010 = .ok (.fbSetRotation .r270) ∧
      decode .a 0b0000_0000_0000_0011 = .ok .fbSetWidth ∧
      decode .a 0b0000_0000_0000_0100 = .ok .fbSetHeight ∧
      decode .b 0b0000_0001_0000_0101 = .ok (.fbSetInvert true) := by decide +kernel

theorem test_decode_drawing :
    decode .a 0b0000_0001_0001_0000 = .ok (.fbClear .colored) ∧
      decode .a 0b0000_0000_0001_0001 = .ok (.fbDrawAbsPixel .uncolored) ∧
      decode .b 0b0000_0001_0001_0010 = .ok (.fbDrawPixel .colored) ∧
      decode .a 0b0000_0001_0001_0011 = .ok (.fbDrawChar .colored) ∧
      decode .a 0b0000_0000_0001_0100 = .ok (.fbDrawString .uncolored) ∧
      decode .a 0b0000_0001_0001_0101 = .ok (.fbDrawLine .colored) ∧
      decode .b 0b0000_0000_0001_0110 = .ok (.fbDrawHline .uncolored) ∧
      decode .a 0b0000_0001_0001_0111 = .ok (.fbDrawVline .colored) ∧
      decode .a 0b0000_0000_0001_1000 = .ok (.fbDrawRect .uncolored) ∧
      decode .a 0b0000_0001_0001_1001 = .ok (.fbDrawFilledRect .colored) ∧
      decode .b 0b0000_0000_0001_1010 = .ok (.fbDrawCircle .uncolored) ∧
      decode .a 0b0000_0001_0001_1011 = .ok (.fbDrawFilledCircle .colored) := by decide +kernel

theorem test_decode_controller :
    decode .a 0b0000_0000_0010_0000 = .ok .ctlReset ∧ decode .a 0b0000_0000_0010_0001 = .ok .ctlInitA ∧
      decode .b 0b0000_0000_0010_0001 = .ok (.ctlInitB .presetFull) ∧
      decode .b 0b0000_0010_0010_0001 = .ok (.ctlInitB .custom) ∧
      decode .b 0b0000_0000_0010_0010 = .ok .ctlDisplayFrame ∧
      decode .a 0b0000_0000_0010_0011 = .ok .ctlSleep ∧
      decode .b 0b0000_0000_0010_0100 = .ok .ctlClearFrameMemory := by decide +kernel

theorem test_decode_variants :
    decode .a 0b0000_0001_0011_0000 = .ok (.aSetPartialWindow true false) ∧
      decode .a 0b0000_0010_0011_0000 = .ok (.aSetPartialWindow false true) ∧
      decode .a 0b0000_0001_0011_0001 = .ok (.aSetPartialWindowBlack true) ∧
      decode .b 0b0000_0001_0100_0000 = .ok (.bSetLut .presetPartial) ∧
      decode .b 0b0000_0000_0100_0001 = .ok .bSetMemoryArea ∧
      decode .b 0b0000_0000_0100_0010 = .ok .bSetMemoryPointer ∧
      decode .b 0b0000_0000_0100_0011 = .ok .bSetFrameMemoryAt ∧
      decode .b 0b0000_0000_0100_0100 = .ok .bSetFrameMemory := by decide +kernel

/-- V-E1 to V-E4, V-E6, V-E8 to V-E10 and V-E12 to V-E14, each refused for its reason. -/
theorem test_decode_refuses :
    decode .a 0x1000 = .error .reservedBits ∧ decode .b 0xF021 = .error .reservedBits ∧
      decode .a 0x0006 = .error .unknownOpcode ∧ decode .a 0x0040 = .error .otherVariant ∧
      decode .b 0x0130 = .error .otherVariant ∧ decode .a 0x0310 = .error .badModifier ∧
      decode .b 0x0200 = .error .badModifier ∧ decode .a 0x0221 = .error .badModifier ∧
      decode .b 0x0321 = .error .badModifier ∧ decode .b 0x0421 = .error .badModifier ∧
      decode .a 0x0331 = .error .badModifier := by decide +kernel

/-- The assembler vectors of R108 (95, "Assembler vectors"). -/
theorem test_assembler :
    assemble (.fbDrawLine .colored) [some 0, some 0, some 4, some 4] =
        [.regWrite 1 0, .regWrite 2 0, .regWrite 3 4, .regWrite 4 4, .regWrite 0 0x0115] ∧
      assemble (.aSetPartialWindow true false) [some 0x100, none, some 13, some 5, some 16, some 2] =
        [.regWrite 1 0x100, .regWrite 3 0x0D, .regWrite 4 5, .regWrite 5 0x10, .regWrite 6 2,
          .regWrite 0 0x0130] ∧
      assemble (.bSetLut .custom) [some 0x400] = [.regWrite 1 0x400, .regWrite 0 0x0240] := by decide +kernel

/-! ### Configuration (V-F1, V-F2) -/

def fbInitOn (a0 a1 a2 a3 : Word) : Code × FbRegs :=
  ((after .fbInit (withArgs State.reset a0 a1 a2 a3 0 0)).code,
    (after .fbInit (withArgs State.reset a0 a1 a2 a3 0 0)).fb)

theorem test_fbInit_ok :
    fbInitOn 0x1000 2756 104 212 = (.ok, ⟨0x1000, 2756, 104, 212, .r0, false⟩) ∧
      fbInitOn 0xFFF0 16 16 8 = (.ok, ⟨0xFFF0, 16, 16, 8, .r0, false⟩) ∧
      fbInitOn 0x1000 8 1 8 = (.ok, ⟨0x1000, 8, 8, 8, .r0, false⟩) := by decide +kernel

theorem test_fbInit_misfits :
    fbInitOn 0x1000 2756 105 212 = (.invalidGeometry, FbRegs.reset) ∧
      fbInitOn 0x1000 0 16 4 = (.invalidGeometry, FbRegs.reset) ∧
      fbInitOn 0x1000 8 0 4 = (.invalidGeometry, FbRegs.reset) ∧
      fbInitOn 0x1000 8 16 0xFFFF = (.invalidGeometry, FbRegs.reset) ∧
      fbInitOn 0xFFF0 32 16 4 = (.invalidGeometry, FbRegs.reset) ∧
      fbInitOn 0x1000 8 17 4 = (.invalidGeometry, FbRegs.reset) := by decide +kernel

/-- The framebuffer of V-F2, and ARG0. -/
def bound (a0 : Word) : State :=
  { State.reset with fb := ⟨0, 2756, 104, 212, .r0, false⟩, arg0 := a0 }

theorem test_fbSetWidth :
    (after .fbSetWidth (bound 97)).fb.width = 104 ∧ (after .fbSetWidth (bound 97)).code = .ok ∧
      (after .fbSetWidth (bound 105)).code = .invalidGeometry ∧
      (after .fbSetWidth (bound 105)).fb.width = 104 ∧
      (after .fbSetWidth (bound 0)).code = .invalidGeometry := by decide +kernel

theorem test_fbSetHeight :
    (after .fbSetHeight (bound 213)).code = .invalidGeometry ∧
      (after .fbSetHeight (bound 100)).fb.height = 100 := by decide +kernel

theorem test_fbSetRotation : (after (.fbSetRotation .r180) State.reset).fb.rot = .r180 := by decide +kernel

theorem test_fbSetInvert :
    readReg 0x14 (after (.fbSetInvert true) (bound 0)) = 0x0004 := by decide +kernel

/-- V-X4. -/
theorem test_nop : (after .nop (State.reset.failed .invalidState)).code = .ok := by decide +kernel

/-! ### Pixels and clear (W2, W3, V-F3, V-F4) -/

/-- Byte 0x1005 after drawing absolute pixel (9, 2), from the byte it held. -/
def pixelByte (inv : Bool) (c : Colour) (before : Byte) : Byte :=
  memRead (after (.fbDrawAbsPixel c)
    (withArgs (canvas 4 .r90 inv (Memory.write [] 0x1005 before)) 9 2 0 0 0 0)).mem 0x1005

theorem test_fbDrawAbsPixel_polarity :
    pixelByte false .uncolored 0x00 = 0x40 ∧ pixelByte false .uncolored 0xFF = 0xFF ∧
      pixelByte false .colored 0x00 = 0x00 ∧ pixelByte false .colored 0xFF = 0xBF ∧
      pixelByte true .uncolored 0x00 = 0x00 ∧ pixelByte true .uncolored 0xFF = 0xBF ∧
      pixelByte true .colored 0x00 = 0x40 ∧ pixelByte true .colored 0xFF = 0xFF := by decide +kernel

/-- W1: outside the frame nothing is written. -/
theorem test_fbDrawAbsPixel_outside :
    (after (.fbDrawAbsPixel .colored) (withArgs (canvas 4 .r0 true []) 0xFFFF 0 0 0 0 0)).mem = [] ∧
      (after (.fbDrawAbsPixel .colored) (withArgs (canvas 4 .r0 true []) 16 0 0 0 0 0)).mem = [] := by
  decide +kernel

/-- The pixel a logical point lights on a 16 by 4 frame. -/
def rotated (rot : Rotation) (x y : Word) : List (Int × Int) :=
  lit (after (.fbDrawPixel .colored) (withArgs (canvas 4 rot true []) x y 0 0 0 0))

theorem test_fbDrawPixel_rotations :
    rotated .r0 9 2 = [(9, 2)] ∧ rotated .r90 2 5 = [(11, 2)] ∧ rotated .r90 0 1 = [(15, 0)] ∧
      rotated .r180 3 1 = [(13, 3)] ∧ rotated .r180 15 3 = [(1, 1)] ∧ rotated .r270 1 2 = [(2, 3)] ∧
      rotated .r270 3 15 = [(15, 1)] ∧ rotated .r270 1 0 = [(0, 3)] := by decide +kernel

theorem test_fbDrawPixel_dropped_edge :
    rotated .r90 2 0 = [] ∧ rotated .r90 4 5 = [] ∧ rotated .r180 0 1 = [] ∧ rotated .r180 1 0 = [] ∧
      rotated .r270 0 2 = [] ∧ rotated .r0 0 4 = [] := by decide +kernel

/-- V-F4. -/
theorem test_fbClear :
    (after (.fbClear .uncolored) (canvas 2 .r90 false [(0x1004, 0x5A)])).mem =
        [(0x1000, 0xFF), (0x1001, 0xFF), (0x1002, 0xFF), (0x1003, 0xFF), (0x1004, 0x5A)] ∧
      (after (.fbClear .colored) (canvas 2 .r0 false [(0x1000, 0x21), (0x1003, 7), (0x1004, 0x5A)])).mem =
        [(0x1004, 0x5A)] := by decide +kernel

/-! ### Rasterizer (V-R1 to V-R6) -/

theorem test_fbDrawLine_inclusive :
    linePoints .inclusive ⟨0, 0, 1, 3⟩ = [(0, 0), (0, 1), (1, 2), (1, 3)] ∧
      linePoints .inclusive ⟨0, 0, 5, 1⟩ = [(0, 0), (1, 0), (2, 0), (3, 1), (4, 1), (5, 1)] ∧
      linePoints .inclusive ⟨5, 5, 1, 3⟩ = [(5, 5), (4, 4), (3, 4), (2, 3), (1, 3)] ∧
      linePoints .inclusive ⟨2, 2, 2, 2⟩ = [(2, 2)] ∧
      linePoints .exclusive ⟨0, 0, 4, 3⟩ = [(0, 0), (1, 1), (2, 2), (3, 2)] ∧
      linePoints .sourceQuirk ⟨0, 0, 1, 3⟩ = [(0, 0), (0, 1)] ∧
      linePoints .sourceQuirk ⟨0, 0, 5, 1⟩ = [(0, 0), (1, 0)] ∧
      linePoints .sourceQuirk ⟨3, 0, 0, 2⟩ = [(3, 0), (2, 1)] ∧
      linePoints .sourceQuirk ⟨0, 0, 4, 0⟩ = [] := by decide +kernel

/-- W4's diagonal, and the rotated line of V-R1. -/
theorem test_fbDrawLine :
    drawnBy (.fbDrawLine .colored) 0 0 4 4 0 0 [] = [(0, 0), (1, 1), (2, 2), (3, 3), (4, 4)] ∧
      lit (after (.fbDrawLine .colored) (withArgs (canvas 16 .r90 true []) 0 1 2 1 0 0)) =
        [(15, 0), (15, 1), (15, 2)] := by decide +kernel

theorem test_fbDrawHline :
    drawnBy (.fbDrawHline .colored) 2 1 3 0 0 0 [] = [(2, 1), (3, 1), (4, 1)] ∧
      drawnBy (.fbDrawHline .colored) 2 1 0xFFFD 0 0 0 [] = [] ∧
      drawnBy (.fbDrawHline .colored) 0xFFFE 0 4 0 0 0 [] = [(0, 0), (1, 0)] := by decide +kernel

theorem test_fbDrawVline :
    drawnBy (.fbDrawVline .colored) 5 0 2 0 0 0 [] = [(5, 0), (5, 1)] ∧
      drawnBy (.fbDrawVline .colored) 5 14 5 0 0 0 [] = [(5, 14), (5, 15)] := by decide +kernel

theorem test_fbDrawRect :
    drawnBy (.fbDrawRect .colored) 3 2 1 0 0 0 [] =
        [(1, 0), (2, 0), (3, 0), (1, 1), (3, 1), (1, 2), (2, 2), (3, 2)] ∧
      drawnBy (.fbDrawRect .colored) 4 4 4 4 0 0 [] = [(4, 4)] := by decide +kernel

theorem test_fbDrawFilledRect :
    drawnBy (.fbDrawFilledRect .colored) 2 3 0 2 0 0 [] =
      [(0, 2), (1, 2), (2, 2), (0, 3), (1, 3), (2, 3)] := by decide +kernel

theorem test_fbDrawCircle :
    drawnBy (.fbDrawCircle .colored) 10 10 2 0 0 0 [] =
        [(9, 8), (10, 8), (11, 8), (8, 9), (12, 9), (8, 10), (12, 10), (8, 11), (12, 11), (9, 12),
          (10, 12), (11, 12)] ∧
      drawnBy (.fbDrawCircle .colored) 10 10 0xFFFE 0 0 0 [] = [(8, 10), (12, 10)] ∧
      drawnBy (.fbDrawCircle .colored) 0 0 2 0 0 0 [] = [(2, 0), (2, 1), (0, 2), (1, 2)] := by
  decide +kernel

theorem test_fbDrawFilledCircle :
    drawnBy (.fbDrawFilledCircle .colored) 10 10 1 0 0 0 [] =
        [(10, 9), (9, 10), (10, 10), (11, 10), (10, 11)] ∧
      (drawnBy (.fbDrawFilledCircle .colored) 8 8 3 0 0 0 []).length = 37 ∧
      drawnBy (.fbDrawFilledCircle .colored) 10 10 0xFFFE 0 0 0 [] = [(8, 10), (12, 10)] := by
  decide +kernel

theorem test_fbDrawChar :
    drawnBy (.fbDrawChar .colored) 0 0 0x21 2 8 0x2000 [(0x2002, 0xC0), (0x2003, 0x01)] =
        [(0, 0), (1, 0), (7, 1)] ∧
      drawnBy (.fbDrawChar .colored) 3 1 0x120 1 9 0x2000 [(0x2000, 0xFF), (0x2001, 0x80)] =
        [(3, 1), (4, 1), (5, 1), (6, 1), (7, 1), (8, 1), (9, 1), (10, 1), (11, 1)] := by decide +kernel

theorem test_fbDrawString :
    drawnBy (.fbDrawString .colored) 3 0 0x3000 1 7 0x2000
        [(0x2000, 0x80), (0x3000, 0x20), (0x3001, 0x20), (0x3003, 0x20)] = [(3, 0), (10, 0)] ∧
      drawnBy (.fbDrawString .colored) 3 0 0x3000 1 7 0x2000 [(0x2000, 0x80)] = [] := by decide +kernel

/-! ### Controller (V-C1 to V-C6, W7 to W9) -/

theorem test_ctlReset :
    outcome .ctlReset (blockA .sleeping [] []) = (.ok, .uninitialized,
      [.pin .rst false, .delay 200, .pin .rst true, .delay 200]) := by decide +kernel

/-- W7, variant A. -/
theorem test_ctlInitA :
    outcome .ctlInitA (blockA .uninitialized [true] [true]) = (.ok, .idle,
      [.hwInit true, .pin .rst false, .delay 200, .pin .rst true, .delay 200] ++ cmdEvents 0x06
        ++ datsEvents [0x17, 0x17, 0x17] ++ cmdEvents 0x04 ++ [.busy true] ++ cmdEvents 0x00
        ++ datsEvents [0x8F] ++ cmdEvents 0x50 ++ datsEvents [0x37] ++ cmdEvents 0x61
        ++ datsEvents [0x68, 0x00, 0xD4]) := by decide +kernel

/-- V-C3: the handshake answers fail. -/
theorem test_ctlInitA_fails :
    outcome .ctlInitA (blockA .uninitialized [true] [false]) =
      (.hardwareInitFailure, .uninitialized, [.hwInit false]) := by decide +kernel

/-- W7, variant B. -/
theorem test_ctlInitB :
    outcome (.ctlInitB .presetFull) (blockB .uninitialized [] [true]) = (.ok, .idle,
      [.hwInit true, .pin .rst false, .delay 200, .pin .rst true, .delay 200] ++ cmdEvents 0x01
        ++ datsEvents [0xF9, 0x00, 0x00] ++ cmdEvents 0x0C ++ datsEvents [0xD7, 0xD6, 0x9D]
        ++ cmdEvents 0x2C ++ datsEvents [0xA8] ++ cmdEvents 0x3A ++ datsEvents [0x1A]
        ++ cmdEvents 0x3B ++ datsEvents [0x08] ++ cmdEvents 0x11 ++ datsEvents [0x03]
        ++ cmdEvents 0x32 ++ datsEvents [0x22, 0x55, 0xAA, 0x55, 0xAA, 0x55, 0xAA, 0x11]
        ++ datsEvents (List.replicate 8 0x00) ++ datsEvents (List.replicate 8 0x1E)
        ++ datsEvents [0x01] ++ datsEvents (List.replicate 5 0x00)) := by decide +kernel

/-- W9: asleep, CTL_INIT gives InvalidState without the handshake. -/
theorem test_ctlInitB_asleep :
    outcome (.ctlInitB .custom) (blockB .sleeping [] [true]) = (.invalidState, .sleeping, []) := by
  decide +kernel

/-- V-C4, variant B with two not-ready samples. -/
theorem test_ctlDisplayFrame :
    outcome .ctlDisplayFrame (blockB .idle [true, true, false] []) = (.ok, .idle,
      cmdEvents 0x22 ++ datsEvents [0xC4] ++ cmdEvents 0x20 ++ cmdEvents 0xFF
        ++ [.busy true, .delay 100, .busy true, .delay 100, .busy false]) := by decide +kernel

/-- W8, variant A with WAIT_MAX_POLLS = 2. -/
theorem test_ctlDisplayFrame_timeout :
    outcome .ctlDisplayFrame (smallA .idle [false, false, false] []) = (.hardwareFault, .uninitialized,
      cmdEvents 0x12 ++ [.busy false, .delay 100, .busy false, .delay 100, .busy false]) := by
  decide +kernel

/-- V-C5. -/
theorem test_ctlSleep :
    outcome .ctlSleep (blockA .idle [true] []) = (.ok, .sleeping,
        cmdEvents 0x02 ++ [.busy true] ++ cmdEvents 0x07 ++ datsEvents [0xA5]) ∧
      outcome .ctlSleep (blockB .idle [false] []) =
        (.ok, .sleeping, cmdEvents 0x10 ++ [.busy false]) := by decide +kernel

/-- V-C6 on a 16 by 2 panel of variant A: two planes of 4 bytes. -/
theorem test_ctlClearFrameMemory_a :
    outcome .ctlClearFrameMemory (withArgs (smallA .idle [] []) 0x1FF 0 0 0 0 0) = (.ok, .idle,
      cmdEvents 0x10 ++ [.delay 2] ++ datsEvents [0xFF, 0xFF, 0xFF, 0xFF] ++ [.delay 2]
        ++ cmdEvents 0x13 ++ [.delay 2] ++ datsEvents [0xFF, 0xFF, 0xFF, 0xFF] ++ [.delay 2]) := by
  decide +kernel

/-- V-C6 on a 16 by 2 panel of variant B: two rows of 2 bytes, each after its wait. -/
theorem test_ctlClearFrameMemory_b :
    outcome .ctlClearFrameMemory (withArgs (smallB .idle [false, false] []) 0x1FF 0 0 0 0 0) =
      (.ok, .idle,
        cmdEvents 0x44 ++ datsEvents [0x00, 0x01] ++ cmdEvents 0x45 ++ datsEvents [0, 0, 1, 0]
          ++ cmdEvents 0x4E ++ datsEvents [0x00] ++ cmdEvents 0x4F ++ datsEvents [0x00, 0x00]
          ++ [.busy false] ++ cmdEvents 0x24 ++ datsEvents [0xFF, 0xFF]
          ++ cmdEvents 0x4E ++ datsEvents [0x00] ++ cmdEvents 0x4F ++ datsEvents [0x01, 0x00]
          ++ [.busy false] ++ cmdEvents 0x24 ++ datsEvents [0xFF, 0xFF]) := by decide +kernel

/-! ### Variant A (V-A3, V-A5, V-A4, V-A6) -/

/-- V-A3: x floored to 8, the red plane zeros. -/
theorem test_aSetPartialWindow :
    outcome (.aSetPartialWindow true false)
        (withArgs { blockA .idle [] [] with
          mem := [(0x100, 0xA0), (0x101, 0xA1), (0x102, 0xA2), (0x103, 0xA3)] } 0x100 0 13 5 16 2) =
      (.ok, .idle, cmdEvents 0x91 ++ cmdEvents 0x90
        ++ datsEvents [0x08, 0x17, 0x00, 0x05, 0x00, 0x06, 0x01] ++ [.delay 2] ++ cmdEvents 0x10
        ++ datsEvents [0xA0, 0xA1, 0xA2, 0xA3] ++ [.delay 2] ++ cmdEvents 0x13
        ++ datsEvents [0, 0, 0, 0] ++ [.delay 2] ++ cmdEvents 0x92) := by decide +kernel

/-- V-A5: clipped at the right and bottom, with the unclipped stride. -/
theorem test_aSetPartialWindow_clipped :
    outcome (.aSetPartialWindow true true)
        (withArgs { blockA .idle [] [] with mem := [(0x203, 3), (0x206, 6)] } 0x200 0x200 96 210 24 4) =
      (.ok, .idle, cmdEvents 0x91 ++ cmdEvents 0x90
        ++ datsEvents [0x60, 0x67, 0x00, 0xD2, 0x00, 0xD3, 0x01] ++ [.delay 2] ++ cmdEvents 0x10
        ++ datsEvents [0x00, 0x03] ++ [.delay 2] ++ cmdEvents 0x13 ++ datsEvents [0x00, 0x03]
        ++ [.delay 2] ++ cmdEvents 0x92) := by decide +kernel

/-- V-A6: clipped at the left and top. -/
theorem test_aSetPartialWindowBlack_clipped :
    outcome (.aSetPartialWindowBlack true)
        (withArgs { blockA .idle [] [] with mem := [(0x203, 3)] } 0x200 0 0xFFF8 0xFFFF 16 2) =
      (.ok, .idle, cmdEvents 0x91 ++ cmdEvents 0x90 ++ datsEvents [0, 0x07, 0, 0, 0, 0, 0x01]
        ++ [.delay 2] ++ cmdEvents 0x10 ++ datsEvents [0x03] ++ [.delay 2] ++ cmdEvents 0x92) := by
  decide +kernel

/-- V-A7: windows that clip to nothing. -/
theorem test_aSetPartialWindowBlack_nothing :
    outcome (.aSetPartialWindowBlack true) (withArgs (blockA .idle [] []) 0 0 0 0 7 1) = (.ok, .idle, []) ∧
      outcome (.aSetPartialWindowBlack true) (withArgs (blockA .idle [] []) 0 0 104 0 8 1) =
        (.ok, .idle, []) ∧
      outcome (.aSetPartialWindowBlack true) (withArgs (blockA .idle [] []) 0 0 0 0 8 0) =
        (.ok, .idle, []) ∧
      outcome (.aSetPartialWindowBlack true) (withArgs (blockA .idle [] []) 0 0 0 212 8 1) =
        (.ok, .idle, []) := by decide +kernel

/-! ### Variant B (V-B1 to V-B7, V-X1) -/

/-- V-B3: the partial preset, and LUT_CUR. -/
theorem test_bSetLut_partial :
    outcome (.bSetLut .presetPartial) (blockB .idle [] []) = (.ok, .idle,
        cmdEvents 0x32 ++ datsEvents [0x18] ++ datsEvents (List.replicate 15 0x00)
          ++ datsEvents [0x0F, 0x01] ++ datsEvents (List.replicate 12 0x00)) ∧
      (after (.bSetLut .presetPartial) (blockB .idle [] [])).lut = Params.lutPartial := by
  decide +kernel

/-- V-B3: a custom table, read back word by word. -/
theorem test_bSetLut_custom :
    let s := after (.bSetLut .custom) (withArgs { blockB .idle [] [] with
      mem := [(0x401, 0x01), (0x41C, 0x1C), (0x41D, 0x1D)] } 0x400 0 0 0 0 0)
    readReg 0x20 s = 0x0100 ∧ readReg 0x2E s = 0x1D1C := by decide +kernel

theorem test_bSetMemoryArea :
    outcome .bSetMemoryArea (withArgs (blockB .idle [] []) 8 0 121 249 0 0) = (.ok, .idle,
        cmdEvents 0x44 ++ datsEvents [0x01, 0x0F] ++ cmdEvents 0x45 ++ datsEvents [0, 0, 0xF9, 0]) ∧
      outcome .bSetMemoryArea (withArgs (blockB .idle [] []) 0 0 122 249 0 0) =
        (.invalidGeometry, .idle, []) ∧
      outcome .bSetMemoryArea (withArgs (blockB .idle [] []) 0xFFFF 0 8 8 0 0) =
        (.invalidGeometry, .idle, []) := by decide +kernel

theorem test_bSetMemoryPointer :
    outcome .bSetMemoryPointer (withArgs (blockB .idle [false] []) 17 3 0 0 0 0) = (.ok, .idle,
        cmdEvents 0x4E ++ datsEvents [0x02] ++ cmdEvents 0x4F ++ datsEvents [0x03, 0x00]
          ++ [.busy false]) ∧
      outcome .bSetMemoryPointer (withArgs (blockB .idle [false] []) 17 300 0 0 0 0) =
        (.invalidGeometry, .idle, []) := by decide +kernel

/-- V-X1: the guard comes before the argument check. -/
theorem test_bSetMemoryPointer_asleep :
    outcome .bSetMemoryPointer (withArgs (blockB .sleeping [] []) 500 500 0 0 0 0) =
      (.invalidState, .sleeping, []) := by decide +kernel

/-- V-B5: the stride comes from the unclipped width. -/
theorem test_bSetFrameMemoryAt :
    outcome .bSetFrameMemoryAt (withArgs { blockB .idle [false, false] [] with
          mem := [(0x300, 0x10), (0x301, 0x11), (0x302, 0x12), (0x303, 0x13), (0x304, 0x14)] }
        0x300 112 248 24 4 0) = (.ok, .idle,
      cmdEvents 0x44 ++ datsEvents [0x0E, 0x0F] ++ cmdEvents 0x45 ++ datsEvents [0xF8, 0, 0xF9, 0]
        ++ cmdEvents 0x4E ++ datsEvents [0x0E] ++ cmdEvents 0x4F ++ datsEvents [0xF8, 0x00]
        ++ [.busy false] ++ cmdEvents 0x24 ++ datsEvents [0x10, 0x11]
        ++ cmdEvents 0x4E ++ datsEvents [0x0E] ++ cmdEvents 0x4F ++ datsEvents [0xF9, 0x00]
        ++ [.busy false] ++ cmdEvents 0x24 ++ datsEvents [0x13, 0x14]) := by decide +kernel

/-- V-X5 on a poll limit of 2: a fault on row 1 keeps row 0's events and sends nothing after. -/
theorem test_bSetFrameMemoryAt_fault :
    outcome .bSetFrameMemoryAt (withArgs (smallB .idle [false, true, true, true, false] [])
        0x300 0 0 8 2 0) = (.hardwareFault, .uninitialized,
      cmdEvents 0x44 ++ datsEvents [0, 0] ++ cmdEvents 0x45 ++ datsEvents [0, 0, 1, 0]
        ++ cmdEvents 0x4E ++ datsEvents [0] ++ cmdEvents 0x4F ++ datsEvents [0, 0]
        ++ [.busy false] ++ cmdEvents 0x24 ++ datsEvents [0]
        ++ cmdEvents 0x4E ++ datsEvents [0] ++ cmdEvents 0x4F ++ datsEvents [1, 0]
        ++ [.busy true, .delay 100, .busy true, .delay 100, .busy true]) := by decide +kernel

/-- V-B4 on a 16 by 2 panel. -/
theorem test_bSetFrameMemory :
    outcome .bSetFrameMemory (withArgs { smallB .idle [false, false] [] with
          mem := [(0x1001, 1), (0x1002, 2), (0x1003, 3)] } 0x1000 0 0 0 0 0) = (.ok, .idle,
      cmdEvents 0x44 ++ datsEvents [0, 1] ++ cmdEvents 0x45 ++ datsEvents [0, 0, 1, 0]
        ++ cmdEvents 0x4E ++ datsEvents [0] ++ cmdEvents 0x4F ++ datsEvents [0, 0]
        ++ [.busy false] ++ cmdEvents 0x24 ++ datsEvents [0, 1]
        ++ cmdEvents 0x4E ++ datsEvents [0] ++ cmdEvents 0x4F ++ datsEvents [1, 0]
        ++ [.busy false] ++ cmdEvents 0x24 ++ datsEvents [2, 3]) := by decide +kernel

/-! ### The host's side and reset (V-T1, R46, R383) -/

/-- V-T1 and the register numbers of R46. -/
theorem test_reset_registers :
    readReg 0x08 State.reset = 0 ∧ readReg 0x09 State.reset = 0 ∧ readReg 0x0B State.reset = 104 ∧
      readReg 0x0C State.reset = 212 ∧ readReg 0x15 State.reset = 0x0005 ∧ readReg 0x2F State.reset = 0 ∧
      readReg 0x0A (State.resetWith Params.defaultB []) = 1 := by decide +kernel

/-- A write of CMD starts the operation, a second one is held until it has finished, and a read is
not (R32, R383). -/
theorem test_host_turns :
    let s := { State.reset with host := [.regWrite 0 0x0105, .regRead 0x09, .regWrite 0 0x0000] }
    (afterStep s).opbusy = true ∧
      (afterStep (afterStep s)).replies = [.reg 0x09 0x8000] ∧
      (afterStep (afterStep (afterStep s))).fb.inv = true ∧
      (afterStep (afterStep (afterStep s))).host = [.regWrite 0 0x0000] ∧
      (afterStep (afterStep (afterStep (afterStep s)))).cmd = 0x0000 := by decide +kernel

/-- R34, R341, R42: the codes the host reads. -/
theorem test_register_codes :
    [Fsm.uninitialized, .idle, .writing, .partialMode, .refreshing, .sleeping].map
        (fun f => readReg 0x08 { State.reset with fsm := f }) = [0, 1, 2, 3, 4, 5] ∧
      [Code.ok, .invalidGeometry, .invalidState, .hardwareFault, .hardwareInitFailure, .illegalOp].map
        (fun c => readReg 0x09 (State.reset.failed c)) = [0, 1, 2, 3, 4, 5] ∧
      [Rotation.r0, .r90, .r180, .r270].map
        (fun r => readReg 0x14 (after (.fbSetRotation r) State.reset)) = [0, 1, 2, 3] := by decide +kernel

/-- R380: CTL_RESET abandoned after two events keeps the two, and RST is high without an event; FB_CLEAR
abandoned after twelve pixels leaves those, and STATUS is not written. -/
theorem test_blockReset_abandons :
    let a := afterStep { State.reset with cmd := 0x0020, opbusy := true, host := [.blockReset 2] }
    let b := afterStep
      { canvas 16 .r0 true [] with cmd := 0x0110, opbusy := true, code := .illegalOp, host := [.blockReset 12] }
    a.trace.map Traced.event = [.delay 200, .pin .rst false] ∧ a.pins = Pins.reset ∧ a.opbusy = false ∧
      b.mem = [(0x1000, 0xFF), (0x1001, 0xF0)] ∧ b.code = .ok ∧ b.fb = FbRegs.reset := by decide +kernel

/-- V-E3 through a step: an unassigned word finishes IllegalOp. -/
theorem test_illegal_word :
    (afterStep { State.reset with cmd := 0x0006, opbusy := true }).code = .illegalOp := by decide +kernel

/-- The host's word port (log entry 9): the word placed is the word run. -/
theorem test_fetch_word :
    decodeTableWord 16 0x0044 = some .bSetFrameMemory ∧ decodeTableWord 16 0x0021 = some .ctlInitA ∧
      decodeTableWord 16 0x0121 = some (.ctlInitB .presetPartial) ∧
      decodeTableWord 16 0x0006 = none ∧
      (afterStep (State.reset.withFetchWord 16 0x0105)).fb.inv = true ∧
      (afterStep (State.reset.withFetchWord 16 0x0044)).code = .invalidState := by decide +kernel

/-! ### Witnesses: for each obligation with hypotheses, states and operands that meet them all -/

/-- The state `s` with a started command word and no pending access. -/
def started (s : State) (w : Word) : State := { s with cmd := w, opbusy := true }

theorem witness_DecodeOfEncode :
    Instr.nop.WellFormed .a = true ∧ (Instr.aSetPartialWindow true false).WellFormed .a = true ∧
      Instr.bSetFrameMemory.WellFormed .b = true := by decide

theorem witness_DecodedWordIsEncoding : decode .b 0x0240 = .ok (.bSetLut .custom) := by decide

/-- Each turn the sequencer can have, and one started word for each clause, at the ends of its range. -/
theorem witness_IllegalWordsChangeStatusOnly :
    (∀ w : Word, SequencerTurn (started State.reset w) (started State.reset w) ∧
        SequencerTurn { started State.reset w with host := [.pass] } (started State.reset w) ∧
        SequencerTurn { started State.reset w with host := [.memRead 0] }
          { started State.reset w with host := [.memRead 0] }) ∧
      (0x1000 : Word).extractLsb' 12 4 ≠ 0#4 ∧ (0xF021 : Word).extractLsb' 12 4 ≠ 0#4 ∧
      (([0x06, 0x0F, 0x1C, 0x1F, 0x25, 0x2F, 0x32, 0x3F, 0x45, 0xFF] : List Word).all fun w =>
        (w.setWidth 8).toNat ∈ List.range' 0x06 10 ++ List.range' 0x1C 4 ++ List.range' 0x25 11
          ++ List.range' 0x32 14 ++ List.range' 0x45 187) = true ∧
      (((0x0100 : Word).setWidth 8).toNat = 0x00 ∧ (0x0100 : Word).extractLsb' 8 4 ≠ 0#4) ∧
      (((0x0205 : Word).setWidth 8).toNat = 0x05 ∧ 1 < ((0x0205 : Word).extractLsb' 8 4).toNat) ∧
      (((0x0402 : Word).setWidth 8).toNat = 0x02 ∧ 3 < ((0x0402 : Word).extractLsb' 8 4).toNat) ∧
      (((0x0321 : Word).setWidth 8).toNat = 0x21 ∧ 2 < ((0x0321 : Word).extractLsb' 8 4).toNat) :=
  ⟨fun _ => ⟨⟨rfl, .inl ⟨rfl, rfl⟩⟩, ⟨rfl, .inr (.inl ⟨[], rfl, rfl⟩)⟩,
    ⟨rfl, .inr (.inr ⟨_, _, rfl, rfl, rfl⟩)⟩⟩, by decide +kernel⟩

/-- The ends of both opcode ranges, and CTL_INIT on each variant. -/
theorem witness_OtherVariantIsIllegal :
    SequencerTurn (started (blockB .idle [] []) 0x0030) (started (blockB .idle [] []) 0x0030) ∧
      ((started (blockB .idle [] []) 0x0030).cfg.variant = .b ∧ ((0x0030 : Word).setWidth 8).toNat = 0x30) ∧
      ((started (blockB .idle [] []) 0x013F).cfg.variant = .b ∧
        ((0x013F : Word).setWidth 8).toNat = 0x3F) ∧
      ((started (blockA .idle [] []) 0x0040).cfg.variant = .a ∧ ((0x0040 : Word).setWidth 8).toNat = 0x40) ∧
      ((started (blockA .idle [] []) 0x024F).cfg.variant = .a ∧
        ((0x024F : Word).setWidth 8).toNat = 0x4F) ∧
      (0x0021 : Word).setWidth 8 = 0x21#8 ∧ (0x0221 : Word).setWidth 8 = 0x21#8 :=
  ⟨⟨rfl, .inl ⟨rfl, rfl⟩⟩, by decide +kernel⟩

theorem witness_StepRunsDecodedOperation :
    (started State.reset 0x0105).opbusy = true ∧
      decode (started State.reset 0x0105).cfg.variant (started State.reset 0x0105).cmd =
        .ok (.fbSetInvert true) ∧
      (started State.reset 0x0105).host = [] ∧
      ({ started State.reset 0x0105 with host := [.pass] } : State).host = .pass :: [] ∧
      ({ started State.reset 0x0105 with host := [.regWrite 0 0] } : State).host = .regWrite 0 0 :: [] ∧
      (HostAct.regWrite 0 0).stalls = true ∧ (HostAct.regWrite 6 0).stalls = true := by decide +kernel

/-- The writable numbers 0 to 6 while idle, and the ignored numbers 7 and 255 also while busy. -/
theorem witness_RegisterWrites :
    ({ State.reset with host := [.regWrite 6 5] } : State).host = .regWrite 6 5 :: [] ∧
      State.reset.opbusy = false ∧ 6 < (7 : Byte).toNat ∧ 6 < (0xFF : Byte).toNat ∧
      ({ started State.reset 0 with host := [.regWrite 7 5] } : State).host = .regWrite 7 5 :: [] := by
  decide +kernel

theorem witness_IdleBlockDoesNothing : State.reset.opbusy = false ∧ State.reset.host = [] := by decide

/-- A write of CMD and of ARG5, and a DMEM access, while an operation is started; a register read then and
while none is, and a pass. -/
theorem witness_AccessesHeldWhileBusy :
    (started State.reset 0x0105).opbusy = true ∧ (0 : Byte).toNat ≤ 6 ∧ (6 : Byte).toNat ≤ 6 ∧
      ({ started State.reset 0 with host := [.memRead 5] } : State).host = .memRead 5 :: [] ∧
      ({ started State.reset 0 with host := [.regRead 8] } : State).host = .regRead 8 :: [] ∧
      ({ State.reset with host := [.regRead 9] } : State).host = .regRead 9 :: [] ∧
      State.reset.opbusy = false ∧ ({ State.reset with host := [.pass] } : State).host = .pass :: [] := by
  decide +kernel

theorem witness_HostMemoryPort :
    let s := { State.reset with host := [.memWrite 0xFFFF 0x00, .memRead 0] }
    s.opbusy = false ∧ Memory.wf s.mem = true ∧ s.host = .memWrite 0xFFFF 0x00 :: [.memRead 0] := by
  decide +kernel

/-- Each case: no operation runs, no effect yet, a word that does not decode. -/
theorem witness_BlockReset :
    ({ State.reset with host := [.blockReset 3] } : State).host = .blockReset 3 :: [] ∧
      State.reset.opbusy = false ∧
      ({ started State.reset 0x0022 with host := [.blockReset 0] } : State).host = .blockReset 0 :: [] ∧
      ∀ i, decode .a (started State.reset 0x0006).cmd ≠ .ok i :=
  ⟨rfl, rfl, rfl, fun _ => nofun⟩

/-- An operation that draws and one that emits events. -/
theorem witness_BlockResetAbandonsOperation :
    let s := started (canvas 16 .r0 true []) 0x0010
    s.opbusy = true ∧ decode s.cfg.variant s.cmd = .ok (.fbClear .uncolored) ∧
      exec (.fbClear .uncolored) { s with host := [] } = .next (after (.fbClear .uncolored) s) ∧
      Memory.wf s.mem = true ∧ s.fb.Wf ∧
      decode (started State.reset 0x0020).cfg.variant (started State.reset 0x0020).cmd = .ok .ctlReset :=
  ⟨rfl, rfl, rfl, by decide +kernel⟩

/-- Every code an operation can raise is raised from some stable state by an operation the block has. -/
theorem witness_OperationsRaiseTheirCodes :
    (after .fbInit State.reset).code = .invalidGeometry ∧
      (after .ctlSleep State.reset).code = .invalidState ∧
      (after .ctlSleep (smallA .idle [false, false, false] [])).code = .hardwareFault ∧
      (after .ctlInitA (blockA .idle [] [false])).code = .hardwareInitFailure ∧
      Instr.ctlSleep.WellFormed .a = true ∧ (smallA .idle [] []).fsm.stable = true := by decide +kernel

/-- One state for each code named. -/
theorem witness_FailuresHaveTheirPartialEffects :
    (after .bSetMemoryArea State.reset).code = .illegalOp ∧
      (after .ctlSleep State.reset).code = .invalidState ∧
      (after .fbSetWidth State.reset).code = .invalidGeometry ∧
      (after .ctlInitA (smallA .idle [false, false, false] [true])).code = .hardwareFault ∧
      (after (.ctlInitB .custom) (blockB .idle [] [false])).code = .hardwareInitFailure := by
  decide +kernel

theorem witness_FramebufferIgnoresController :
    Instr.fbSetHeight.allowed = none ∧ (after .fbSetHeight (bound 100)).code = .ok ∧
      (after .fbSetHeight (bound 213)).code = .invalidGeometry := by decide +kernel

/-- A width that is rounded up, one that is a multiple of 8, and the largest. -/
theorem witness_FbInitBindsBuffer :
    ((104 : Int) % 8 = 0 ∧ (97 : Word).toInt ≤ 104 ∧ 104 < (97 : Word).toInt + 8) ∧
      ((104 : Int) % 8 = 0 ∧ (104 : Word).toInt ≤ 104 ∧ 104 < (104 : Word).toInt + 8) ∧
      ((32768 : Int) % 8 = 0 ∧ (0x7FFF : Word).toInt ≤ 32768 ∧ 32768 < (0x7FFF : Word).toInt + 8) := by
  decide +kernel

theorem witness_FbSetWidthRounds :
    (104 : Int) % 8 = 0 ∧ (bound 97).arg0.toInt ≤ 104 ∧ 104 < (bound 97).arg0.toInt + 8 := by
  decide +kernel

/-- A frame of 16 by 16 in canonical memory: the hypotheses every drawing statement makes. -/
theorem canvas_wf (rot : Rotation) (inv : Bool) :
    Memory.wf (canvas 16 rot inv [(0x2000, 0x80)]).mem = true ∧ (canvas 16 rot inv []).fb.Wf := by
  cases rot <;> cases inv <;> decide +kernel

theorem witness_DrawingStaysInFrame :
    (Instr.fbClear .colored).draws = true ∧ Memory.wf (canvas 16 .r90 true []).mem = true ∧
      (canvas 16 .r90 true []).fb.Wf ∧ Instr.ctlSleep.draws = false ∧
      frameByte (canvas 16 .r0 true []).fb 0x101F ∧ ¬ frameByte (canvas 16 .r0 true []).fb 0x1020 := by
  refine ⟨rfl, rfl, by decide +kernel, rfl, ?_, ?_⟩ <;> unfold frameByte <;> decide +kernel

/-- A point at the last pixel of the frame, and one outside it. -/
theorem witness_AbsPixelWritesOnePixel :
    Memory.wf (canvas 16 .r0 true []).mem = true ∧ (canvas 16 .r0 true []).fb.Wf ∧
      inFrame (canvas 16 .r0 true []).fb 15 15 ∧ ¬ inFrame (canvas 16 .r0 true []).fb 16 0 := by
  refine ⟨rfl, by decide +kernel, ?_, ?_⟩ <;> unfold inFrame <;> decide +kernel

theorem witness_DrawPixelRotates :
    let s := withArgs (canvas 16 .r270 true []) 0 15 0 0 0 0
    Memory.wf s.mem = true ∧ s.fb.Wf ∧ 0 = s.arg0.toInt ∧ 15 = s.arg1.toInt ∧
      16 = (s.fb.width.toNat : Int) ∧ 16 = (s.fb.height.toNat : Int) := by decide +kernel

theorem witness_ClearFillsFrame :
    Memory.wf (canvas 16 .r0 false []).mem = true ∧ (canvas 16 .r0 false []).fb.Wf ∧
      frameByte (canvas 16 .r0 false []).fb 0x1000 ∧ ¬ frameByte (canvas 16 .r0 false []).fb 0x0FFF := by
  refine ⟨rfl, by decide +kernel, ?_, ?_⟩ <;> unfold frameByte <;> decide +kernel

theorem witness_PixelWriteIsIdempotent :
    Memory.wf (canvas 16 .r180 true []).mem = true ∧ (canvas 16 .r180 true []).fb.Wf := by decide +kernel

/-- A span that leaves the frame at its left end, and an empty one. -/
theorem witness_SpansDrawTheirPoints :
    let s := withArgs (canvas 16 .r0 true []) 0xFFFE 0 4 0 0 0
    Memory.wf s.mem = true ∧ s.fb.Wf ∧ s.arg0.toInt = -2 ∧ s.arg2.toInt = 4 := by decide +kernel

theorem witness_RectsDrawTheirBox :
    let s := withArgs (canvas 16 .r0 true []) 3 2 1 0 0 0
    Memory.wf s.mem = true ∧ s.fb.Wf ∧ 1 = min s.arg0.toInt s.arg2.toInt ∧
      3 = max s.arg0.toInt s.arg2.toInt ∧ 0 = min s.arg1.toInt s.arg3.toInt ∧
      2 = max s.arg1.toInt s.arg3.toInt := by decide +kernel

theorem witness_LineDrawsItsWalk :
    Memory.wf (withArgs (canvas 16 .r0 true []) 0 0 4 4 0 0).mem = true ∧
      (withArgs (canvas 16 .r0 true []) 0 0 4 4 0 0).fb.Wf := by decide +kernel

/-- A steep segment, a flat one and a single point. -/
theorem witness_LineProperties :
    (3 = max ((1 : Int) - 0).natAbs ((3 : Int) - 0).natAbs) ∧
      (4 = max ((4 : Int) - 0).natAbs ((0 : Int) - 0).natAbs) ∧
      (0 = max ((2 : Int) - 2).natAbs ((2 : Int) - 2).natAbs) ∧
      (⟨0, 0, 1, 3⟩ : Segment).passes ≤ 5 := by decide +kernel

theorem witness_CircleDrawsItsWalk :
    Memory.wf (withArgs (canvas 16 .r0 true []) 10 10 0xFFFE 0 0 0).mem = true ∧
      (withArgs (canvas 16 .r0 true []) 10 10 0xFFFE 0 0 0).fb.Wf := by decide +kernel

/-- Radius 0 and its one pass, and a point of the walk of radius 1. -/
theorem witness_CircleProperties :
    (0 : Int) ≤ 0 ∧ 2 * (0 : Int) + 1 ≤ (1 : Nat) ∧ ((9 : Int), (10 : Int)) ∈ circlePoints 10 10 1 false := by
  decide +kernel

/-- The font of V-R5, whose bitmap is outside the frame. -/
theorem glyph_outside (ch : Byte) (h : ch = 0x20 ∨ ch = 0x21) :
    glyphOutsideFrame (canvas 16 .r0 true []).fb { fh := 2, fw := 8, fbm := 0x2000 } ch := by
  intro i j hi hj
  simp only at hi hj
  have hi' : i < 8 := by omega
  have hj' : j < 2 := by omega
  rcases h with rfl | rfl <;> interval_cases i <;> interval_cases j <;> unfold frameByte <;>
    decide +kernel

theorem witness_CharDrawsGlyph :
    let s := withArgs (canvas 16 .r0 true []) 0 0 0x21 2 8 0x2000
    Memory.wf s.mem = true ∧ s.fb.Wf ∧
      ({ fh := 2, fw := 8, fbm := 0x2000 } : Font) =
        { fh := (s.arg3.toNat : Int), fw := (s.arg4.toNat : Int), fbm := (s.arg5.toNat : Int) } ∧
      0x21#8 = s.arg2.setWidth 8 ∧ glyphOutsideFrame s.fb { fh := 2, fw := 8, fbm := 0x2000 } 0x21 :=
  ⟨rfl, by decide +kernel, rfl, rfl, glyph_outside 0x21 (.inr rfl)⟩

theorem witness_StringDrawsGlyphs :
    let s := withArgs (canvas 16 .r0 true [(0x3000, 0x21), (0x3001, 0x20)]) 3 0 0x3000 2 8 0x2000
    Memory.wf s.mem = true ∧ s.fb.Wf ∧
      ({ fh := 2, fw := 8, fbm := 0x2000 } : Font) =
        { fh := (s.arg3.toNat : Int), fw := (s.arg4.toNat : Int), fbm := (s.arg5.toNat : Int) } ∧
      2 < 65536 ∧ (∀ k : Nat, k < 2 → memRead s.mem ((s.arg2.toNat : Int) + k) ≠ 0) ∧
      memRead s.mem ((s.arg2.toNat : Int) + (2 : Nat)) = 0 ∧
      (∀ k : Nat, k ≤ 2 → ¬ frameByte s.fb (wrapAddr ((s.arg2.toNat : Int) + k))) ∧
      (∀ k : Nat, k < 2 → glyphOutsideFrame s.fb { fh := 2, fw := 8, fbm := 0x2000 }
        (memRead s.mem ((s.arg2.toNat : Int) + k))) := by
  refine ⟨by decide +kernel, by decide +kernel, rfl, by decide, ?_, by decide +kernel, ?_, ?_⟩
  · intro k hk; interval_cases k <;> decide +kernel
  · intro k hk; interval_cases k <;> unfold frameByte <;> decide +kernel
  · intro k hk
    interval_cases k
    · exact glyph_outside 0x21 (.inr rfl)
    · exact glyph_outside 0x20 (.inl rfl)

theorem witness_GuardGivesInvalidState :
    Instr.ctlDisplayFrame.allowed ≠ none ∧ Instr.ctlDisplayFrame.WellFormed .a = true ∧
      (blockA .sleeping [] []).fsm = .sleeping ∧ Instr.ctlInitA ≠ .ctlReset ∧
      (blockA .uninitialized [] []).fsm = .uninitialized ∧ Instr.ctlDisplayFrame.isInit = false ∧
      (blockA .idle [] []).fsm = .idle ∧ (Instr.fbClear .colored).allowed = none ∧
      Instr.ctlInitA.isInit = true ∧ Instr.ctlReset.WellFormed .a = true ∧
      Instr.ctlInitA.WellFormed .a = true ∧ (after .ctlReset (blockA .sleeping [] [])).code = .ok ∧
      (after .ctlInitA (blockA .uninitialized [] [false])).code = .hardwareInitFailure := by decide +kernel

/-- A framebuffer operation, a state that is allowed and one that is not, and a run of each ending. -/
theorem witness_ControllerTransitions :
    Instr.nop.allowed = none ∧ Instr.ctlSleep.allowed = some [.idle] ∧ Instr.ctlSleep.WellFormed .a = true ∧
      (smallA .idle [] []).fsm ∈ [Fsm.idle] ∧ (smallA .sleeping [] []).fsm ∉ [Fsm.idle] ∧
      (after .ctlSleep (smallA .idle [true] [])).code = .ok ∧
      (after .ctlSleep (smallA .idle [false, false, false] [])).code = .hardwareFault ∧
      (after .bSetMemoryPointer (withArgs (smallB .idle [] []) 16 0 0 0 0 0)).code = .invalidGeometry ∧
      (after .ctlInitA (smallA .idle [] [false])).code = .hardwareInitFailure := by decide +kernel

theorem witness_ResetPulsesPanel :
    (blockA .sleeping [] []).fsm.stable = true ∧ (blockB .uninitialized [] []).fsm.stable = true ∧
      (blockA .sleeping [] []).fsm = .sleeping ∧ Instr.ctlInitA ≠ .ctlReset := by
  decide +kernel

/-- A panel ready at the first sample, and at the last one the limit allows. -/
theorem witness_InitACompletes :
    (smallA .uninitialized [true] [true]).cfg.variant = .a ∧
      (smallA .uninitialized [true] [true]).fsm = .uninitialized ∧
      (smallA .uninitialized [true] [true]).initIn.head? = some true ∧
      ReadyAfter (smallA .uninitialized [true] [true]) 0 ∧
      ReadyAfter (smallA .idle [false, false, true] [true]) 2 := by decide +kernel

theorem witness_InitBCompletes :
    (blockB .uninitialized [] [true]).cfg.variant = .b ∧
      (blockB .uninitialized [] [true]).fsm = .uninitialized ∧
      (blockB .uninitialized [] [true]).initIn.head? = some true := by decide +kernel

theorem witness_InitFailureStaysUninitialized :
    Instr.ctlInitA.isInit = true ∧ Instr.ctlInitA.WellFormed .a = true ∧
      (blockA .idle [] [false]).fsm = .idle ∧ (blockA .idle [] [false]).initIn.head? = some false ∧
      (after .ctlInitA (blockA .idle [] [false])).code = .hardwareInitFailure := by
  decide +kernel

/-- Each of the three clauses: another state, a ready panel, one that is never ready. -/
theorem witness_DisplayFrameCompletes :
    (smallB .sleeping [] []).fsm ≠ .idle ∧ (smallB .idle [true, false] []).fsm = .idle ∧
      ReadyAfter (smallB .idle [true, false] []) 1 ∧ NeverReady (smallB .idle [true, true, true] []) := by
  decide +kernel

theorem witness_SleepCompletes :
    (smallA .uninitialized [] []).fsm ≠ .idle ∧ ReadyAfter (smallA .idle [false, false, true] []) 2 ∧
      NeverReady (smallA .idle [false, false, false] []) := by decide +kernel

/-- Another state; variant A; variant B, row 0 ready at the last sample the limit allows and row 1 at the
first, or never. -/
theorem witness_ClearFrameMemoryCompletes :
    (blockA .sleeping [] []).fsm ≠ .idle ∧
      ((blockA .idle [] []).cfg.variant = .a ∧ (blockA .idle [] []).fsm = .idle ∧
        ∃ plane : Byte → List Event, ∀ b, plane b = cmdEvents b ++ settleEvents Params.defaultA
          ++ datsEvents (List.replicate ((Params.defaultA.panelW.toNat + 7) / 8
            * Params.defaultA.panelH.toNat) (0 : Byte)) ++ settleEvents Params.defaultA) ∧
      (smallB .idle [true, true, false, false] []).cfg.variant = .b ∧
      (smallB .idle [true, true, false, false] []).fsm = .idle ∧
      (smallB .idle [true, true, false, false] []).cfg.panelH.toNat = 2 ∧
      ReadyEach (smallB .idle [true, true, false, false] []) 2 (fun j => 2 - 2 * j) ∧
      ReadyThenNever (smallB .idle [true, true, false, true, true, true] []) 1 fun j => 2 - 2 * j :=
  ⟨by decide, ⟨rfl, rfl, _, fun _ => rfl⟩, rfl, rfl, rfl, by decide +kernel, by decide +kernel⟩

/-- A window that clips to nothing and one that is cut at the right edge. -/
theorem witness_ClipKeepsVisiblePart :
    (∃ visible : Int → Int → Prop, ∀ c j, visible c j ↔
        0 ≤ c ∧ c < ((Params.defaultB.panelW.toNat + 7) / 8 : Nat) ∧ 0 ≤ j ∧
          j < (Params.defaultB.panelH.toNat : Int) ∧ (112 : Int) / 8 ≤ c ∧ c < 112 / 8 + 24 / 8 ∧
          248 ≤ j ∧ j < 248 + 4) ∧
      clip Params.defaultB 112 248 7 4 = none ∧
      (clip Params.defaultB 112 248 24 4).isSome = true ∧
      ({ Params.defaultA with panelW := 256 } : Config).Wf ∧
      clip { Params.defaultA with panelW := 256 } 0 0 256 1 = some ⟨0, 0, 31, 0, 0, 32, 0⟩ := by
  refine ⟨⟨_, fun _ _ => Iff.rfl⟩, ?_, ?_, ?_, ?_⟩ <;> decide +kernel

/-- Each clause: another state, a window that clips to nothing, one that does not. -/
theorem witness_PartialWindowsComplete :
    let s := withArgs (blockA .idle [] []) 0x100 0 13 5 16 2
    s.cfg.variant = .a ∧ s.fsm = .idle ∧ (blockA .sleeping [] []).fsm ≠ .idle ∧
      (clip s.cfg s.arg2.toInt s.arg3.toInt s.arg4.toInt s.arg5.toInt).isSome = true ∧
      clip s.cfg 0 0 7 1 = none := by decide +kernel

theorem witness_SetLutUploads :
    (blockB .idle [] []).cfg.variant = .b ∧ (blockB .idle [] []).fsm = .idle ∧
      (blockB .sleeping [] []).fsm ≠ .idle := by decide +kernel

theorem witness_SetMemoryAreaChecksBounds :
    let s := withArgs (blockB .idle [] []) 8 0 121 249 0 0
    s.cfg.variant = .b ∧ 8 = s.arg0.toInt ∧ 0 = s.arg1.toInt ∧ 121 = s.arg2.toInt ∧
      249 = s.arg3.toInt ∧ 122 = (s.cfg.panelW.toNat : Int) ∧ 250 = (s.cfg.panelH.toNat : Int) := by
  decide +kernel

/-- Each clause: another state, a point off the panel, the last point of it with a ready panel and
with one that is never ready. -/
theorem witness_SetMemoryPointerWaits :
    let s := withArgs (smallB .idle [true, true, false] []) 15 1 0 0 0 0
    s.cfg.variant = .b ∧ s.fsm = .idle ∧ 15 = s.arg0.toInt ∧ 1 = s.arg1.toInt ∧
      16 = (s.cfg.panelW.toNat : Int) ∧ 2 = (s.cfg.panelH.toNat : Int) ∧ ReadyAfter s 2 ∧
      NeverReady (smallB .idle [true, true, true] []) ∧ (smallB .sleeping [] []).fsm ≠ .idle ∧
      (withArgs (smallB .idle [] []) 16 1 0 0 0 0).arg0.toInt = 16 := by decide +kernel

/-- The window of V-B5 with its two rows ready, the second after one sample, and one that clips to
nothing. -/
theorem witness_SetFrameMemoryAtCompletes :
    let s := withArgs (blockB .idle [false, true, false] []) 0x300 112 248 24 4 0
    s.cfg.variant = .b ∧ s.fsm = .idle ∧
      clip s.cfg s.arg1.toInt s.arg2.toInt s.arg3.toInt s.arg4.toInt =
        some ⟨14, 14, 15, 248, 249, 3, 248⟩ ∧
      ReadyEach s ((249 : Int) - 248 + 1).toNat (fun j => j) ∧ clip s.cfg 0 0 16 0 = none := by decide +kernel

theorem witness_SetFrameMemoryCompletes :
    let s := smallB .idle [false, true, false] []
    s.cfg.variant = .b ∧ s.fsm = .idle ∧ 2 = (s.cfg.panelW.toNat + 7) / 8 ∧
      ReadyEach s s.cfg.panelH.toNat fun j => j := by decide +kernel

theorem witness_FullFrameIsWholeWindow :
    let s := withArgs (smallB .idle [] []) 0x1000 0 0 16 2 0
    s.cfg.variant = .b ∧ 2 = (s.cfg.panelW.toNat + 7) / 8 ∧ 0 < s.cfg.panelW.toNat ∧
      0 < s.cfg.panelH.toNat ∧ s.arg1.toInt = 0 ∧ s.arg2.toInt = 0 ∧
      s.arg3.toInt = 8 * ((2 : Nat) : Int) ∧ s.arg4.toInt = (s.cfg.panelH.toNat : Int) := by
  decide +kernel

theorem witness_FaultEndsAtTimedOutWait :
    (after .ctlDisplayFrame (smallA .idle [false, false, false] [])).code = .hardwareFault := by
  decide +kernel

theorem witness_DelayTotals :
    Instr.ctlInitA.WellFormed .a = true ∧
      ReadyFor (smallA .idle [true, true, true] [true])
        ((smallA .idle [true, true, true] [true]).cfg.panelH.toNat + 1) ∧
      (after .ctlInitA (smallA .idle [true, true, true] [true])).code = .ok := by decide +kernel

theorem witness_EventsKeepPortProtocol :
    (after .ctlReset State.reset).code = .ok ∧ State.reset.pins.AtRest = true := by decide +kernel

/-- A state with an operation started meets the invariant. -/
theorem witness_StepKeepsInv : (started (canvas 16 .r0 true []) 0x0010).Inv := by
  unfold State.Inv
  decide +kernel

theorem witness_ResetMeetsInv :
    Memory.wf [(0x1000, 0xFF)] = true ∧ ({ Params.defaultA with panelW := 256 } : Config).Wf ∧
      Params.defaultB.Wf ∧ ¬ ({ Params.defaultA with panelW := 257 } : Config).Wf := by decide +kernel

theorem witness_StepKeepsFramebufferInvariant :
    FbRegs.reset.Wf ∧ (canvas 16 .r0 true []).fb.Wf := by decide +kernel

/-- Each way: LUT_CUR kept, reset, and uploaded. -/
theorem witness_ParametersAndLutAreKept :
    let s := { blockB .idle [] [] with lut := Params.lutFull, host := [.blockReset 0] }
    (afterStep (started (blockB .idle [] []) 0x0041)).lut = Lut.reset ∧
      s.lut ≠ Lut.reset ∧ (afterStep s).lut = Lut.reset ∧
      (afterStep (started (blockB .idle [] []) 0x0140)).lut = Params.lutPartial := by decide +kernel

end Sys2Proof.Tests
end

section
/-! PROOFS. What each part of a step does to the parameters and to LUT_CUR (10_state.md R36, R37, R45;
44_variant_b.md R302), and the settlement of O60. -/

namespace Sys2Proof.Machine

/-! ### Turns and guards -/

theorem host_of_turn_access {s : State} {a : HostAct} {rest : List HostAct}
    (h : turn s = .access a rest) : s.host = a :: rest := by
  unfold turn at h
  split at h
  case h_1 => split at h <;> cases h
  case h_2 hs =>
    split at h
    · cases h
    · cases h; exact hs
  case h_3 hs =>
    split at h
    · cases h
    · cases h; exact hs

theorem opbusy_of_turn_sequencer {s : State} {rest : List HostAct}
    (h : turn s = .sequencer rest) : s.opbusy = true := by
  unfold turn at h
  split at h
  case h_1 | h_2 =>
    split at h
    · assumption
    · cases h
  case h_3 =>
    split at h
    · next hb => exact (Bool.and_eq_true_iff.mp hb).1
    · cases h

theorem onVariant_cases (v : Variant) (body : State → State) (s : State) :
    (s.cfg.variant = v ∧ onVariant v body s = body s) ∨ onVariant v body s = raise .illegalOp s := by
  unfold onVariant
  split
  · exact .inl ⟨‹_›, rfl⟩
  · exact .inr rfl

theorem guarded_cases (allowed : List Fsm) (body : State → State) (s : State) :
    guarded allowed body s = body s ∨ guarded allowed body s = raise .invalidState s := by
  unfold guarded
  split
  · exact .inl rfl
  · exact .inr rfl

/-! ### Operations that keep LUT_CUR -/

theorem Ran.lut {s t : State} {evs : List Event} (h : Ran s t evs) : t.lut = s.lut := by
  rw [h]

theorem Ran.cfg {s t : State} {evs : List Event} (h : Ran s t evs) : t.cfg = s.cfg := by
  rw [h]

@[simp] theorem runPort_lut (ops : List PortOp) (s : State) : (runPort ops s).2.lut = s.lut := by
  obtain ⟨_, hr, _⟩ := runPort_ran ops s
  exact hr.lut

@[simp] theorem hwInit_lut (s : State) : (hwInit s).2.lut = s.lut := (hwInit_ran s).lut

@[simp] theorem endRun_lut (after : Fsm) (r : Bool × State) : (endRun after r).lut = r.2.lut := by
  unfold endRun
  split <;> rfl

@[simp] theorem runAs_lut (during after : Fsm) (ops : List PortOp) (s : State) :
    (runAs during after ops s).lut = s.lut := by
  simp [runAs]

theorem runInit_lut {body : State → Bool × State} (h : ∀ s, (body s).2.lut = s.lut) (s : State) :
    (runInit body s).lut = s.lut := by
  unfold runInit
  dsimp only
  split <;> simp [h]

@[simp] theorem runPartialA_lut (bufB : Int) (hasB : Bool) (red : Option (Int × Bool)) (s : State) :
    (runPartialA bufB hasB red s).lut = s.lut := by
  unfold runPartialA
  split <;> simp

@[simp] theorem runSetMemoryArea_lut (s : State) : (runSetMemoryArea s).lut = s.lut := by
  unfold runSetMemoryArea
  dsimp only
  split <;> simp

@[simp] theorem runSetMemoryPointer_lut (s : State) : (runSetMemoryPointer s).lut = s.lut := by
  unfold runSetMemoryPointer
  dsimp only
  split <;> simp

@[simp] theorem runSetFrameMemoryAt_lut (s : State) : (runSetFrameMemoryAt s).lut = s.lut := by
  unfold runSetFrameMemoryAt
  split <;> simp

theorem onVariant_lut (v : Variant) {body : State → State} {s : State}
    (h : (body s).lut = s.lut) : (onVariant v body s).lut = s.lut := by
  rcases onVariant_cases v body s with ⟨-, he⟩ | he <;> rw [he]
  · exact h
  · rfl

theorem guarded_lut (allowed : List Fsm) {body : State → State} {s : State}
    (h : (body s).lut = s.lut) : (guarded allowed body s).lut = s.lut := by
  rcases guarded_cases allowed body s with he | he <;> rw [he]
  · exact h
  · rfl

/-! ### The upload -/

/-- The step from `s` to `t` finishes `OK`, and its last events are the upload of the table LUT_CUR
holds in `t` (R302). -/
def LutUploaded (s t : State) : Prop :=
  t.code = .ok ∧
    ∃ before, t.trace.map Traced.event =
      (before ++ cmdEvents s.cfg.cmdB.writeLutRegister ++ datsEvents t.lut.toList).reverse
        ++ s.trace.map Traced.event

/-- A table upload never waits, so it runs to its end whatever the panel answers. -/
theorem setLutB_eq (sel : LutSel) (s : State) :
    setLutB sel s = (true, (setLut (lutFor sel s) s).observed s.fsm
      (cmdEvents s.cfg.cmdB.writeLutRegister ++ datsEvents (lutFor sel s).toList)) := by
  have hw : waits (uploadLut s.cfg (lutFor sel s)) = 0 := by
    simp [uploadLut, waits, List.countP_map, Function.comp_def]
  have he : (uploadLut s.cfg (lutFor sel s)).flatMap (PortOp.readyEvents s.cfg) =
      cmdEvents s.cfg.cmdB.writeLutRegister ++ datsEvents (lutFor sel s).toList := by
    simp only [uploadLut, List.flatMap_cons, List.flatMap_map, datsEvents]
    rfl
  rw [← he]
  exact runPort_ready _ (setLut (lutFor sel s) s) (by rw [hw]; rfl)

/-- An upload after a run from `s0` that only emitted events. -/
theorem endRun_setLutB_uploaded {f : Fsm} {s0 s : State} {evs : List Event}
    (h : Ran (setFsm f s0) s evs) (sel : LutSel) :
    LutUploaded s0 (endRun .idle (setLutB sel s)) := by
  have hcfg : s.cfg = s0.cfg := h.cfg
  have htr : s.trace.map Traced.event = evs.reverse ++ s0.trace.map Traced.event := by
    rw [h]
    simp [List.map_reverse, Function.comp_def]
  rw [setLutB_eq, hcfg]
  refine ⟨rfl, evs, ?_⟩
  simp [endRun, htr, List.map_reverse, Function.comp_def]

/-! ### One operation -/

/-- What operation `i` does to LUT_CUR between `s` and `t`: it keeps it, or it is a table upload of
variant B. -/
def LutKeptOrUploaded (i : Instr) (s t : State) : Prop :=
  t.lut = s.lut ∨
    (s.cfg.variant = .b ∧ (∃ sel, i = .ctlInitB sel ∨ i = .bSetLut sel) ∧ LutUploaded s t)

theorem execBSetLut_lut (sel : LutSel) (s : State) :
    LutKeptOrUploaded (.bSetLut sel) s (onVariant .b (guarded [.idle] (runSetLut sel)) s) := by
  rcases onVariant_cases .b (guarded [.idle] (runSetLut sel)) s with ⟨hv, he⟩ | he <;> rw [he]
  · rcases guarded_cases [.idle] (runSetLut sel) s with he | he <;> rw [he]
    · exact .inr ⟨hv, ⟨sel, .inr rfl⟩, endRun_setLutB_uploaded (f := s.fsm) (Ran.refl s) sel⟩
    · exact .inl rfl
  · exact .inl rfl

/-- CTL_INIT on variant B once its guard holds: a failed handshake or a failed run before the upload
keeps LUT_CUR. -/
theorem runInit_runInitB_lut (sel : LutSel) (s : State) :
    (runInit (runInitB sel) s).lut = s.lut ∨ LutUploaded s (runInit (runInitB sel) s) := by
  unfold runInit runInitB
  dsimp only
  split
  · obtain ⟨evs, hr, -⟩ := runPort_ran (initB (resetPulse (hwInit (setFsm .uninitialized s)).2).cfg)
      (resetPulse (hwInit (setFsm .uninitialized s)).2)
    have hrun := ((hwInit_ran (setFsm .uninitialized s)).trans (resetPulse_ran _)).trans hr
    split
    · exact .inr (endRun_setLutB_uploaded hrun sel)
    · exact .inl (by simp)
  · exact .inl (by simp)

theorem execCtlInitB_lut (sel : LutSel) (s : State) : LutKeptOrUploaded (.ctlInitB sel) s
    (onVariant .b (guarded [.uninitialized, .idle] (runInit (runInitB sel))) s) := by
  rcases onVariant_cases .b (guarded [.uninitialized, .idle] (runInit (runInitB sel))) s with
    ⟨hv, he⟩ | he <;> rw [he]
  · rcases guarded_cases [.uninitialized, .idle] (runInit (runInitB sel)) s with he | he <;> rw [he]
    · exact (runInit_runInitB_lut sel s).imp_right fun hu => ⟨hv, ⟨sel, .inl rfl⟩, hu⟩
    · exact .inl rfl
  · exact .inl rfl

theorem Effect.cfg {i : Instr} {s t : State} (h : Effect i s t) : t.cfg = s.cfg := by
  cases h <;> rfl

/-- An operation without a state guard makes no run of the panel port, and only such a run writes
LUT_CUR. -/
theorem Effect.lut {i : Instr} {s t : State} (h : Effect i s t) (hi : i.allowed = none) :
    t.lut = s.lut := by
  cases h with
  | status | geometry | drawn => rfl
  | port _ _ _ _ _ _ _ _ _ _ hd => simp [hi] at hd

theorem exec_lut (i : Instr) (s : State) : ∃ t, exec i s = .next t ∧ LutKeptOrUploaded i s t := by
  cases i with
  | ctlInitB sel => exact ⟨_, rfl, execCtlInitB_lut sel s⟩
  | bSetLut sel => exact ⟨_, rfl, execBSetLut_lut sel s⟩
  | ctlReset => exact ⟨_, rfl, .inl (guarded_lut _ (by simp))⟩
  | ctlInitA =>
    exact ⟨_, rfl, .inl (onVariant_lut _ (guarded_lut _ (runInit_lut (fun _ => runPort_lut _ _) s)))⟩
  | ctlDisplayFrame | ctlSleep | ctlClearFrameMemory =>
    exact ⟨_, rfl, .inl (guarded_lut _ (runAs_lut _ _ _ s))⟩
  | aSetPartialWindow | aSetPartialWindowBlack =>
    exact ⟨_, rfl, .inl (onVariant_lut _ (guarded_lut _ (runPartialA_lut _ _ _ s)))⟩
  | bSetMemoryArea => exact ⟨_, rfl, .inl (onVariant_lut _ (guarded_lut _ (runSetMemoryArea_lut s)))⟩
  | bSetMemoryPointer =>
    exact ⟨_, rfl, .inl (onVariant_lut _ (guarded_lut _ (runSetMemoryPointer_lut s)))⟩
  | bSetFrameMemoryAt =>
    exact ⟨_, rfl, .inl (onVariant_lut _ (guarded_lut _ (runSetFrameMemoryAt_lut s)))⟩
  | bSetFrameMemory => exact ⟨_, rfl, .inl (onVariant_lut _ (guarded_lut _ (runAs_lut _ _ _ s)))⟩
  | _ =>
    obtain ⟨t, ht, he⟩ := exec_effect _ s
    exact ⟨t, ht, .inl (he.lut rfl)⟩

/-- The sequencer's turn: LUT_CUR stays, also where CMD's word does not decode, or CMD decodes on
variant B to an operation that uploads a table. -/
theorem runCommand_cfg_lut {s t : State} (h : runCommand s = .next t) : t.cfg = s.cfg ∧
    (t.lut = s.lut ∨ (s.cfg.variant = .b ∧
      (∃ sel, decode .b s.cmd = .ok (.ctlInitB sel) ∨ decode .b s.cmd = .ok (.bSetLut sel)) ∧
      LutUploaded s t)) := by
  unfold runCommand at h
  split at h
  case h_1 i hd =>
    obtain ⟨u, hu, heff⟩ := exec_effect i s
    obtain ⟨v, hv, hlut⟩ := exec_lut i s
    cases hu.symm.trans h
    cases hv.symm.trans h
    refine ⟨heff.cfg, hlut.imp_right ?_⟩
    rintro ⟨hb, ⟨sel, hi⟩, hup⟩
    rw [hb] at hd
    refine ⟨hb, ⟨sel, ?_⟩, hup⟩
    rcases hi with rfl | rfl
    · exact .inl hd
    · exact .inr hd
  case h_2 =>
    cases h
    exact ⟨rfl, .inl rfl⟩

/-! ### One access of the host -/

theorem writeReg_cfg_lut (n : Byte) (v : Word) (s : State) :
    (writeReg n v s).cfg = s.cfg ∧ (writeReg n v s).lut = s.lut := by
  unfold writeReg
  repeat' split
  all_goals exact ⟨rfl, rfl⟩

@[simp] theorem abandoned_cfg (k : Nat) (s : State) : (abandoned k s).cfg = s.cfg := by
  obtain ⟨evs, m, he, -⟩ := abandoned_cases k s
  rw [he]
  rfl

theorem perform_cfg_lut (a : HostAct) (s : State) : (perform a s).cfg = s.cfg ∧
    ((perform a s).lut = s.lut ∨ ((perform a s).lut = Lut.reset ∧ ∃ k, a = .blockReset k)) := by
  cases a with
  | regWrite n v => exact (writeReg_cfg_lut n v s).imp_right .inl
  | blockReset k => exact ⟨abandoned_cfg k s, .inr ⟨rfl, k, rfl⟩⟩
  | regRead | memWrite | memRead | pass => exact ⟨rfl, .inl rfl⟩

end Sys2Proof.Machine

namespace Sys2Proof.Proofs

open Sys2Proof.Machine

/-- Settles O60, by whose turn the step is: an access writes LUT_CUR only by block reset, the sequencer
only by a table upload. -/
theorem parametersAndLutAreKept : Obligations.ParametersAndLutAreKept := by
  intro s t h
  unfold step at h
  split at h
  case h_1 a rest hturn =>
    cases h
    obtain ⟨hcfg, hlut⟩ := perform_cfg_lut a (setHost rest s)
    refine ⟨hcfg, hlut.imp_right fun ⟨hreset, k, ha⟩ => .inl ⟨hreset, k, rest, ?_⟩⟩
    rw [host_of_turn_access hturn, ha]
  case h_2 rest hturn =>
    obtain ⟨hcfg, hlut⟩ := runCommand_cfg_lut h
    refine ⟨hcfg, hlut.imp_right ?_⟩
    rintro ⟨hv, hop, hok, htrace⟩
    exact .inr ⟨hv, opbusy_of_turn_sequencer hturn, hok, hop, htrace⟩
  case h_3 =>
    cases h
    exact ⟨rfl, .inl rfl⟩

end Sys2Proof.Proofs
end

section
/-! PROOFS. What every step keeps (10_state.md R43; 42_controller_core.md R228, R241), and the
settlement of O57, O58 and O59: an access of the host, one operation and reset each keep the invariant
of the block, and `step_keeps` puts them together. -/

namespace Sys2Proof.Machine

/-! ### One access of the host -/

/-- A host register write changes CMD, the arguments and OPBUSY alone (R46). -/
theorem writeReg_eq (n : Byte) (v : Word) (s : State) :
    ∃ (cmd a0 a1 a2 a3 a4 a5 : Word) (b : Bool), writeReg n v s = { s with
      cmd := cmd, arg0 := a0, arg1 := a1, arg2 := a2, arg3 := a3, arg4 := a4, arg5 := a5
      opbusy := b } := by
  unfold writeReg
  repeat' split
  all_goals exact ⟨_, _, _, _, _, _, _, _, rfl⟩

theorem reset_fb_wf : FbRegs.reset.Wf := by decide

theorem perform_fb_wf (a : HostAct) {s : State} (h : s.fb.Wf) : (perform a s).fb.Wf := by
  cases a with
  | regWrite n v =>
    obtain ⟨_, _, _, _, _, _, _, _, he⟩ := writeReg_eq n v s
    change (writeReg n v s).fb.Wf
    rw [he]
    exact h
  | blockReset k => exact reset_fb_wf
  | regRead | memWrite | memRead | pass => exact h

theorem resetWith_inv {cfg : Config} {m : Memory} (hcfg : cfg.Wf) (hm : Memory.wf m = true) :
    (State.resetWith cfg m).Inv :=
  ⟨hcfg, hm, reset_fb_wf, rfl, rfl, fun _ => rfl⟩

/-- A block reset leaves what the launch reset leaves in every field the invariant reads, on the DMEM
of the operation it cuts short. -/
theorem blockReset_abandoned_inv (k : Nat) {s : State} (h : s.Inv) :
    (blockReset (abandoned k s)).Inv := by
  obtain ⟨hcfg, hmem, -⟩ := h
  obtain ⟨evs, m, he, hm⟩ := abandoned_cases k s
  rw [he]
  exact resetWith_inv hcfg (hm hmem)

theorem perform_inv (a : HostAct) {s : State} (h : s.Inv) : (perform a s).Inv := by
  cases a with
  | regWrite n v =>
    obtain ⟨_, _, _, _, _, _, _, _, he⟩ := writeReg_eq n v s
    change (writeReg n v s).Inv
    rw [he]
    exact h
  | memWrite a v =>
    obtain ⟨hcfg, hmem, hrest⟩ := h
    exact ⟨hcfg, write_wf hmem a.isLt, hrest⟩
  | blockReset k => exact blockReset_abandoned_inv k h
  | regRead | memRead | pass => exact h

/-! ### One operation -/

theorem Effect.fb_wf {i : Instr} {s t : State} (h : Effect i s t) (hs : s.fb.Wf) : t.fb.Wf := by
  cases h with
  | geometry fb hfb => exact hfb hs
  | status | drawn | port => exact hs

theorem Effect.inv {i : Instr} {s t : State} (h : Effect i s t) (hs : s.Inv) : t.Inv := by
  obtain ⟨hcfg, hmem, hfb, hfsm, hpins, hlut⟩ := hs
  cases h with
  | status c => exact ⟨hcfg, hmem, hfb, hfsm, hpins, hlut⟩
  | geometry fb hfb' => exact ⟨hcfg, hmem, hfb' hfb, hfsm, hpins, hlut⟩
  | drawn m _ hm => exact ⟨hcfg, hm hmem, hfb, hfsm, hpins, hlut⟩
  | port after c evs lut busyIn initIn draws ha ht hl =>
    exact ⟨hcfg, hmem, hfb, ha, ht.atRest hpins, fun hv => (hl hv).trans (hlut hv)⟩

/-- The sequencer's turn always answers, and what it leaves is an effect some operation can have: a word
that does not decode changes STATUS alone (R342), as NOP does. -/
theorem runCommand_effect (s : State) : ∃ i t, runCommand s = .next t ∧ Effect i s t := by
  unfold runCommand
  split
  case h_1 i _ => exact ⟨i, exec_effect i s⟩
  case h_2 => exact ⟨.nop, _, rfl, .status .illegalOp⟩

/-! ### One step -/

/-- What a change of the pending accesses, every access and every operation keep, a step keeps. -/
theorem step_keeps {P : State → Prop} (hhost : ∀ h s, P s → P (setHost h s))
    (haccess : ∀ a s, P s → P (perform a s)) (hop : ∀ i s t, Effect i s t → P s → P t)
    {s t : State} (hs : P s) (h : step s = .next t) : P t := by
  unfold step at h
  split at h
  case h_1 a rest _ =>
    cases h
    exact haccess a _ (hhost rest s hs)
  case h_2 rest _ =>
    obtain ⟨i, u, hu, heff⟩ := runCommand_effect (setHost rest s)
    cases hu.symm.trans h
    exact hop i _ _ heff (hhost rest s hs)
  case h_3 =>
    cases h
    exact hs

end Sys2Proof.Machine

namespace Sys2Proof.Proofs

open Sys2Proof.Machine

/-- Settles O57: every access and every operation keep the invariant. -/
theorem stepKeepsInv : Obligations.StepKeepsInv := fun _ _ hs h =>
  step_keeps (P := fun s => s.Inv) (fun _ _ hs => hs) (fun a _ => perform_inv a)
    (fun _ _ _ heff => heff.inv) hs h

/-- Settles O59: only the geometry operations and reset write the framebuffer registers, and each keeps
R43. -/
theorem stepKeepsFramebufferInvariant : Obligations.StepKeepsFramebufferInvariant := fun _ _ hs h =>
  step_keeps (P := fun s => s.fb.Wf) (fun _ _ hs => hs) (fun a _ => perform_fb_wf a)
    (fun _ _ _ heff => heff.fb_wf) hs h

/-- Settles O58: the default parameters and the empty memory are among those a block can have. -/
theorem resetMeetsInv : Obligations.ResetMeetsInv :=
  ⟨resetWith_inv (by decide) rfl, fun _ _ => resetWith_inv⟩

end Sys2Proof.Proofs
end

section
/-! PROOFS. What the host reads and when its accesses are performed (10_state.md R46, R69;
70_reset_and_hazards.md R383), and the settlement of O8, O9 and O14. -/

namespace Sys2Proof.Machine

/-! ### Whose turn it is -/

theorem turn_of_stalls {s : State} {a : HostAct} {r : List HostAct} (hb : s.opbusy = true)
    (hs : s.host = a :: r) (ha : a.stalls = true) : turn s = .sequencer (a :: r) := by
  cases a with
  | regRead | blockReset | pass => cases ha
  | regWrite | memWrite | memRead => simp [turn, hs, hb, ha]

theorem turn_of_not_busy {s : State} {a : HostAct} {r : List HostAct} (hb : s.opbusy = false)
    (hs : s.host = a :: r) : turn s = .access a r := by
  cases a <;> simp [turn, hs, hb]

theorem turn_of_regRead {s : State} {n : Byte} {r : List HostAct} (hs : s.host = .regRead n :: r) :
    turn s = .access (.regRead n) r := by
  simp [turn, hs, HostAct.stalls]

theorem step_of_turn_access {s : State} {a : HostAct} {r : List HostAct} (h : turn s = .access a r) :
    step s = .next (perform a (setHost r s)) := by
  unfold step
  rw [h]

/-- With a stalling access pending the sequencer runs the started operation, on the state as it is: the
access stays pending. -/
theorem step_of_stalls {s : State} {a : HostAct} {r : List HostAct} (hb : s.opbusy = true)
    (hs : s.host = a :: r) (ha : a.stalls = true) : step s = runCommand s := by
  unfold step
  rw [turn_of_stalls hb hs ha]
  dsimp only
  rw [← hs]
  rfl

/-! ### One operation -/

theorem Effect.host {i : Instr} {s t : State} (h : Effect i s t) : t.host = s.host := by
  cases h <;> rfl

theorem Effect.opbusy {i : Instr} {s t : State} (h : Effect i s t) : t.opbusy = false := by
  cases h <;> rfl

/-! ### The register map -/

/-- The numbers of the register map (R46). -/
def regNumbers : List Nat :=
  List.range' 0x00 7 ++ List.range' 0x08 5 ++ List.range' 0x10 6 ++ List.range' 0x20 15

theorem regFile_numbers (s : State) : (regFile s).map (fun p => p.1.toNat) = regNumbers := rfl

theorem lookup_regFile_eq_none_iff {n : Byte} {s : State} :
    (regFile s).lookup n = none ↔ n.toNat ∉ regNumbers := by
  simp only [List.lookup_eq_none_iff, ← regFile_numbers s, List.mem_map, bne_iff_ne, not_exists, not_and]
  exact forall₂_congr fun p _ => not_congr ⟨fun h => h ▸ rfl, fun h => BitVec.eq_of_toNat_eq h.symm⟩

theorem readReg_of_unlisted {n : Byte} (h : n.toNat ∉ regNumbers) (s : State) : readReg n s = 0 := by
  unfold readReg
  rw [lookup_regFile_eq_none_iff.mpr h]
  rfl

/-- A function that gives every listed number its entry, and every other number 0, is what the host
reads. -/
theorem readReg_eq_of_entries {s : State} {f : Byte → Word} (hf : ∀ p ∈ regFile s, p.2 = f p.1)
    (h0 : ∀ n : Byte, n.toNat ∉ regNumbers → f n = 0) (n : Byte) : readReg n s = f n := by
  cases hl : (regFile s).lookup n with
  | none =>
    have hn := lookup_regFile_eq_none_iff.mp hl
    rw [readReg_of_unlisted hn, h0 n hn]
  | some v =>
    obtain ⟨before, after, he, -⟩ := List.lookup_eq_some_iff.mp hl
    rw [readReg, hl]
    exact hf (n, v) (by simp [he])

theorem readReg_lut (s : State) {k : Nat} (h : k < 15) :
    readReg (BitVec.ofNat 8 (0x20 + k)) s = lutWord s.lut k := by
  interval_cases k <;> rfl

theorem lut_getD (l : Lut) {i : Nat} (h : i < 30) : l.toList.getD i 0 = l[i] := by
  rw [List.getD_eq_getElem _ _ (by simpa using h), Vector.getElem_toList]

theorem lutWord_toNat (l : Lut) {k : Nat} (h : k < 15) : (lutWord l k).toNat =
    (l[2 * k]'(by omega)).toNat + 256 * (l[2 * k + 1]'(by omega)).toNat := by
  rw [lutWord, lut_getD l (by omega), lut_getD l (by omega), BitVec.toNat_append,
    ← Nat.shiftLeft_add_eq_or_of_lt (BitVec.isLt _), Nat.shiftLeft_eq]
  omega

theorem lutWord_reset {k : Nat} (h : k < 15) : lutWord Lut.reset k = 0 := by
  interval_cases k <;> rfl

/-- What register number `n` reads right after reset (R69). -/
def resetWord (cfg : Config) (n : Byte) : Word :=
  if n = 0x0A then idWord cfg.variant
  else if n = 0x0B then cfg.panelW
  else if n = 0x0C then cfg.panelH
  else if n = 0x15 then 0x0005
  else 0x0000

theorem resetWord_of_unlisted (cfg : Config) {n : Byte} (h : n.toNat ∉ regNumbers) :
    resetWord cfg n = 0 := by
  have hne : ∀ k : Byte, k.toNat ∈ regNumbers → n ≠ k := fun k hk he => h (he ▸ hk)
  rw [resetWord, if_neg (hne _ (by decide)), if_neg (hne _ (by decide)), if_neg (hne _ (by decide)),
    if_neg (hne _ (by decide))]

theorem regFile_resetWith (cfg : Config) (m : Memory) :
    ∀ p ∈ regFile (State.resetWith cfg m), p.2 = resetWord cfg p.1 := by
  refine List.forall_mem_append.mpr ⟨?fields, ?lut⟩
  case fields =>
    have hstate : stateWord .uninitialized = 0 := by decide
    have hstatus : statusWord .ok false = 0 := by decide
    have hfbCfg : fbCfgWord FbRegs.reset = 0 := by decide
    have hpins : pinsWord Pins.reset = 0x0005 := by decide
    simp only [List.forall_mem_cons]
    exact ⟨rfl, rfl, rfl, rfl, rfl, rfl, rfl, hstate, hstatus, rfl, rfl, rfl, rfl, rfl, rfl, rfl, hfbCfg,
      hpins, List.forall_mem_nil _⟩
  case lut =>
    refine List.forall_mem_map.mpr fun k hk => ?_
    rw [List.mem_range] at hk
    refine (lutWord_reset hk).trans ?_
    interval_cases k <;> rfl

theorem readReg_resetWith (cfg : Config) (m : Memory) (n : Byte) :
    readReg n (State.resetWith cfg m) = resetWord cfg n :=
  readReg_eq_of_entries (regFile_resetWith cfg m) (fun _ => resetWord_of_unlisted cfg) n

theorem statusWord_toNat (c : Code) (b : Bool) :
    (statusWord c b).toNat = c.bits.toNat + 32768 * b.toNat := by
  cases c <;> cases b <;> rfl

theorem idWord_toNat (v : Variant) : (idWord v).toNat = (decide (v = .b)).toNat := by
  cases v <;> rfl

theorem fbCfgWord_toNat (fb : FbRegs) :
    (fbCfgWord fb).toNat = (rotBits fb.rot).toNat + 4 * fb.inv.toNat := by
  unfold fbCfgWord
  cases fb.rot <;> cases fb.inv <;> rfl

theorem pinsWord_toNat (p : Pins) :
    (pinsWord p).toNat = p.rst.toNat + 2 * p.dc.toNat + 4 * p.cs.toNat + 8 * p.busy.toNat := by
  unfold pinsWord
  cases p.rst <;> cases p.dc <;> cases p.cs <;> cases p.busy <;> rfl

end Sys2Proof.Machine

namespace Sys2Proof.Proofs

open Sys2Proof.Machine

/-- Settles O8, by whose turn the step is: the sequencer's while a stalling access waits, the access's
once the operation has finished. -/
theorem accessesHeldWhileBusy : Obligations.AccessesHeldWhileBusy := by
  refine fun s r => ⟨fun hb a hs ha => ?held, fun n hs => ?read, fun hb hs => ?pass⟩
  case held =>
    have hstalls : a.stalls = true := by
      rcases ha with ⟨n, v, rfl, hn⟩ | ⟨p, v, rfl⟩ | ⟨p, rfl⟩
      · exact decide_eq_true hn
      · rfl
      · rfl
    obtain ⟨i, t, ht, heff⟩ := runCommand_effect s
    have hhost : t.host = a :: r := heff.host.trans hs
    exact ⟨t, (step_of_stalls hb hs hstalls).trans ht, hhost, heff.opbusy,
      step_of_turn_access (turn_of_not_busy heff.opbusy hhost)⟩
  case read => exact step_of_turn_access (turn_of_regRead hs)
  case pass => exact step_of_turn_access (turn_of_not_busy hb hs)

/-- Settles O9, by the word each field reads as. -/
theorem registerMapReads : Obligations.RegisterMapReads := by
  intro s
  refine ⟨rfl, rfl, rfl, rfl, rfl, rfl, rfl, ?state, ?status, idWord_toNat _, rfl, rfl, rfl, rfl, rfl,
    rfl, ?fbCfg, pinsWord_toNat _, ?lut, fun n hn => readReg_of_unlisted hn s⟩
  case state =>
    change stateWord s.fsm = _
    cases s.fsm <;> rfl
  case status =>
    refine (statusWord_toNat s.code s.opbusy).trans ?_
    cases s.code <;> rfl
  case fbCfg =>
    refine (fbCfgWord_toNat s.fb).trans ?_
    cases s.fb.rot <;> rfl
  case lut => exact fun k hk => (congrArg BitVec.toNat (readReg_lut s hk)).trans (lutWord_toNat s.lut hk)

/-- Settles O14, entry by entry of the register map. -/
theorem resetRegisterValues : Obligations.ResetRegisterValues := fun cfg m n =>
  ⟨readReg_resetWith cfg m n, rfl⟩

end Sys2Proof.Proofs
end

section
/-! PROOFS. Writing the same pixel twice (20_memory.md R90; 40_framebuffer.md R147, R149), and the
settlement of O28: `MemWrite`, `PutAbs`, `Put` and the operations that make one call of them are each
idempotent. -/

namespace Sys2Proof.Machine

/-- A second `MemWrite` to an address takes the place of the first. -/
theorem memWrite_memWrite {m : Memory} (hm : Memory.wf m = true) (a : Int) (v w : Byte) :
    memWrite (memWrite m a v) a w = memWrite m a w := by
  have hv := memWrite_wf hm a v
  refine eq_of_read (memWrite_wf hv a w) (memWrite_wf hm a w) fun b => ?_
  unfold memWrite at hv ⊢
  rw [read_write hv, read_write hm, read_write hm]
  split <;> rfl

/-- `PutAbs` twice is `PutAbs` once: the second call reads the byte the first wrote, and setting or
clearing its bit again changes nothing (R71, R147). -/
theorem putAbs_putAbs {m : Memory} (hm : Memory.wf m = true) (fb : FbRegs) (x y : Int) (c : Colour) :
    putAbs fb x y c (putAbs fb x y c m) = putAbs fb x y c m := by
  by_cases h : inFrame fb x y
  · rw [putAbs_inside h, putAbs_inside h, memWrite_memWrite hm, memRead_memWrite hm, if_pos rfl]
    congr 1
    cases setBitFor fb.inv c with
    | true => simp only [if_true, BitVec.or_assoc, BitVec.or_self]
    | false => simp only [Bool.false_eq_true, if_false, BitVec.and_assoc, BitVec.and_self]
  · rw [putAbs_outside h, putAbs_outside h]

/-- `Put` twice is `Put` once: the geometry it rotates by is not in DMEM (R149). -/
theorem put_put {m : Memory} (hm : Memory.wf m = true) (fb : FbRegs) (x y : Int) (c : Colour) :
    (Surface.dmem fb c).put x y ((Surface.dmem fb c).put x y m) = (Surface.dmem fb c).put x y m := by
  by_cases h : rotatedInBounds fb x y = true
  · rw [Surface.put_inside _ h, Surface.put_inside _ h]
    exact putAbs_putAbs hm _ _ _ _
  · rw [Surface.put_outside _ h, Surface.put_outside _ h]

/-- A drawing that DMEM shows no second time leaves the state as once. -/
theorem draw_idem {c : Colour} {paint : Surface Memory → Memory → Memory} {s : State}
    (h : paint (Surface.dmem s.fb c) (paint (Surface.dmem s.fb c) s.mem) =
      paint (Surface.dmem s.fb c) s.mem) :
    draw c paint (draw c paint s) = draw c paint s :=
  congrArg (fun m => finish .ok { s with mem := m }) h

end Sys2Proof.Machine

namespace Sys2Proof.Proofs

open Sys2Proof.Machine

/-- Settles O28: the first drawing leaves the arguments and the geometry, so the second writes the same
pixel. -/
theorem pixelWriteIsIdempotent : Obligations.PixelWriteIsIdempotent := by
  refine fun s t c hm _ => ⟨fun h => ?abs, fun h => ?rotated⟩
  case abs =>
    cases h
    exact congrArg Host.Outcome.next (draw_idem (paint := paintAbsPixel s) (putAbs_putAbs hm _ _ _ _))
  case rotated =>
    cases h
    exact congrArg Host.Outcome.next (draw_idem (paint := paintPixel s) (put_put hm _ _ _ _))

end Sys2Proof.Proofs
end

section
/-! PROOFS. The decoder and the encoder are inverse to each other, row by row of the opcode map
(30_encoding.md R100 to R107), and the settlement of O1, O2 and O3. -/

namespace Sys2Proof

/-! ### What each MOD use reads (R102) -/

theorem modNone_eq_some_iff {i j : Instr} {m : BitVec 4} :
    modNone j m = some i ↔ j = i ∧ 0#4 = m := by
  unfold modNone
  split
  · simp [*]
  · simp [Ne.symm ‹m ≠ 0#4›]

theorem modBit_eq_some_iff {f : Bool → Instr} {i : Instr} {m : BitVec 4} :
    modBit f m = some i ↔ ∃ b, f b = i ∧ modBits false b = m := by
  have low : ∀ m : BitVec 4, m.extractLsb' 1 3 = 0#3 → modBits false (m.getLsbD 0) = m := by decide
  constructor
  · intro h
    obtain ⟨h0, hf⟩ := Option.ite_none_right_eq_some.mp h
    exact ⟨_, Option.some.inj hf, low m h0⟩
  · rintro ⟨b, rfl, rfl⟩
    cases b <;> rfl

theorem modColour_eq_some_iff {f : Colour → Instr} {i : Instr} {m : BitVec 4} :
    modColour f m = some i ↔ ∃ c, f c = i ∧ modBits false c.bit = m := by
  have bit_ofBit : ∀ b, (Colour.ofBit b).bit = b := by decide
  refine modBit_eq_some_iff.trans ⟨?_, ?_⟩
  · rintro ⟨b, hf, hm⟩
    exact ⟨Colour.ofBit b, hf, (bit_ofBit b).symm ▸ hm⟩
  · rintro ⟨c, rfl, hm⟩
    exact ⟨c.bit, by cases c <;> rfl, hm⟩

theorem modRotation_eq_some_iff {f : Rotation → Instr} {i : Instr} {m : BitVec 4} :
    modRotation f m = some i ↔ ∃ r, f r = i ∧ 0#2 ++ r.code = m := by
  have low : ∀ m : BitVec 4, m.extractLsb' 2 2 = 0#2 →
      0#2 ++ (Rotation.ofCode (m.extractLsb' 0 2)).code = m := by decide
  constructor
  · intro h
    obtain ⟨h0, hf⟩ := Option.ite_none_right_eq_some.mp h
    exact ⟨_, Option.some.inj hf, low m h0⟩
  · rintro ⟨r, rfl, rfl⟩
    cases r <;> rfl

theorem modPlanes_eq_some_iff {f : Bool → Bool → Instr} {i : Instr} {m : BitVec 4} :
    modPlanes f m = some i ↔ ∃ p : Bool × Bool, f p.1 p.2 = i ∧ modBits p.2 p.1 = m := by
  have low : ∀ m : BitVec 4, m.extractLsb' 2 2 = 0#2 →
      modBits (m.getLsbD 1) (m.getLsbD 0) = m := by decide
  constructor
  · intro h
    obtain ⟨h0, hf⟩ := Option.ite_none_right_eq_some.mp h
    exact ⟨(_, _), Option.some.inj hf, low m h0⟩
  · rintro ⟨⟨b, r⟩, rfl, rfl⟩
    cases b <;> cases r <;> rfl

theorem LutSel.code_of_ofCode {c : BitVec 2} {sel : LutSel} (h : LutSel.ofCode c = some sel) :
    sel.code = c := by
  unfold LutSel.ofCode at h
  split_ifs at h <;> cases h <;> exact Eq.symm ‹_›

theorem modLut_eq_some_iff {f : LutSel → Instr} {i : Instr} {m : BitVec 4} :
    modLut f m = some i ↔ ∃ sel, f sel = i ∧ 0#2 ++ sel.code = m := by
  have low : ∀ m : BitVec 4, m.extractLsb' 2 2 = 0#2 → 0#2 ++ m.extractLsb' 0 2 = m := by decide
  constructor
  · intro h
    obtain ⟨h0, hf⟩ := Option.ite_none_right_eq_some.mp h
    obtain ⟨sel, hsel, hf⟩ := Option.map_eq_some_iff.mp hf
    exact ⟨sel, hf, (LutSel.code_of_ofCode hsel).symm ▸ low m h0⟩
  · rintro ⟨sel, rfl, rfl⟩
    cases sel <;> rfl

/-! ### The rows of the opcode map (R104, R105) -/

/-- Whatever a row reads out of a MOD, on a variant that has the row, is an operation with the row's
opcode and that MOD, which the variant has. -/
def OpRow.ReadsItsOwn (row : OpRow) : Prop :=
  ∀ (v : Variant) (m : BitVec 4) (i : Instr), (row.only = some v ∨ row.only = none) →
    row.read v m = some i → i.opcode = row.opc ∧ i.modifier = m ∧ i.WellFormed v = true

theorem Instr.wellFormed_iff {v : Variant} {i : Instr} :
    i.WellFormed v = true ↔ i.onlyOn = some v ∨ i.onlyOn = none := by
  unfold Instr.WellFormed
  cases i.onlyOn <;> simp

/-- A row whose MOD carries one operand of type `α`, with code `bits`. -/
theorem OpRow.ReadsItsOwn.of_operand {α : Type} {f : α → Instr} {bits : α → BitVec 4} {opc : Byte}
    {only : Option Variant} {read : BitVec 4 → Option Instr}
    (hread : ∀ {i m}, read m = some i ↔ ∃ a, f a = i ∧ bits a = m)
    (hf : ∀ a, (f a).opcode = opc ∧ (f a).modifier = bits a ∧ (f a).onlyOn = only) :
    (OpRow.mk opc only fun _ => read).ReadsItsOwn := by
  intro v m i hv h
  obtain ⟨a, rfl, rfl⟩ := hread.mp h
  obtain ⟨hopc, hmod, honly⟩ := hf a
  exact ⟨hopc, hmod, Instr.wellFormed_iff.mpr (honly ▸ hv)⟩

/-- A row whose MOD is 0. -/
theorem OpRow.ReadsItsOwn.of_none (i : Instr) (hmod : i.modifier = 0#4) :
    (OpRow.mk i.opcode i.onlyOn fun _ => modNone i).ReadsItsOwn := by
  intro v m j hv h
  obtain ⟨rfl, rfl⟩ := modNone_eq_some_iff.mp h
  exact ⟨rfl, hmod, Instr.wellFormed_iff.mpr hv⟩

theorem OpRow.ReadsItsOwn.of_colour {f : Colour → Instr} {opc : Byte}
    (hf : ∀ c, (f c).opcode = opc ∧ (f c).modifier = modBits false c.bit ∧ (f c).onlyOn = none) :
    (OpRow.mk opc none fun _ => modColour f).ReadsItsOwn :=
  .of_operand modColour_eq_some_iff hf

theorem opcodeTableFb_readsItsOwn : ∀ row ∈ opcodeTableFb, row.ReadsItsOwn := by
  simp only [opcodeTableFb, List.forall_mem_cons]
  exact ⟨.of_none .nop rfl, .of_none .fbInit rfl,
    .of_operand modRotation_eq_some_iff fun _ => ⟨rfl, rfl, rfl⟩,
    .of_none .fbSetWidth rfl, .of_none .fbSetHeight rfl,
    .of_operand modBit_eq_some_iff fun _ => ⟨rfl, rfl, rfl⟩,
    .of_colour fun _ => ⟨rfl, rfl, rfl⟩, .of_colour fun _ => ⟨rfl, rfl, rfl⟩,
    .of_colour fun _ => ⟨rfl, rfl, rfl⟩, .of_colour fun _ => ⟨rfl, rfl, rfl⟩,
    .of_colour fun _ => ⟨rfl, rfl, rfl⟩, .of_colour fun _ => ⟨rfl, rfl, rfl⟩,
    .of_colour fun _ => ⟨rfl, rfl, rfl⟩, .of_colour fun _ => ⟨rfl, rfl, rfl⟩,
    .of_colour fun _ => ⟨rfl, rfl, rfl⟩, .of_colour fun _ => ⟨rfl, rfl, rfl⟩,
    .of_colour fun _ => ⟨rfl, rfl, rfl⟩, .of_colour fun _ => ⟨rfl, rfl, rfl⟩,
    List.forall_mem_nil _⟩

/-- The row of CTL_INIT, the one that reads MOD by the variant (R105). -/
theorem OpRow.ReadsItsOwn.of_ctlInit {read : Variant → BitVec 4 → Option Instr}
    (ha : read .a = modNone .ctlInitA) (hb : read .b = modLut .ctlInitB) :
    (OpRow.mk 0x21 none read).ReadsItsOwn := by
  intro v m i _ h
  cases v with
  | a =>
    obtain ⟨rfl, rfl⟩ := modNone_eq_some_iff.mp ((congrFun ha m).symm.trans h)
    exact ⟨rfl, rfl, rfl⟩
  | b =>
    obtain ⟨sel, rfl, rfl⟩ := modLut_eq_some_iff.mp ((congrFun hb m).symm.trans h)
    exact ⟨rfl, rfl, rfl⟩

theorem opcodeTableCtl_readsItsOwn : ∀ row ∈ opcodeTableCtl, row.ReadsItsOwn := by
  simp only [opcodeTableCtl, List.forall_mem_cons]
  exact ⟨.of_none .ctlReset rfl, .of_ctlInit rfl rfl, .of_none .ctlDisplayFrame rfl,
    .of_none .ctlSleep rfl, .of_none .ctlClearFrameMemory rfl,
    .of_operand modPlanes_eq_some_iff fun _ => ⟨rfl, rfl, rfl⟩,
    .of_operand modBit_eq_some_iff fun _ => ⟨rfl, rfl, rfl⟩,
    .of_operand modLut_eq_some_iff fun _ => ⟨rfl, rfl, rfl⟩,
    .of_none .bSetMemoryArea rfl, .of_none .bSetMemoryPointer rfl, .of_none .bSetFrameMemoryAt rfl,
    .of_none .bSetFrameMemory rfl, List.forall_mem_nil _⟩

theorem opcodeTable_readsItsOwn : ∀ row ∈ opcodeTable, row.ReadsItsOwn :=
  List.forall_mem_append.mpr ⟨opcodeTableFb_readsItsOwn, opcodeTableCtl_readsItsOwn⟩

/-- The opcode of an operation finds a row that a variant with the operation has, and that reads the
operation out of its MOD. -/
theorem exists_row_of_wellFormed {v : Variant} {i : Instr} (h : i.WellFormed v = true) :
    ∃ row, opcodeTable.find? (fun r => r.opc == i.opcode) = some row ∧
      (row.only = some v ∨ row.only = none) ∧ row.read v i.modifier = some i := by
  have hv := Instr.wellFormed_iff.mp h
  cases i with
  | nop | fbInit | fbSetWidth | fbSetHeight | ctlReset | ctlDisplayFrame | ctlSleep
  | ctlClearFrameMemory | bSetMemoryArea | bSetMemoryPointer | bSetFrameMemoryAt | bSetFrameMemory =>
    exact ⟨_, rfl, hv, modNone_eq_some_iff.mpr ⟨rfl, rfl⟩⟩
  | fbSetRotation r => exact ⟨_, rfl, hv, modRotation_eq_some_iff.mpr ⟨r, rfl, rfl⟩⟩
  | fbSetInvert b | aSetPartialWindowBlack b =>
    exact ⟨_, rfl, hv, modBit_eq_some_iff.mpr ⟨b, rfl, rfl⟩⟩
  | fbClear c | fbDrawAbsPixel c | fbDrawPixel c | fbDrawChar c | fbDrawString c | fbDrawLine c
  | fbDrawHline c | fbDrawVline c | fbDrawRect c | fbDrawFilledRect c | fbDrawCircle c
  | fbDrawFilledCircle c =>
    exact ⟨_, rfl, hv, modColour_eq_some_iff.mpr ⟨c, rfl, rfl⟩⟩
  | aSetPartialWindow b r => exact ⟨_, rfl, hv, modPlanes_eq_some_iff.mpr ⟨(b, r), rfl, rfl⟩⟩
  | bSetLut sel => exact ⟨_, rfl, hv, modLut_eq_some_iff.mpr ⟨sel, rfl, rfl⟩⟩
  | ctlInitA =>
    cases v with
    | a => exact ⟨_, rfl, .inr rfl, rfl⟩
    | b => cases h
  | ctlInitB sel =>
    cases v with
    | a => cases h
    | b => exact ⟨_, rfl, .inr rfl, modLut_eq_some_iff.mpr ⟨sel, rfl, rfl⟩⟩

/-! ### The fields of a word (R100) -/

theorem word_eq_of_fields (w : Word) : rsvOf w ++ (modOf w ++ opcOf w) = w := by
  have low : modOf w ++ opcOf w = w.extractLsb' 0 12 :=
    BitVec.extractLsb'_append_extractLsb'_eq_extractLsb' rfl
  have all : rsvOf w ++ w.extractLsb' 0 12 = w.extractLsb' 0 16 :=
    BitVec.extractLsb'_append_extractLsb'_eq_extractLsb' rfl
  rw [low, all, BitVec.extractLsb'_eq_self]

open Laws.EncodedWord in
/-- The law of one operation's word, for all operations at once. -/
theorem encodedWord (i : Instr) : Statement i :=
  match i with
  | .nop => nop
  | .fbInit => fbInit
  | .fbSetRotation r => fbSetRotation r
  | .fbSetWidth => fbSetWidth
  | .fbSetHeight => fbSetHeight
  | .fbSetInvert b => fbSetInvert b
  | .fbClear c => fbClear c
  | .fbDrawAbsPixel c => fbDrawAbsPixel c
  | .fbDrawPixel c => fbDrawPixel c
  | .fbDrawChar c => fbDrawChar c
  | .fbDrawString c => fbDrawString c
  | .fbDrawLine c => fbDrawLine c
  | .fbDrawHline c => fbDrawHline c
  | .fbDrawVline c => fbDrawVline c
  | .fbDrawRect c => fbDrawRect c
  | .fbDrawFilledRect c => fbDrawFilledRect c
  | .fbDrawCircle c => fbDrawCircle c
  | .fbDrawFilledCircle c => fbDrawFilledCircle c
  | .ctlReset => ctlReset
  | .ctlInitA => ctlInitA
  | .ctlInitB sel => ctlInitB sel
  | .ctlDisplayFrame => ctlDisplayFrame
  | .ctlSleep => ctlSleep
  | .ctlClearFrameMemory => ctlClearFrameMemory
  | .aSetPartialWindow b r => aSetPartialWindow b r
  | .aSetPartialWindowBlack b => aSetPartialWindowBlack b
  | .bSetLut sel => bSetLut sel
  | .bSetMemoryArea => bSetMemoryArea
  | .bSetMemoryPointer => bSetMemoryPointer
  | .bSetFrameMemoryAt => bSetFrameMemoryAt
  | .bSetFrameMemory => bSetFrameMemory

@[simp] theorem rsvOf_encode (i : Instr) : rsvOf (encode i) = 0#4 := by
  obtain ⟨hrsv, -⟩ := encodedWord i
  exact hrsv

@[simp] theorem modOf_encode (i : Instr) : modOf (encode i) = i.modifier := by
  obtain ⟨-, hmod, -⟩ := encodedWord i
  exact hmod

@[simp] theorem opcOf_encode (i : Instr) : opcOf (encode i) = i.opcode := by
  obtain ⟨-, -, hopc, -⟩ := encodedWord i
  exact hopc

theorem onlyOn_of_opcode_in_rangeA {i : Instr} (hlo : 0x30 ≤ i.opcode.toNat)
    (hhi : i.opcode.toNat ≤ 0x3F) : i.onlyOn = some .a := by
  obtain ⟨-, -, -, honlyA, -⟩ := encodedWord i
  exact honlyA ⟨hlo, hhi⟩

theorem onlyOn_of_le_opcode {i : Instr} (h : 0x40 ≤ i.opcode.toNat) : i.onlyOn = some .b := by
  obtain ⟨-, -, -, -, honlyB⟩ := encodedWord i
  exact honlyB h

/-! ### Decoding is the inverse of encoding -/

/-- When the decoder accepts a word, in R107's order. -/
theorem decode_eq_ok_iff {v : Variant} {w : Word} {i : Instr} : decode v w = .ok i ↔
    rsvOf w = 0#4 ∧ ∃ row, opcodeTable.find? (fun r => r.opc == opcOf w) = some row ∧
      (row.only = some v ∨ row.only = none) ∧ row.read v (modOf w) = some i := by
  unfold decode
  by_cases hrsv : rsvOf w = 0#4
  · rw [if_neg (not_not_intro hrsv)]
    cases opcodeTable.find? (fun r => r.opc == opcOf w) with
    | none => simp
    | some row =>
      by_cases hv : row.only = some v ∨ row.only = none
      · cases hread : row.read v (modOf w) <;> simp [hrsv, hv, hread]
      · simp [hv]
  · simp [hrsv]

/-- The words a block of variant `v` accepts are the words of the operations it has. -/
theorem decode_eq_ok_iff_encode_eq {v : Variant} {w : Word} {i : Instr} :
    decode v w = .ok i ↔ encode i = w ∧ i.WellFormed v = true := by
  constructor
  · intro h
    obtain ⟨hrsv, row, hfind, hv, hread⟩ := decode_eq_ok_iff.mp h
    have hopc : row.opc = opcOf w := by simpa using List.find?_some hfind
    obtain ⟨hop, hmod, hwf⟩ :=
      opcodeTable_readsItsOwn row (List.mem_of_find?_eq_some hfind) v _ i hv hread
    refine ⟨?_, hwf⟩
    rw [encode, hop, hmod, hopc, ← hrsv, word_eq_of_fields]
  · rintro ⟨rfl, hwf⟩
    rw [decode_eq_ok_iff, rsvOf_encode, opcOf_encode, modOf_encode]
    exact ⟨rfl, exists_row_of_wellFormed hwf⟩

end Sys2Proof

namespace Sys2Proof.Proofs

open Sys2Proof.Machine

/-- Settles O1: the row an operation's opcode finds reads the operation out of its MOD. -/
theorem decodeOfEncode : Obligations.DecodeOfEncode := fun _ _ hwf =>
  decode_eq_ok_iff_encode_eq.mpr ⟨rfl, hwf⟩

/-- Settles O2: a row reads only operations with its own opcode and the MOD it was given. -/
theorem decodedWordIsEncoding : Obligations.DecodedWordIsEncoding := fun _ _ _ =>
  decode_eq_ok_iff_encode_eq.mp

/-- Settles O3: each word is the encoding of its operation. -/
theorem sampleWordsDecode : Obligations.SampleWordsDecode :=
  ⟨decodeOfEncode .a .nop rfl, decodeOfEncode .b (.fbSetRotation .r270) rfl,
    decodeOfEncode .a (.fbClear .uncolored) rfl, decodeOfEncode .b (.fbDrawLine .colored) rfl,
    decodeOfEncode .a .ctlInitA rfl, decodeOfEncode .b (.ctlInitB .presetPartial) rfl,
    decodeOfEncode .a (.aSetPartialWindow true true) rfl, decodeOfEncode .b (.bSetLut .custom) rfl⟩

end Sys2Proof.Proofs
end

section
/-! PROOFS. What the sequencer's turn does with a command word (30_encoding.md R101 to R107;
42_controller_core.md R231), and the settlement of O4 and O5. -/

namespace Sys2Proof

/-! ### The fields the operations have -/

/-- RSV, MOD and OPC of the word of an operation, in the terms of the statements. -/
theorem fields_of_encode_eq {i : Instr} {w : Word} (h : encode i = w) :
    w.extractLsb' 12 4 = 0#4 ∧ w.extractLsb' 8 4 = i.modifier ∧ w.setWidth 8 = i.opcode := by
  subst h
  rw [BitVec.setWidth_eq_extractLsb' (by decide)]
  exact ⟨rsvOf_encode i, modOf_encode i, opcOf_encode i⟩

theorem exists_row_of_opcode {v : Variant} {i : Instr} (h : i.WellFormed v = true) :
    ∃ row ∈ opcodeTable, row.opc = i.opcode := by
  obtain ⟨row, hfind, -, -⟩ := exists_row_of_wellFormed h
  exact ⟨row, List.mem_of_find?_eq_some hfind, by simpa using List.find?_some hfind⟩

/-- The opcodes no row of the map has (R106). -/
def unassignedOpcodes : List Nat :=
  List.range' 0x06 10 ++ List.range' 0x1C 4 ++ List.range' 0x25 11 ++ List.range' 0x32 14
    ++ List.range' 0x45 187

theorem opcode_assigned {v : Variant} {i : Instr} (h : i.WellFormed v = true) :
    i.opcode.toNat ∉ unassignedOpcodes := by
  have table : ∀ row ∈ opcodeTable, row.opc.toNat ∉ unassignedOpcodes := by decide
  obtain ⟨row, hrow, hopc⟩ := exists_row_of_opcode h
  exact hopc ▸ table row hrow

/-- The largest MOD value an opcode has on any variant (R102). -/
def maxModifier (opc : Nat) : Nat :=
  if opc ∈ [0x02, 0x30] then 3
  else if opc ∈ [0x21, 0x40] then 2
  else if opc ∈ [0x05, 0x31] ++ List.range' 0x10 12 then 1
  else 0

theorem modifier_le_maxModifier (i : Instr) : i.modifier.toNat ≤ maxModifier i.opcode.toNat := by
  cases i with
  | nop | fbInit | fbSetWidth | fbSetHeight | ctlReset | ctlInitA | ctlDisplayFrame | ctlSleep
  | ctlClearFrameMemory | bSetMemoryArea | bSetMemoryPointer | bSetFrameMemoryAt | bSetFrameMemory =>
    decide
  | fbSetRotation r => cases r <;> decide
  | fbSetInvert b | aSetPartialWindowBlack b => cases b <;> decide
  | fbClear c | fbDrawAbsPixel c | fbDrawPixel c | fbDrawChar c | fbDrawString c | fbDrawLine c
  | fbDrawHline c | fbDrawVline c | fbDrawRect c | fbDrawFilledRect c | fbDrawCircle c
  | fbDrawFilledCircle c => cases c <;> decide
  | aSetPartialWindow b r => cases b <;> cases r <;> decide
  | ctlInitB sel | bSetLut sel => cases sel <;> decide

theorem ctlInit_of_opcode {i : Instr} (h : i.opcode = 0x21#8) :
    i = .ctlInitA ∨ ∃ sel, i = .ctlInitB sel := by
  cases i with
  | ctlInitA => exact .inl rfl
  | ctlInitB sel => exact .inr ⟨sel, rfl⟩
  | _ => exact absurd h (ne_of_beq_false rfl)

namespace Machine

/-! ### The sequencer's turn -/

/-- On a turn of the sequencer the step runs CMD, on the state without the `pass`, which neither CMD nor
the parameters see. -/
theorem step_of_sequencerTurn {s s₀ : State} (h : SequencerTurn s s₀) :
    step s = runCommand s₀ ∧ s₀.cmd = s.cmd ∧ s₀.cfg = s.cfg := by
  obtain ⟨hb, ⟨hs, rfl⟩ | ⟨r, hs, rfl⟩ | ⟨a, r, hs, ha, rfl⟩⟩ := h
  · have hturn : turn s₀ = .sequencer s₀.host := by simp [turn, hs, hb]
    exact ⟨by unfold step; rw [hturn]; rfl, rfl, rfl⟩
  · have hturn : turn s = .sequencer r := by simp [turn, hs, hb]
    exact ⟨by unfold step; rw [hturn]; rfl, rfl, rfl⟩
  · exact ⟨step_of_stalls hb hs ha, rfl, rfl⟩

section Turn

variable {s s₀ : State} (h : SequencerTurn s s₀)
include h

theorem step_eq_exec {i : Instr} (hw : encode i = s.cmd) (hv : i.WellFormed s.cfg.variant = true) :
    step s = exec i s₀ := by
  obtain ⟨hstep, hcmd, hcfg⟩ := step_of_sequencerTurn h
  have hdecode : decode s₀.cfg.variant s₀.cmd = .ok i := by
    rw [hcmd, hcfg]
    exact decode_eq_ok_iff_encode_eq.mpr ⟨hw, hv⟩
  rw [hstep, runCommand, hdecode]

/-- A word that is the word of no operation of the variant finishes `IllegalOp` (R342). -/
theorem step_eq_failed
    (hno : ∀ i : Instr, i.WellFormed s.cfg.variant = true → encode i ≠ s.cmd) :
    step s = .next (s₀.failed .illegalOp) := by
  obtain ⟨hstep, hcmd, hcfg⟩ := step_of_sequencerTurn h
  rw [hstep, runCommand]
  cases hdecode : decode s₀.cfg.variant s₀.cmd with
  | ok i =>
    rw [hcmd, hcfg] at hdecode
    obtain ⟨hw, hv⟩ := decode_eq_ok_iff_encode_eq.mp hdecode
    exact absurd hw (hno i hv)
  | error e => rfl

theorem step_of_reserved_bits (hrsv : s.cmd.extractLsb' 12 4 ≠ 0#4) :
    step s = .next (s₀.failed .illegalOp) :=
  step_eq_failed h fun _ _ hw =>
    have ⟨hzero, _⟩ := fields_of_encode_eq hw
    hrsv hzero

theorem step_of_unassigned_opcode (hopc : (s.cmd.setWidth 8).toNat ∈ unassignedOpcodes) :
    step s = .next (s₀.failed .illegalOp) := by
  refine step_eq_failed h fun i hv hw => opcode_assigned hv ?_
  obtain ⟨-, -, hop⟩ := fields_of_encode_eq hw
  exact hop ▸ hopc

/-- A MOD above the largest one that any of these opcodes has. -/
theorem step_of_excess_modifier {opcodes : List Nat} {limit : Nat}
    (hlimit : ∀ o ∈ opcodes, maxModifier o ≤ limit) (hopc : (s.cmd.setWidth 8).toNat ∈ opcodes)
    (hmod : limit < (s.cmd.extractLsb' 8 4).toNat) : step s = .next (s₀.failed .illegalOp) := by
  refine step_eq_failed h fun i _ hw => ?_
  obtain ⟨-, hm, hop⟩ := fields_of_encode_eq hw
  rw [hm] at hmod
  rw [hop] at hopc
  have := modifier_le_maxModifier i
  have := hlimit _ hopc
  omega

/-- An opcode that stands only in rows of one variant, on the other. -/
theorem step_of_opcode_of_other_variant {v : Variant}
    (honly : ∀ i : Instr, i.opcode = s.cmd.setWidth 8 → i.onlyOn = some v)
    (hv : s.cfg.variant ≠ v) : step s = .next (s₀.failed .illegalOp) := by
  refine step_eq_failed h fun i hwf hw => ?_
  obtain ⟨-, -, hop⟩ := fields_of_encode_eq hw
  have hi := honly i hop.symm
  rcases Instr.wellFormed_iff.mp hwf with hs | hn
  · exact hv (Option.some.inj (hs.symm.trans hi))
  · cases hn.symm.trans hi

theorem step_ctlInit_of_variantA (hv : s.cfg.variant = .a) (hopc : s.cmd.setWidth 8 = 0x21#8) :
    step s = if s.cmd = 0x0021 then exec .ctlInitA s₀ else .next (s₀.failed .illegalOp) := by
  split
  case isTrue hw => exact step_eq_exec h hw.symm (hv ▸ rfl)
  case isFalse hw =>
    refine step_eq_failed h fun i hwf hi => ?_
    obtain ⟨-, -, hop⟩ := fields_of_encode_eq hi
    rcases ctlInit_of_opcode (hop.symm.trans hopc) with rfl | ⟨sel, rfl⟩
    · exact hw hi.symm
    · rw [hv] at hwf
      cases hwf

theorem step_ctlInit_of_variantB (hv : s.cfg.variant = .b) (hopc : s.cmd.setWidth 8 = 0x21#8) :
    step s = if s.cmd = 0x0021 then exec (.ctlInitB .presetFull) s₀
      else if s.cmd = 0x0121 then exec (.ctlInitB .presetPartial) s₀
      else if s.cmd = 0x0221 then exec (.ctlInitB .custom) s₀
      else .next (s₀.failed .illegalOp) := by
  have run (sel : LutSel) (hw : encode (.ctlInitB sel) = s.cmd) : step s = exec (.ctlInitB sel) s₀ :=
    step_eq_exec h hw (hv ▸ rfl)
  split_ifs with hfull hpartial hcustom
  · exact run _ hfull.symm
  · exact run _ hpartial.symm
  · exact run _ hcustom.symm
  · refine step_eq_failed h fun i hwf hi => ?_
    obtain ⟨-, -, hop⟩ := fields_of_encode_eq hi
    rcases ctlInit_of_opcode (hop.symm.trans hopc) with rfl | ⟨sel, rfl⟩
    · rw [hv] at hwf
      cases hwf
    · cases sel with
      | presetFull => exact hfull hi.symm
      | presetPartial => exact hpartial hi.symm
      | custom => exact hcustom hi.symm

end Turn

end Machine

end Sys2Proof

namespace Sys2Proof.Proofs

open Sys2Proof.Machine

/-- Settles O4: a word that decodes is the word of an operation, and no operation has reserved bits, an
unassigned opcode or a MOD above its opcode's largest. -/
theorem illegalWordsChangeStatusOnly : Obligations.IllegalWordsChangeStatusOnly := fun _ _ h =>
  ⟨step_of_reserved_bits h, step_of_unassigned_opcode h,
    fun hopc hmod => step_of_excess_modifier h (limit := 0) (by decide) hopc
      (Nat.pos_of_ne_zero fun h0 => hmod (BitVec.eq_of_toNat_eq h0)),
    step_of_excess_modifier h (by decide), step_of_excess_modifier h (by decide),
    step_of_excess_modifier h (by decide)⟩

/-- Settles O5, by the one variant that has the operations of an opcode range. -/
theorem otherVariantIsIllegal : Obligations.OtherVariantIsIllegal := by
  refine fun s s₀ h => ⟨fun hv hlo hhi => ?onB, fun hv hlo _ => ?onA, step_ctlInit_of_variantA h,
    step_ctlInit_of_variantB h⟩
  case onB =>
    refine step_of_opcode_of_other_variant h (v := .a) (fun i hi => ?_) (by simp [hv])
    rw [← hi] at hlo hhi
    exact onlyOn_of_opcode_in_rangeA hlo hhi
  case onA =>
    refine step_of_opcode_of_other_variant h (v := .b) (fun i hi => ?_) (by simp [hv])
    rw [← hi] at hlo
    exact onlyOn_of_le_opcode hlo

end Sys2Proof.Proofs
end

section
/-! PROOFS. The operations that configure the framebuffer and what every framebuffer operation leaves
of the controller (40_framebuffer.md R140 to R145), and the settlement of O19 to O23: each geometry
operation is one conditional, between its registers and a failure that changes STATUS alone. -/

namespace Sys2Proof.Machine

/-! ### The geometry operations as one conditional -/

theorem ceil8_eq {w W : Int} (h8 : W % 8 = 0) (hlo : w ≤ W) (hhi : W < w + 8) : ceil8 w = W := by
  unfold ceil8
  omega

theorem toWord_s16 (w : Word) : toWord (s16 w) = w := by
  unfold toWord s16
  exact BitVec.ofInt_toInt

/-- FB_INIT succeeds where none of R141's three checks fails. -/
theorem fbInit_eq (s : State) : fbInit s =
    if 0 < s.arg1.toNat ∧ 0 < s.arg2.toInt ∧ 0 < s.arg3.toInt ∧
        s.arg0.toNat + s.arg1.toNat ≤ 65536 ∧
        ceil8 (s16 s.arg2) * s.arg3.toInt / 8 ≤ (s.arg1.toNat : Int)
      then { s with
        fb := { base := s.arg0, cap := s.arg1, width := toWord (ceil8 (s16 s.arg2)),
                height := s.arg3, rot := .r0, inv := s.fb.inv }
        code := .ok
        opbusy := false }
      else s.failed .invalidGeometry := by
  unfold fbInit
  dsimp only
  rw [← ite_or, ← ite_or, ← ite_not]
  refine if_congr ?_ ?_ rfl
  · unfold fbBytes u16 s16
    omega
  · rw [toWord_u16, toWord_u16, toWord_s16]
    rfl

/-- FB_SET_WIDTH succeeds where neither of R143's two checks fails. -/
theorem fbSetWidth_eq (s : State) : fbSetWidth s =
    if 0 < s.fb.cap.toNat ∧ 0 < s.arg0.toInt ∧
        ceil8 (s16 s.arg0) * (s.fb.height.toNat : Int) / 8 ≤ (s.fb.cap.toNat : Int)
      then { s with
        fb := { s.fb with width := toWord (ceil8 (s16 s.arg0)) }, code := .ok, opbusy := false }
      else s.failed .invalidGeometry := by
  unfold fbSetWidth
  dsimp only
  rw [← ite_or, ← ite_not]
  refine if_congr ?_ rfl rfl
  unfold fbBytes u16 s16
  omega

/-- FB_SET_HEIGHT succeeds where neither of R144's two checks fails. -/
theorem fbSetHeight_eq (s : State) : fbSetHeight s =
    if 0 < s.fb.cap.toNat ∧ 0 < s.arg0.toInt ∧
        (s.fb.width.toNat : Int) * s.arg0.toInt / 8 ≤ (s.fb.cap.toNat : Int)
      then { s with fb := { s.fb with height := s.arg0 }, code := .ok, opbusy := false }
      else s.failed .invalidGeometry := by
  unfold fbSetHeight
  dsimp only
  rw [← ite_or, ← ite_not]
  refine if_congr ?_ ?_ rfl
  · unfold u16 s16
    omega
  · rw [toWord_s16]
    rfl

/-! ### Non-interference with the controller -/

/-- `s` with other values of what R140 keeps a framebuffer operation from: STATE, PINS, LUT_CUR and the
variant. -/
def State.withController (s : State) (f : Fsm) (p : Pins) (l : Lut) (v : Variant) : State :=
  { s with fsm := f, pins := p, lut := l, cfg := { s.cfg with variant := v } }

section NonInterference

variable (s : State) (f : Fsm) (p : Pins) (l : Lut) (v : Variant)

theorem fbInit_withController :
    fbInit (s.withController f p l v) = (fbInit s).withController f p l v := by
  rw [fbInit_eq, fbInit_eq, apply_ite (State.withController · f p l v)]
  rfl

theorem fbSetWidth_withController :
    fbSetWidth (s.withController f p l v) = (fbSetWidth s).withController f p l v := by
  rw [fbSetWidth_eq, fbSetWidth_eq, apply_ite (State.withController · f p l v)]
  rfl

theorem fbSetHeight_withController :
    fbSetHeight (s.withController f p l v) = (fbSetHeight s).withController f p l v := by
  rw [fbSetHeight_eq, fbSetHeight_eq, apply_ite (State.withController · f p l v)]
  rfl

/-- The geometry operations read the geometry registers and the arguments, the drawing operations DMEM
and LINE_MODE besides, and none reads the controller (R140). -/
theorem exec_withController {i : Instr} {s t : State} (hi : i.allowed = none)
    (h : exec i s = .next t) :
    exec i (s.withController f p l v) = .next (t.withController f p l v) := by
  cases i with
  | fbInit =>
    cases h
    exact congrArg Host.Outcome.next (fbInit_withController s f p l v)
  | fbSetWidth =>
    cases h
    exact congrArg Host.Outcome.next (fbSetWidth_withController s f p l v)
  | fbSetHeight =>
    cases h
    exact congrArg Host.Outcome.next (fbSetHeight_withController s f p l v)
  | nop | fbSetRotation | fbSetInvert | fbClear | fbDrawAbsPixel | fbDrawPixel | fbDrawChar
  | fbDrawString | fbDrawLine | fbDrawHline | fbDrawVline | fbDrawRect | fbDrawFilledRect
  | fbDrawCircle | fbDrawFilledCircle =>
    cases h
    rfl
  | _ => cases hi

end NonInterference

/-- An operation without a state guard makes no run of the panel port, so it leaves the controller's
registers, the trace and the environment's answers (R140). -/
theorem Effect.controller {i : Instr} {s t : State} (h : Effect i s t) (hi : i.allowed = none) :
    t.fsm = s.fsm ∧ t.pins = s.pins ∧ t.lut = s.lut ∧ t.trace = s.trace ∧ t.busyIn = s.busyIn ∧
      t.initIn = s.initIn ∧ t.draws = s.draws := by
  cases h with
  | status | geometry | drawn => exact ⟨rfl, rfl, rfl, rfl, rfl, rfl, rfl⟩
  | port _ _ _ _ _ _ _ _ _ _ hd => simp [hi] at hd

theorem ite_ok_or_failed {P : Prop} [Decidable P] {s t : State} {c : Code} (ht : t.code = .ok) :
    (if P then t else s.failed c).code = .ok ∨ (if P then t else s.failed c) = s.failed c := by
  split
  · exact .inl ht
  · exact .inr rfl

/-- The codes of the framebuffer operations (R140): only the three that check a geometry fail. -/
theorem exec_ok_or_misfit {i : Instr} {s t : State} (hi : i.allowed = none) (h : exec i s = .next t) :
    t.code = .ok ∨ (t = s.failed .invalidGeometry ∧ i ∈ [.fbInit, .fbSetWidth, .fbSetHeight]) := by
  cases i with
  | fbInit =>
    cases h
    rw [fbInit_eq]
    exact (ite_ok_or_failed rfl).imp_right (⟨·, by decide⟩)
  | fbSetWidth =>
    cases h
    rw [fbSetWidth_eq]
    exact (ite_ok_or_failed rfl).imp_right (⟨·, by decide⟩)
  | fbSetHeight =>
    cases h
    rw [fbSetHeight_eq]
    exact (ite_ok_or_failed rfl).imp_right (⟨·, by decide⟩)
  | nop | fbSetRotation | fbSetInvert | fbClear | fbDrawAbsPixel | fbDrawPixel | fbDrawChar
  | fbDrawString | fbDrawLine | fbDrawHline | fbDrawVline | fbDrawRect | fbDrawFilledRect
  | fbDrawCircle | fbDrawFilledCircle =>
    cases h
    exact .inl rfl
  | _ => cases hi

end Sys2Proof.Machine

namespace Sys2Proof.Proofs

open Sys2Proof.Machine

/-- Settles O20: the width FB_INIT computes is the multiple of 8 named. -/
theorem fbInitBindsBuffer : Obligations.FbInitBindsBuffer := by
  intro s W h8 hlo hhi
  rw [← ceil8_eq h8 hlo hhi]
  exact congrArg Host.Outcome.next (fbInit_eq s)

/-- Settles O21: the width FB_SET_WIDTH computes is the multiple of 8 named. -/
theorem fbSetWidthRounds : Obligations.FbSetWidthRounds := by
  intro s W h8 hlo hhi
  rw [← ceil8_eq h8 hlo hhi]
  exact congrArg Host.Outcome.next (fbSetWidth_eq s)

/-- Settles O22. -/
theorem fbSetHeightChecksCapacity : Obligations.FbSetHeightChecksCapacity := fun s =>
  congrArg Host.Outcome.next (fbSetHeight_eq s)

/-- Settles O23: neither operation has a check. -/
theorem fbSetRotationAndInvert : Obligations.FbSetRotationAndInvert :=
  ⟨fun _ _ => rfl, fun _ _ => rfl⟩

/-- Settles O19: no framebuffer operation runs the panel port or reads the controller. -/
theorem framebufferIgnoresController : Obligations.FramebufferIgnoresController := by
  intro i s t hi h
  obtain ⟨u, hu, heff⟩ := exec_effect i s
  cases h.symm.trans hu
  obtain ⟨hfsm, hpins, hlut, htrace, hbusy, hinit, hdraws⟩ := heff.controller hi
  refine ⟨hfsm, hpins, hlut, htrace, hbusy, hinit, hdraws, fun f p l v => ?_, exec_ok_or_misfit hi h⟩
  have hw := exec_withController f p l v hi h
  unfold State.withController at hw
  rwa [heff.cfg] at hw

end Sys2Proof.Proofs
end

section
/-! PROOFS. What the drawing operations of the framebuffer unit write (40_framebuffer.md R146 to R151),
and the settlement of O24 to O27: every drawing is calls of `PutAbs`, which touch frame bytes alone; a
frame byte is eight pixels of the frame, so clearing every pixel fills it. -/

namespace Sys2Proof.Machine

/-- A drawing operation is some calls of `PutAbs` on DMEM, and finishes `OK` (R140, R147, R195). -/
theorem exec_of_draws {i : Instr} (hd : i.draws = true) (s : State) :
    ∃ (c : Colour) (g : Memory → Memory), OnlyPlots (Surface.dmem s.fb c) g ∧
      exec i s = .next (s.drawn (g s.mem)) := by
  cases i with
  | fbClear c => exact ⟨c, _, paintClear_onlyPlots _, rfl⟩
  | fbDrawAbsPixel c => exact ⟨c, paintAbsPixel s (Surface.dmem s.fb c), fun _ hp _ => hp _ _ _, rfl⟩
  | fbDrawPixel c => exact ⟨c, _, Surface.put_onlyPlots _ _ _, rfl⟩
  | fbDrawChar c => exact ⟨c, _, glyph_onlyPlots _ _ _ _ _, rfl⟩
  | fbDrawString c => exact ⟨c, _, stringLoop_onlyPlots _ _ _ _ _ _, rfl⟩
  | fbDrawLine c | fbDrawHline c | fbDrawVline c | fbDrawRect c | fbDrawFilledRect c | fbDrawCircle c
  | fbDrawFilledCircle c => exact ⟨c, _, drawPoints_onlyPlots _ _, rfl⟩
  | _ => cases hd

theorem Effect.mem {i : Instr} {s t : State} (h : Effect i s t) (hi : i.draws = false) :
    t.mem = s.mem := by
  cases h with
  | status | geometry | port => rfl
  | drawn _ hd => simp [hi] at hd

/-! ### One pixel -/

theorem setBitFor_eq (inv : Bool) (c : Colour) : setBitFor inv c = (decide (c = .colored) == inv) := by
  cases c <;> rfl

/-- What every pixel of the frame shows after `Put` (R149). -/
theorem put_pixel {fb : FbRegs} (hfb : fb.Wf) {m : Memory} (hm : Memory.wf m = true) (x y : Int)
    (c : Colour) {u v : Int} (huv : inFrame fb u v) :
    pixelBit fb ((Surface.dmem fb c).put x y m) u v =
      if rotatedInBounds fb x y = true ∧ (u, v) = rotate fb x y then setBitFor fb.inv c
        else pixelBit fb m u v := by
  by_cases h : rotatedInBounds fb x y = true
  · rw [Surface.put_inside _ h, dmem_plot, putAbs_pixel hfb hm _ _ _ huv]
    refine if_congr ?_ rfl rfl
    simp [h, Prod.ext_iff, eq_comm]
  · rw [Surface.put_outside _ h, if_neg fun hin => h hin.1]

/-! ### Every pixel -/

/-- What every pixel of the frame shows after calls of `PutAbs` on a list of points. -/
theorem foldl_plot_pixel {fb : FbRegs} (hfb : fb.Wf) (c : Colour) {u v : Int} (huv : inFrame fb u v) :
    ∀ (pts : List (Int × Int)) {m : Memory}, Memory.wf m = true →
      pixelBit fb (pts.foldl (fun m p => (Surface.dmem fb c).plot p.1 p.2 m) m) u v =
        if (u, v) ∈ pts then setBitFor fb.inv c else pixelBit fb m u v
  | [], _, _ => by simp
  | p :: r, m, hm => by
    rw [List.foldl_cons, dmem_plot, foldl_plot_pixel hfb c huv r (putAbs_wf hm fb p.1 p.2 c),
      putAbs_pixel hfb hm _ _ _ huv]
    by_cases hr : (u, v) ∈ r
    · simp [hr]
    · simp [hr, Prod.ext_iff, eq_comm]

/-- FB_CLEAR visits the pixels of the frame (R151). -/
theorem mem_clearPoints {fb : FbRegs} {u v : Int} : (u, v) ∈ clearPoints fb ↔ inFrame fb u v := by
  unfold clearPoints inFrame
  simp only [List.mem_flatMap, List.mem_map, mem_intRange, Prod.mk.injEq]
  constructor
  · rintro ⟨y, hy, x, hx, rfl, rfl⟩
    omega
  · rintro ⟨hu0, hu1, hv0, hv1⟩
    exact ⟨v, by omega, u, by omega, rfl, rfl⟩

theorem paintClear_pixel {fb : FbRegs} (hfb : fb.Wf) {m : Memory} (hm : Memory.wf m = true)
    (c : Colour) {u v : Int} (huv : inFrame fb u v) :
    pixelBit fb (paintClear (Surface.dmem fb c) m) u v = setBitFor fb.inv c := by
  unfold paintClear
  rw [foldl_plot_pixel hfb c huv _ hm, dmem_fb, if_pos (mem_clearPoints.2 huv)]

/-! ### The pixels of a byte -/

/-- A frame that has a byte has a pixel. -/
theorem inFrame_origin_of_frameByte {fb : FbRegs} {a : Nat} (ha : frameByte fb a) :
    inFrame fb 0 0 := by
  obtain ⟨hlo, hhi⟩ := ha
  have harea : u16 fb.width * u16 fb.height ≠ 0 := fun h => by
    rw [h] at hhi
    omega
  have hw := (u16_nonneg fb.width).lt_of_ne' (left_ne_zero_of_mul harea)
  have hh := (u16_nonneg fb.height).lt_of_ne' (right_ne_zero_of_mul harea)
  exact ⟨le_rfl, hw, le_rfl, hh⟩

/-- Bit `j` of a frame byte is a pixel of the frame: the byte's offset in `FB_WIDTH / 8` columns gives the
row and the byte's column, and bit 7 is the leftmost pixel (R73, R74). -/
theorem exists_pixel_of_frameByte {fb : FbRegs} (hfb : fb.Wf) {a : Nat} (ha : frameByte fb a) {j : Nat}
    (hj : j < 8) : ∃ u v, inFrame fb u v ∧
      ∀ m : Memory, pixelBit fb m u v = (Memory.read m a).getLsbD j := by
  obtain ⟨k, hw, hk, hkh, hb0, hb1⟩ := hfb.geometry (inFrame_origin_of_frameByte ha)
  obtain ⟨hlo, hhi⟩ := ha
  rw [hkh] at hhi
  obtain ⟨i, hi⟩ : ∃ i, i = (a : Int) - u16 fb.base := ⟨_, rfl⟩
  have hcol0 := Int.emod_nonneg i hk.ne'
  have hcol1 := Int.emod_lt_of_pos i hk
  have hrow0 : 0 ≤ i / k := Int.ediv_nonneg (by omega) hk.le
  have hrow1 : i / k < u16 fb.height := Int.ediv_lt_of_lt_mul hk (by rw [mul_comm]; omega)
  refine ⟨8 * (i % k) + (7 - j : Int), i / k, ⟨by omega, by omega, hrow0, hrow1⟩, fun m => ?_⟩
  have hindex : (8 * (i % k) + (7 - j : Int) + i / k * u16 fb.width) / 8 = i := by
    have hmul : i / k * (8 * k) = 8 * (k * (i / k)) := by ring
    have hdiv := Int.emod_add_mul_ediv i k
    rw [hw, hmul]
    omega
  have haddr : wrapAddr (u16 fb.base + i) = a := by
    have := wrapAddr_of_range (a := u16 fb.base + i) (by omega) (by omega)
    omega
  have hbit : 7 - ((8 * (i % k) + (7 - j : Int)) % 8).toNat = j := by omega
  unfold pixelBit memRead
  rw [hindex, haddr, hbit]

/-- A byte of the frame all of whose pixels show the same bit (R73). -/
theorem read_of_pixels {fb : FbRegs} (hfb : fb.Wf) {m : Memory} {b : Bool}
    (hm : ∀ u v, inFrame fb u v → pixelBit fb m u v = b) {a : Nat} (ha : frameByte fb a) :
    Memory.read m a = if b then 0xFF else 0x00 := by
  refine BitVec.eq_of_getLsbD_eq fun j hj => ?_
  obtain ⟨u, v, huv, hbit⟩ := exists_pixel_of_frameByte hfb ha hj
  rw [← hbit, hm u v huv]
  cases b
  · simp
  · exact (BitVec.getLsbD_allOnes.trans (decide_eq_true hj)).symm

end Sys2Proof.Machine

namespace Sys2Proof.Proofs

open Sys2Proof.Machine

/-- Settles O24: a drawing operation is calls of `PutAbs`, and no other effect writes DMEM. -/
theorem drawingStaysInFrame : Obligations.DrawingStaysInFrame := by
  refine fun i s t h => ⟨fun hd hm hfb => ?draws, fun hd => ?other⟩
  case draws =>
    obtain ⟨c, g, hg, hexec⟩ := exec_of_draws hd s
    cases h.symm.trans hexec
    exact ⟨rfl, hg.wf hm, fun a ha => hg.frame hfb hm ha⟩
  case other =>
    obtain ⟨u, hu, heff⟩ := exec_effect i s
    cases h.symm.trans hu
    exact heff.mem hd

/-- Settles O25: the operation is one call of `PutAbs`, at its arguments. -/
theorem absPixelWritesOnePixel : Obligations.AbsPixelWritesOnePixel := by
  refine fun s c hm hfb => ⟨putAbs s.fb (s16 s.arg0) (s16 s.arg1) c s.mem, rfl, putAbs_wf hm _ _ _ _,
    fun u v huv => ?_, fun a => putAbs_frame hfb hm _ _ _, fun h => putAbs_outside h _ _⟩
  rw [← setBitFor_eq]
  exact putAbs_pixel hfb hm _ _ _ huv

/-- Settles O26: the operation is one call of `Put`, at its arguments; the transforms of R149 are those
of `rotate`, rotation by rotation. -/
theorem drawPixelRotates : Obligations.DrawPixelRotates := by
  rintro s c _ _ _ _ hm hfb rfl rfl rfl rfl
  refine ⟨(Surface.dmem s.fb c).put (s16 s.arg0) (s16 s.arg1) s.mem, rfl,
    fun a => (Surface.put_onlyPlots _ _ _).frame hfb hm, fun u v huv => ?_⟩
  rw [put_pixel hfb hm _ _ _ huv, setBitFor_eq]
  refine if_congr ?_ rfl rfl
  unfold rotatedInBounds rotate u16 s16
  cases s.fb.rot <;> simp [and_assoc]

/-- Settles O27: every pixel of the frame has the colour's bit, so every byte of the frame is filled with
it. -/
theorem clearFillsFrame : Obligations.ClearFillsFrame := by
  refine fun s c hm hfb => ⟨paintClear (Surface.dmem s.fb c) s.mem, rfl, fun a ha => ?_,
    fun a => (paintClear_onlyPlots _).frame hfb hm⟩
  rw [← setBitFor_eq]
  exact read_of_pixels hfb (fun u v => paintClear_pixel hfb hm c) ha

end Sys2Proof.Proofs
end

section
/-! PROOFS. The shapes that read no memory (41_rasterizer.md R183 to R193), and the settlement of O29 to
O31 and O33: each is a list of points passed to `Put`, so what it draws is what the list has. -/

namespace Sys2Proof.Machine

/-- A drawing of a list of points finishes `OK` and draws exactly its members (R140, R149). -/
theorem draw_drawPoints {s : State} (hm : Memory.wf s.mem = true) (hfb : s.fb.Wf) (c : Colour)
    {pts : List (Int × Int)} {P : Int → Int → Prop} (hP : ∀ x y, (x, y) ∈ pts ↔ P x y) :
    ∃ m, Host.Outcome.next (draw c (fun sf => drawPoints sf pts) s) = (.next (s.drawn m) : Result) ∧
      DrawsExactly s.fb c P s.mem m :=
  ⟨drawPoints (Surface.dmem s.fb c) pts s.mem, rfl, (drawPoints_draws hfb c pts hm).congr hP⟩

/-! ### Spans and rectangles -/

theorem mem_hlinePoints {x y len u v : Int} :
    (u, v) ∈ hlinePoints x y len ↔ v = y ∧ x ≤ u ∧ u < x + len := by
  simp only [hlinePoints, List.mem_map, mem_intRange, Prod.mk.injEq]
  constructor
  · rintro ⟨i, hi, rfl, rfl⟩
    exact ⟨rfl, hi.1, by omega⟩
  · rintro ⟨rfl, hlo, hhi⟩
    exact ⟨u, by omega, rfl, rfl⟩

theorem mem_vlinePoints {x y len u v : Int} :
    (u, v) ∈ vlinePoints x y len ↔ u = x ∧ y ≤ v ∧ v < y + len := by
  simp only [vlinePoints, List.mem_map, mem_intRange, Prod.mk.injEq]
  constructor
  · rintro ⟨j, hj, rfl, rfl⟩
    exact ⟨rfl, hj.1, by omega⟩
  · rintro ⟨rfl, hlo, hhi⟩
    exact ⟨v, by omega, rfl, rfl⟩

theorem mem_rectPoints {l : Segment} {u v : Int} : (u, v) ∈ rectPoints l ↔
    (min l.x0 l.x1 ≤ u ∧ u ≤ max l.x0 l.x1 ∧ (v = min l.y0 l.y1 ∨ v = max l.y0 l.y1)) ∨
      (min l.y0 l.y1 ≤ v ∧ v ≤ max l.y0 l.y1 ∧ (u = min l.x0 l.x1 ∨ u = max l.x0 l.x1)) := by
  simp only [rectPoints, List.mem_append, mem_hlinePoints, mem_vlinePoints]
  omega

theorem mem_filledRectPoints {l : Segment} {u v : Int} : (u, v) ∈ filledRectPoints l ↔
    min l.x0 l.x1 ≤ u ∧ u ≤ max l.x0 l.x1 ∧ min l.y0 l.y1 ≤ v ∧ v ≤ max l.y0 l.y1 := by
  simp only [filledRectPoints, List.mem_flatMap, mem_intRange, mem_vlinePoints]
  constructor
  · rintro ⟨i, hi, rfl, hv⟩
    omega
  · intro h
    exact ⟨u, by omega, rfl, by omega⟩

/-! ### Circles of negative radius -/

theorem mem_circleBody {x y u v : Int} {filled : Bool} {p : CirclePos} :
    (u, v) ∈ circleBody x y filled p ↔ (v = y + p.yp ∨ v = y - p.yp) ∧
      (u = x - p.xp ∨ u = x + p.xp ∨ (filled = true ∧ x + p.xp ≤ u ∧ u ≤ x - p.xp)) := by
  unfold circleBody
  cases filled
  · simp
    omega
  · simp [mem_hlinePoints]
    omega

/-- A negative radius gives one pass (R192, R193). -/
theorem circlePoints_of_neg (x y : Int) {r : Int} (hr : r < 0) (filled : Bool) :
    circlePoints x y r filled = circleBody x y filled { xp := -r, yp := 0, err := 2 - 2 * r } := by
  have hpasses : circlePasses r = 1 := by
    unfold circlePasses
    omega
  unfold circlePoints
  rw [hpasses]
  simp [circleLoop]

theorem mem_circlePoints_of_neg {x y r u v : Int} (hr : r < 0) {filled : Bool} :
    (u, v) ∈ circlePoints x y r filled ↔ v = y ∧ (u = x - r ∨ u = x + r) := by
  rw [circlePoints_of_neg x y hr, mem_circleBody]
  dsimp only
  omega

end Sys2Proof.Machine

namespace Sys2Proof.Proofs

open Sys2Proof.Machine

/-- Settles O29: a span is the points of an integer range, in one row or column. -/
theorem spansDrawTheirPoints : Obligations.SpansDrawTheirPoints := fun _ c hm hfb =>
  ⟨draw_drawPoints hm hfb c fun _ _ => mem_hlinePoints,
    draw_drawPoints hm hfb c fun _ _ => mem_vlinePoints⟩

/-- Settles O30: four spans make the outline, one span for each column the box. -/
theorem rectsDrawTheirBox : Obligations.RectsDrawTheirBox := by
  rintro s c _ _ _ _ hm hfb rfl rfl rfl rfl
  exact ⟨draw_drawPoints hm hfb c fun _ _ => mem_rectPoints,
    draw_drawPoints hm hfb c fun _ _ => mem_filledRectPoints⟩

/-- Settles O31: the operation passes the points of its walk to `Put`. -/
theorem lineDrawsItsWalk : Obligations.LineDrawsItsWalk := fun _ c hm hfb =>
  draw_drawPoints hm hfb c fun _ _ => Iff.rfl

/-- Settles O33: the operations pass the points of the walk to `Put`; a negative radius makes one pass,
whose spans are empty. -/
theorem circleDrawsItsWalk : Obligations.CircleDrawsItsWalk := by
  intro s c filled hm hfb
  have hpoints : ∀ x y, (x, y) ∈ circlePoints (s16 s.arg0) (s16 s.arg1) (s16 s.arg2) filled ↔
      if 0 ≤ s.arg2.toInt
        then (x, y) ∈ circlePoints s.arg0.toInt s.arg1.toInt s.arg2.toInt filled
        else y = s.arg1.toInt ∧
          (x = s.arg0.toInt - s.arg2.toInt ∨ x = s.arg0.toInt + s.arg2.toInt) := by
    intro x y
    split
    · exact Iff.rfl
    · next hr => exact mem_circlePoints_of_neg (not_le.1 hr)
  cases filled with
  | false => exact draw_drawPoints hm hfb c hpoints
  | true => exact draw_drawPoints hm hfb c hpoints

end Sys2Proof.Proofs
end

section
/-! PROOFS. Glyphs and strings (20_memory.md R87, R88; 41_rasterizer.md R180 to R182), and the settlement
of O35 and O36: a byte outside the frame reads alike throughout a drawing, so a glyph whose bitmap lies
outside the frame draws its bits as they were before the drawing, and so does a string. -/

namespace Sys2Proof.Machine

/-- A property indexed by the passes done holds at the end of a counted loop. -/
theorem upTo_induct {α : Type} {I : Nat → α → Prop} {f : Nat → α → α} {a : α} (h0 : I 0 a) :
    ∀ n : Nat, (∀ k, k < n → ∀ b, I k b → I (k + 1) (f k b)) → I n (upTo n f a)
  | 0, _ => h0
  | n + 1, h => h n (Nat.lt_succ_self n) _ (upTo_induct h0 n fun k hk => h k (Nat.lt_succ_of_lt hk))

/-! ### Drawing onto what is drawn -/

/-- Canonical memory `m'` is memory `m` with exactly the points of `P` drawn. -/
structure Painted (fb : FbRegs) (c : Colour) (P : Int → Int → Prop) (m m' : Memory) : Prop where
  wf : Memory.wf m' = true
  draws : DrawsExactly fb c P m m'

section Painted

variable {fb : FbRegs} {c : Colour} {P Q : Int → Int → Prop} {m m' : Memory}

theorem Painted.congr (h : Painted fb c P m m') (e : ∀ x y, P x y ↔ Q x y) : Painted fb c Q m m' :=
  ⟨h.wf, h.draws.congr e⟩

theorem Painted.refl (hm : Memory.wf m = true) : Painted fb c (fun _ _ => False) m m :=
  ⟨hm, .refl fb c m⟩

/-- A byte outside the frame reads as before the drawing. -/
theorem Painted.memRead_eq (h : Painted fb c P m m') {a : Int} (ha : ¬ frameByte fb (wrapAddr a)) :
    memRead m' a = memRead m a := h.draws.2 _ ha

theorem Painted.put (h : Painted fb c P m m') (hfb : fb.Wf) (x y : Int) :
    Painted fb c (fun x' y' => P x' y' ∨ (x' = x ∧ y' = y)) m ((Surface.dmem fb c).put x y m') :=
  ⟨(Surface.put_onlyPlots _ _ _).wf h.wf, h.draws.trans (put_draws hfb h.wf x y c)⟩

end Painted

/-! ### The bits of a bitmap -/

/-- Bit of pixel `i` of the glyph row whose first byte is at `p` (R180). -/
def rowBit (m : Memory) (p : Int) (i : Nat) : Bool :=
  (memRead m (p + (i / 8 : Nat))).getLsbD (7 - i % 8)

/-- `(x', y')` is one of the first `n` pixels of the row at `(x, y)`, and its bit is set. -/
def rowPoint (m : Memory) (x y p : Int) (n : Nat) (x' y' : Int) : Prop :=
  ∃ i < n, (x' = x + i ∧ y' = y) ∧ rowBit m p i = true

theorem not_rowPoint_zero (m : Memory) (x y p x' y' : Int) : ¬ rowPoint m x y p 0 x' y' :=
  fun ⟨_, hi, _⟩ => Nat.not_lt_zero _ hi

theorem rowPoint_succ {m : Memory} {x y p : Int} {n : Nat} {x' y' : Int} :
    rowPoint m x y p (n + 1) x' y' ↔
      rowPoint m x y p n x' y' ∨ ((x' = x + n ∧ y' = y) ∧ rowBit m p n = true) :=
  Nat.exists_lt_succ_right

/-- A glyph's points are those of its rows (R180). -/
theorem glyphPoint_iff_rowPoint {m : Memory} {f : Font} {ch : Byte} {x0 y0 x y : Int} :
    glyphPoint m f ch x0 y0 x y ↔ ∃ j < f.fh.toNat,
      rowPoint m x0 (y0 + j) (f.glyphAddr ch + j * f.bpr) f.fw.toNat x y := by
  constructor
  · rintro ⟨i, j, hi, hj, hx, hy, hbit⟩
    exact ⟨j, Int.lt_toNat.2 hj, i, Int.lt_toNat.2 hi, ⟨hx, hy⟩, hbit⟩
  · rintro ⟨j, hj, i, hi, ⟨hx, hy⟩, hbit⟩
    exact ⟨i, j, Int.lt_toNat.1 hi, Int.lt_toNat.1 hj, hx, hy, hbit⟩

/-- The test of R180, `(b & (0x80 >> p)) != 0`, is bit `7 - p`. -/
theorem and_mask_ne_zero_iff (b : Byte) {p : Nat} (hp : p < 8) :
    b &&& (0x80#8 >>> p) ≠ 0 ↔ b.getLsbD (7 - p) = true := by
  have hmask : 0x80#8 >>> p = BitVec.twoPow 8 (7 - p) := by
    interval_cases p <;> rfl
  have hpow : BitVec.twoPow 8 (7 - p) ≠ 0#8 := by
    interval_cases p <;> decide
  rw [hmask, BitVec.and_twoPow]
  cases b.getLsbD (7 - p) with
  | false => simp
  | true => simpa using hpow

/-! ### One row of a glyph -/

/-- What stands after `i` pixels of a row, drawn onto `P`, of a drawing begun on memory `m`: the byte held
is that of the pixel before, as it was in `m`. -/
structure RowPainted (fb : FbRegs) (c : Colour) (P : Int → Int → Prop) (m : Memory) (x y p : Int)
    (i : Nat) (ba : Byte × Memory) : Prop where
  held : ∀ k, i = k + 1 → ba.1 = memRead m (p + (k / 8 : Nat))
  painted : Painted fb c (fun x' y' => P x' y' ∨ rowPoint m x y p i x' y') m ba.2

section Glyph

variable {fb : FbRegs} {c : Colour} {P : Int → Int → Prop} {m : Memory} {x y p : Int}

/-- The byte used for a pixel is the bitmap's byte before the drawing: read now, outside the frame, or
held since the pixel before, which lies in the same byte (R180). -/
theorem RowPainted.glyphByte_eq {i : Nat} {ba : Byte × Memory} (h : RowPainted fb c P m x y p i ba)
    (hout : ¬ frameByte fb (wrapAddr (p + (i / 8 : Nat)))) :
    glyphByte (Surface.dmem fb c) p i ba = memRead m (p + (i / 8 : Nat)) := by
  unfold glyphByte
  split
  · exact h.painted.memRead_eq hout
  · next hi =>
    obtain ⟨k, rfl⟩ : ∃ k, i = k + 1 := Nat.exists_eq_succ_of_ne_zero (by rintro rfl; simp at hi)
    have hbyte : k / 8 = (k + 1) / 8 := by omega
    rw [h.held k rfl, hbyte]

/-- One more pixel of a row is put when its bit is set. -/
theorem RowPainted.pixel {i : Nat} {ba : Byte × Memory} (h : RowPainted fb c P m x y p i ba)
    (hfb : fb.Wf) (hout : ¬ frameByte fb (wrapAddr (p + (i / 8 : Nat)))) :
    RowPainted fb c P m x y p (i + 1) (glyphPixel (Surface.dmem fb c) x y p i ba) := by
  have hbit : memRead m (p + (i / 8 : Nat)) &&& (0x80#8 >>> (i % 8)) ≠ 0 ↔ rowBit m p i = true :=
    and_mask_ne_zero_iff _ (Nat.mod_lt i (by decide))
  unfold glyphPixel
  simp only [h.glyphByte_eq hout, hbit]
  refine ⟨fun k hk => ?held, ?painted⟩
  case held =>
    obtain rfl := Nat.succ.inj hk
    rfl
  case painted =>
    split
    · next hset =>
      exact (h.painted.put hfb _ _).congr fun _ _ => by simp [rowPoint_succ, hset, or_assoc]
    · next hclear => exact h.painted.congr fun _ _ => by simp [rowPoint_succ, hclear]

variable {m' : Memory}

/-- One row of a glyph adds its set bits, when its bytes are outside the frame. -/
theorem Painted.glyphRow (h : Painted fb c P m m') (hfb : fb.Wf) {fw : Int}
    (hout : ∀ i < fw.toNat, ¬ frameByte fb (wrapAddr (p + (i / 8 : Nat)))) :
    Painted fb c (fun x' y' => P x' y' ∨ rowPoint m x y p fw.toNat x' y') m
      (glyphRow (Surface.dmem fb c) fw x y p m') := by
  have hstart : RowPainted fb c P m x y p 0 (0, m') :=
    ⟨fun k hk => absurd hk.symm k.succ_ne_zero, h.congr fun _ _ => by simp [not_rowPoint_zero]⟩
  exact (upTo_induct hstart fw.toNat fun i hi _ hb => hb.pixel hfb (hout i hi)).painted

/-! ### Glyphs and strings -/

variable {f : Font}

/-- A glyph adds its set bits, when its bitmap is outside the frame (R180). -/
theorem Painted.glyph (h : Painted fb c P m m') (hfb : fb.Wf) {ch : Byte}
    (hout : glyphOutsideFrame fb f ch) (x y : Int) :
    Painted fb c (fun x' y' => P x' y' ∨ glyphPoint m f ch x y x' y') m
      (glyph (Surface.dmem fb c) f x y ch m') := by
  have hrows := upTo_induct
    (I := fun n => Painted fb c (fun x' y' => P x' y' ∨ ∃ j < n,
      rowPoint m x (y + j) (f.glyphAddr ch + j * f.bpr) f.fw.toNat x' y') m)
    (h.congr fun _ _ => by simp) f.fh.toNat fun j hj _ hb =>
      (hb.glyphRow hfb fun i hi => hout i j (Int.lt_toNat.1 hi) (Int.lt_toNat.1 hj)).congr fun _ _ => by
        rw [Nat.exists_lt_succ_right, or_assoc]
  exact hrows.congr fun _ _ => or_congr_right glyphPoint_iff_rowPoint.symm

/-- A string of `n` bytes at `t` and its 0x00, and its glyphs' bitmaps, are outside the frame. -/
structure StringOutsideFrame (fb : FbRegs) (f : Font) (m : Memory) (t : Int) (n : Nat) : Prop where
  nonzero : ∀ k : Nat, k < n → memRead m (t + k) ≠ 0
  ends : memRead m (t + n) = 0
  bytes : ∀ k : Nat, k ≤ n → ¬ frameByte fb (wrapAddr (t + k))
  glyphs : ∀ k : Nat, k < n → glyphOutsideFrame fb f (memRead m (t + k))

/-- `(x, y)` is a point of one of the first `n` glyphs of the string at `t`, drawn from `(x0, y0)`. -/
def stringPoint (m : Memory) (f : Font) (t x0 y0 : Int) (n : Nat) (x y : Int) : Prop :=
  ∃ k < n, glyphPoint m f (memRead m (t + k)) (x0 + k * f.fw) y0 x y

/-- The string loop, with `k` of `n` glyphs drawn, draws the others (R182). -/
theorem Painted.stringLoop (hfb : fb.Wf) {t x0 y0 : Int} {n : Nat}
    (hs : StringOutsideFrame fb f m t n) (left : Nat) : ∀ (passes k : Nat) {m' : Memory},
      k + left = n → left < passes → Painted fb c (stringPoint m f t x0 y0 k) m m' →
      Painted fb c (stringPoint m f t x0 y0 n) m
        (stringLoop (Surface.dmem fb c) f y0 passes (t + k) (x0 + k * f.fw) m') := by
  induction left with
  | zero =>
    rintro (_ | passes) k m' rfl hpasses h
    · exact absurd hpasses (Nat.lt_irrefl 0)
    · rw [stringLoop_end _ f y0 passes _ ((h.memRead_eq (hs.bytes k le_rfl)).trans hs.ends)]
      exact h
  | succ left ih =>
    rintro (_ | passes) k m' hk hpasses h
    · exact absurd hpasses (Nat.not_lt_zero _)
    · have hbyte : (Surface.dmem fb c).read m' (t + k) = memRead m (t + k) :=
        h.memRead_eq (hs.bytes k (by omega))
      have haddr : t + k + 1 = t + (k + 1 : Nat) := by push_cast; ring
      have hcol : x0 + k * f.fw + f.fw = x0 + (k + 1 : Nat) * f.fw := by push_cast; ring
      have hnext : (Surface.dmem fb c).read m' (t + k) ≠ 0 := hbyte ▸ hs.nonzero k (by omega)
      rw [stringLoop_next _ f y0 passes _ hnext, hbyte, haddr, hcol]
      refine ih passes (k + 1) (by omega) (Nat.lt_of_succ_lt_succ hpasses) ?_
      exact (h.glyph hfb (hs.glyphs k (by omega)) _ _).congr fun _ _ => Nat.exists_lt_succ_right.symm

end Glyph

end Sys2Proof.Machine

namespace Sys2Proof.Proofs

open Sys2Proof.Machine

/-- Settles O35: the operation is one glyph, drawn onto nothing. -/
theorem charDrawsGlyph : Obligations.CharDrawsGlyph := by
  rintro s c _ _ hm hfb rfl rfl hout
  have hch : u8 s.arg2 = s.arg2.setWidth 8 :=
    (BitVec.setWidth_eq_extractLsb' (by decide)).symm
  have hglyph := ((Painted.refl (c := c) hm).glyph hfb hout (s16 s.arg0) (s16 s.arg1)).congr
    fun _ _ => (false_or _).to_iff
  rw [← hch] at hglyph ⊢
  exact ⟨_, rfl, hglyph.draws⟩

/-- Settles O36: the operation is the string loop, with no glyph drawn yet. -/
theorem stringDrawsGlyphs : Obligations.StringDrawsGlyphs := by
  rintro s c _ n hm hfb rfl hn hnonzero hends hbytes hglyphs
  have hloop := Painted.stringLoop (c := c) (x0 := s16 s.arg0) (y0 := s16 s.arg1) hfb
    ⟨hnonzero, hends, hbytes, hglyphs⟩ n 65536 0 (Nat.zero_add n) hn
    ((Painted.refl hm).congr fun _ _ => by simp [stringPoint])
  simp only [Nat.cast_zero, zero_mul, add_zero] at hloop
  exact ⟨_, rfl, hloop.draws⟩

end Sys2Proof.Proofs
end

section
/-! PROOFS. The circle walk (41_rasterizer.md R191, R194), and the settlement of O34: one pass draws a
symmetric set; every pass moves `xp` or `yp`, and `yp` alone only below the radius; and the walk about a
centre is the walk about the origin, moved. -/

namespace Sys2Proof.Machine

/-! ### Symmetry -/

theorem circleBody_reflect {x y u v : Int} {filled : Bool} {p : CirclePos}
    (h : (u, v) ∈ circleBody x y filled p) :
    (2 * x - u, v) ∈ circleBody x y filled p ∧ (u, 2 * y - v) ∈ circleBody x y filled p := by
  obtain ⟨hv, hu⟩ := mem_circleBody.1 h
  refine ⟨mem_circleBody.2 ⟨hv, ?mirror⟩, mem_circleBody.2 ⟨by omega, hu⟩⟩
  obtain rfl | rfl | ⟨hfilled, hlo, hhi⟩ := hu
  · exact .inr (.inl (by ring))
  · exact .inl (by ring)
  · exact .inr (.inr ⟨hfilled, by omega, by omega⟩)

/-- A map of points under which every pass is closed closes the walk. -/
theorem circleLoop_closed {x y : Int} {filled : Bool} {g : Int × Int → Int × Int}
    (hg : ∀ p, ∀ q ∈ circleBody x y filled p, g q ∈ circleBody x y filled p) {q : Int × Int} :
    ∀ (n : Nat) (p : CirclePos), q ∈ circleLoop x y filled n p → g q ∈ circleLoop x y filled n p
  | 0, _, hq => absurd hq List.not_mem_nil
  | n + 1, p, hq => by
    rw [circleLoop, List.mem_append] at hq ⊢
    refine hq.imp (hg p q) fun hrest => ?_
    split_ifs at hrest ⊢
    · exact absurd hrest List.not_mem_nil
    · exact circleLoop_closed hg n _ hrest

/-! ### The passes -/

/-- What the walk of radius `r` keeps: the error term is that of the point reached. -/
structure CircleInv (r : Int) (p : CirclePos) : Prop where
  err : p.err = (p.xp + 1) ^ 2 + (p.yp + 1) ^ 2 - r ^ 2
  yp_nonneg : 0 ≤ p.yp

theorem circleInv_start (r : Int) : CircleInv r { xp := -r, yp := 0, err := 2 - 2 * r } :=
  ⟨by ring, le_rfl⟩

/-- One pass moves `xp`, and `yp` or not, or it moves `yp` alone, when the error is at most `xp`
(R191). -/
theorem circleStep_cases {p : CirclePos} (hx : p.xp ≤ 0) (hy : 0 ≤ p.yp) :
    circleStep p = { xp := p.xp + 1, yp := p.yp, err := p.err + 2 * (p.xp + 1) + 1 } ∨
    circleStep p = { xp := p.xp + 1, yp := p.yp + 1,
                     err := p.err + 2 * (p.yp + 1) + 1 + 2 * (p.xp + 1) + 1 } ∨
    (p.err ≤ p.xp ∧ circleStep p = { xp := p.xp, yp := p.yp + 1, err := p.err + 2 * (p.yp + 1) + 1 }) := by
  unfold circleStep
  by_cases hstep : p.err ≤ p.yp
  · by_cases hmeet : -p.xp = p.yp + 1 ∧ p.err ≤ p.xp
    · have hzero : 0 > p.xp := by omega
      simp [hstep, hmeet, hzero]
    · by_cases hxp : p.err > p.xp
      · simp [hstep, hmeet, hxp]
      · have hle : p.err ≤ p.xp := not_lt.1 hxp
        have hdiag : ¬ -p.xp = p.yp + 1 := fun h => hmeet ⟨h, hle⟩
        simp [hstep, hle, hdiag, not_lt.2 hle]
  · have hxp : p.err > p.xp := by omega
    simp [hstep, hxp]

theorem CircleInv.step {r : Int} {p : CirclePos} (h : CircleInv r p) (hx : p.xp ≤ 0) :
    CircleInv r (circleStep p) := by
  obtain ⟨herr, hy⟩ := h
  obtain hs | hs | ⟨_, hs⟩ := circleStep_cases hx hy <;> rw [hs]
  · exact ⟨by simp only [herr]; ring, hy⟩
  · exact ⟨by simp only [herr]; ring, by simp only; omega⟩
  · exact ⟨by simp only [herr]; ring, by simp only; omega⟩

/-- A bound on the passes left: `xp` has to pass 0, and `yp` moves alone only below `r` (R194). -/
def circleLeft (r : Int) (p : CirclePos) : Int := 1 - p.xp + max 0 (r - p.yp)

theorem CircleInv.left_decreases {r : Int} {p : CirclePos} (h : CircleInv r p) (hr : 0 ≤ r)
    (hx : p.xp ≤ 0) : circleLeft r (circleStep p) + 1 ≤ circleLeft r p := by
  obtain ⟨herr, hy⟩ := h
  unfold circleLeft
  obtain hs | hs | ⟨hle, hs⟩ := circleStep_cases hx hy <;> rw [hs]
  · dsimp only
    omega
  · dsimp only
    omega
  · have hsq : (p.yp + 1) ^ 2 < r ^ 2 := by nlinarith
    have hbelow : p.yp + 1 < r := lt_of_pow_lt_pow_left₀ 2 hr hsq
    dsimp only
    omega

/-- Any two bounds that cover the passes left give the same walk. -/
theorem circleLoop_of_left {x y r : Int} (hr : 0 ≤ r) {filled : Bool} : ∀ (n k : Nat) {p : CirclePos},
    CircleInv r p → p.xp ≤ 0 → circleLeft r p ≤ n → circleLeft r p ≤ k →
    circleLoop x y filled n p = circleLoop x y filled k p
  | 0, _, p, _, hx, hn, _ => by unfold circleLeft at hn; omega
  | _, 0, p, _, hx, _, hk => by unfold circleLeft at hk; omega
  | n + 1, k + 1, p, h, hx, hn, hk => by
    rw [circleLoop, circleLoop]
    congr 1
    split
    · rfl
    · next hgo =>
      have hleft := h.left_decreases hr hx
      exact circleLoop_of_left hr n k (h.step hx) (not_lt.1 hgo) (by omega) (by omega)

/-! ### The sizes -/

/-- A point moved by `(x, y)`. -/
def shift (x y : Int) (p : Int × Int) : Int × Int := (x + p.1, y + p.2)

theorem shift_injective (x y : Int) : Function.Injective (shift x y) := by
  rintro ⟨a, b⟩ ⟨a', b'⟩ h
  simpa [shift] using h

theorem intRange_add (x a b : Int) : intRange (x + a) (x + b) = (intRange a b).map (x + ·) := by
  unfold intRange
  rw [List.map_map, show x + b - (x + a) = b - a by ring]
  exact List.map_congr_left fun k _ => add_assoc x a k

theorem hlinePoints_add (x y a b len : Int) :
    hlinePoints (x + a) (y + b) len = (hlinePoints a b len).map (shift x y) := by
  unfold hlinePoints
  rw [show x + a + len - 1 = x + (a + len - 1) by ring, intRange_add, List.map_map, List.map_map]
  rfl

theorem circleBody_eq_map_shift (x y : Int) (filled : Bool) (p : CirclePos) :
    circleBody x y filled p = (circleBody 0 0 filled p).map (shift x y) := by
  unfold circleBody
  cases filled <;> simp [shift, sub_eq_add_neg, hlinePoints_add]

theorem circleLoop_eq_map_shift (x y : Int) (filled : Bool) : ∀ (n : Nat) (p : CirclePos),
    circleLoop x y filled n p = (circleLoop 0 0 filled n p).map (shift x y)
  | 0, _ => rfl
  | n + 1, p => by
    rw [circleLoop, circleLoop, List.map_append, circleBody_eq_map_shift,
      circleLoop_eq_map_shift x y filled n, apply_ite (List.map (shift x y)), List.map_nil]

/-- The set about a centre has the size of the set about the origin. -/
theorem card_circlePoints (x y r : Int) (filled : Bool) :
    (circlePoints x y r filled).toFinset.card = (circlePoints 0 0 r filled).toFinset.card := by
  unfold circlePoints
  rw [circleLoop_eq_map_shift, List.card_toFinset, List.card_toFinset,
    List.dedup_map_of_injective (shift_injective x y), List.length_map]

end Sys2Proof.Machine

namespace Sys2Proof.Proofs

open Sys2Proof.Machine

/-- Settles O34: every pass is closed under both reflections; `circleLeft` is `2r + 1` at the start; and the
sizes are those about the origin. -/
theorem circleProperties : Obligations.CircleProperties := by
  refine ⟨fun x y r filled hr => ⟨fun p hp => ⟨?mirror, ?flip⟩, fun n hn => ?bound⟩, fun x y => ?sizes⟩
  case mirror =>
    exact circleLoop_closed (g := fun q => (2 * x - q.1, q.2)) (fun _ _ hq => (circleBody_reflect hq).1)
      _ _ hp
  case flip =>
    exact circleLoop_closed (g := fun q => (q.1, 2 * y - q.2)) (fun _ _ hq => (circleBody_reflect hq).2)
      _ _ hp
  case bound =>
    have hleft : circleLeft r { xp := -r, yp := 0, err := 2 - 2 * r } = 2 * r + 1 := by
      unfold circleLeft
      dsimp only
      omega
    refine circleLoop_of_left hr n _ (circleInv_start r) ?_ ?_ ?_
    · dsimp only
      omega
    · omega
    · unfold circlePasses
      omega
  case sizes =>
    simp only [card_circlePoints x y]
    decide +kernel

end Sys2Proof.Proofs
end

section
/-! PROOFS. The line walk (41_rasterizer.md R183, R185), and the settlement of O32: every step moves each
coordinate by at most 1, towards the end point; the coordinate with the greater distance moves in every
step, and the error term brings the other to its target in the last. -/

namespace Sys2Proof.Machine

/-! ### A walk as the positions it passes -/

/-- The point of a position. -/
def LinePos.point (p : LinePos) : Int × Int := (p.x, p.y)

/-- Where `Inclusive` and `Exclusive` stop (R183). -/
abbrev Segment.AtEnd (l : Segment) (p : LinePos) : Prop := p.x = l.x1 ∧ p.y = l.y1

/-- Where `SourceQuirk` stops (R183). -/
abbrev Segment.AtTarget (l : Segment) (p : LinePos) : Prop := p.x = l.x1 ∨ p.y = l.y1

/-- The first `n` points of the walk from `p`. -/
def firstPoints (step : LinePos → LinePos) (p : LinePos) (n : Nat) : List (Int × Int) :=
  (List.range n).map fun k => (step^[k] p).point

theorem firstPoints_succ (step : LinePos → LinePos) (p : LinePos) (n : Nat) :
    firstPoints step p (n + 1) = p.point :: firstPoints step (step p) n := by
  simp [firstPoints, List.range_succ_eq_map, Function.comp_def]

theorem firstPoints_concat (step : LinePos → LinePos) (p : LinePos) (n : Nat) :
    firstPoints step p (n + 1) = firstPoints step p n ++ [(step^[n] p).point] := by
  simp [firstPoints, List.range_succ]

theorem length_firstPoints (step : LinePos → LinePos) (p : LinePos) (n : Nat) :
    (firstPoints step p n).length = n := by simp [firstPoints]

/-- `stop` holds for the first time at position `n` of the walk from `p`. -/
structure StopsAt (stop : LinePos → Prop) (step : LinePos → LinePos) (p : LinePos) (n : Nat) : Prop where
  before : ∀ k < n, ¬ stop (step^[k] p)
  stops : stop (step^[n] p)

/-- The loop of `Exclusive` and of `SourceQuirk`, over its test and its step. -/
def walkUntil (stop : LinePos → Prop) [DecidablePred stop] (step : LinePos → LinePos) :
    Nat → LinePos → List (Int × Int)
  | 0, _ => []
  | n + 1, p => if stop p then [] else p.point :: walkUntil stop step n (step p)

section Walks

variable {stop : LinePos → Prop} {step : LinePos → LinePos} {l : Segment}

theorem StopsAt.tail {p : LinePos} {n : Nat} (h : StopsAt stop step p (n + 1)) :
    ¬ stop p ∧ StopsAt stop step (step p) n :=
  ⟨h.before 0 n.succ_pos, fun k hk => h.before (k + 1) (Nat.succ_lt_succ hk), h.stops⟩

theorem walkUntil_eq [DecidablePred stop] : ∀ (n : Nat) {passes : Nat} {p : LinePos},
    StopsAt stop step p n → n < passes → walkUntil stop step passes p = firstPoints step p n
  | n, 0, _, _, hn => absurd hn n.not_lt_zero
  | 0, _ + 1, _, h, _ => if_pos h.stops
  | n + 1, _ + 1, _, h, hn => by
    obtain ⟨hgo, htail⟩ := h.tail
    rw [walkUntil, if_neg hgo, walkUntil_eq n htail (Nat.lt_of_succ_lt_succ hn), firstPoints_succ]

theorem walkExclusive_eq_walkUntil : ∀ (passes : Nat) (p : LinePos),
    l.walkExclusive passes p = walkUntil l.AtEnd l.stepSnapshot passes p
  | 0, _ => rfl
  | n + 1, p => by rw [Segment.walkExclusive, walkUntil, walkExclusive_eq_walkUntil n]; rfl

theorem walkQuirk_eq_walkUntil : ∀ (passes : Nat) (p : LinePos),
    l.walkQuirk passes p = walkUntil l.AtTarget l.stepQuirk passes p
  | 0, _ => rfl
  | n + 1, p => by rw [Segment.walkQuirk, walkUntil, walkQuirk_eq_walkUntil n]; rfl

/-- `Inclusive` plots the end point too. -/
theorem walkInclusive_eq : ∀ (n : Nat) {passes : Nat} {p : LinePos},
    StopsAt l.AtEnd l.stepSnapshot p n → n < passes →
    l.walkInclusive passes p = firstPoints l.stepSnapshot p (n + 1)
  | n, 0, _, _, hn => absurd hn n.not_lt_zero
  | 0, _ + 1, p, h, _ => congrArg (p.point :: ·) (if_pos h.stops)
  | n + 1, _ + 1, p, h, hn => by
    obtain ⟨hgo, htail⟩ := h.tail
    rw [Segment.walkInclusive, if_neg hgo, walkInclusive_eq n htail (Nat.lt_of_succ_lt_succ hn),
      firstPoints_succ _ p]
    rfl

end Walks

/-! ### One step -/

/-- A move in `x`, with its change of the error term (R183). -/
def Segment.moveX (l : Segment) (p : LinePos) : LinePos := { p with err := p.err + l.dy, x := p.x + l.sx }

/-- A move in `y`, with its change of the error term (R183). -/
def Segment.moveY (l : Segment) (p : LinePos) : LinePos := { p with err := p.err + l.dx, y := p.y + l.sy }

theorem Segment.dx_nonneg (l : Segment) : 0 ≤ l.dx := by
  unfold Segment.dx
  omega

theorem Segment.dy_nonpos (l : Segment) : l.dy ≤ 0 := by
  unfold Segment.dy
  omega

/-- The greater of the two distances, `n` of R185. -/
def Segment.distance (l : Segment) : Nat := max (l.x1 - l.x0).natAbs (l.y1 - l.y0).natAbs

theorem Segment.distance_cases (l : Segment) :
    (-l.dy ≤ l.dx ∧ (l.distance : Int) = l.dx) ∨ (l.dx ≤ -l.dy ∧ (l.distance : Int) = -l.dy) := by
  unfold Segment.dx Segment.dy Segment.distance
  omega

theorem Segment.distance_lt_passes (l : Segment) : l.distance < l.passes := by
  unfold Segment.distance Segment.passes
  omega

theorem Segment.stepSnapshot_eq (l : Segment) (p : LinePos) : l.stepSnapshot p =
    if 2 * p.err ≤ l.dx then l.moveY (if l.dy ≤ 2 * p.err then l.moveX p else p)
      else if l.dy ≤ 2 * p.err then l.moveX p else p := rfl

/-- Both moves, or one of them, by the snapshot `e2` (R183). -/
theorem Segment.stepSnapshot_cases (l : Segment) (p : LinePos) :
    (l.dy ≤ 2 * p.err ∧ 2 * p.err ≤ l.dx ∧ l.stepSnapshot p = l.moveY (l.moveX p)) ∨
    (l.dy ≤ 2 * p.err ∧ l.dx < 2 * p.err ∧ l.stepSnapshot p = l.moveX p) ∨
    (2 * p.err < l.dy ∧ l.stepSnapshot p = l.moveY p) := by
  have hx := l.dx_nonneg
  have hy := l.dy_nonpos
  rw [l.stepSnapshot_eq]
  by_cases hmx : l.dy ≤ 2 * p.err
  · by_cases hmy : 2 * p.err ≤ l.dx
    · simp [hmx, hmy]
    · simp [hmx, hmy, not_le.1 hmy]
  · have hmy : 2 * p.err ≤ l.dx := by omega
    simp [hmx, hmy, not_le.1 hmx]

/-- Both moves, or one of them; the second test reads the error term after the first move (R183). -/
theorem Segment.stepQuirk_cases (l : Segment) (p : LinePos) :
    (l.dy ≤ 2 * p.err ∧ 2 * (p.err + l.dy) ≤ l.dx ∧ l.stepQuirk p = l.moveY (l.moveX p)) ∨
    (l.dy ≤ 2 * p.err ∧ l.dx < 2 * (p.err + l.dy) ∧ l.stepQuirk p = l.moveX p) ∨
    (2 * p.err < l.dy ∧ l.stepQuirk p = l.moveY p) := by
  have hx := l.dx_nonneg
  have hy := l.dy_nonpos
  unfold Segment.stepQuirk Segment.moveX Segment.moveY
  by_cases hmx : l.dy ≤ 2 * p.err
  · by_cases hmy : 2 * (p.err + l.dy) ≤ l.dx
    · simp [hmx, hmy]
    · simp [hmx, hmy, not_le.1 hmy]
  · have hmy : 2 * p.err ≤ l.dx := by omega
    simp [hmx, hmy, not_le.1 hmx]

/-- A step makes both moves or one of them. -/
def Segment.Moves (l : Segment) (p q : LinePos) : Prop :=
  q = l.moveY (l.moveX p) ∨ q = l.moveX p ∨ q = l.moveY p

theorem Segment.stepSnapshot_moves (l : Segment) (p : LinePos) : l.Moves p (l.stepSnapshot p) :=
  (l.stepSnapshot_cases p).imp (·.2.2) (Or.imp (·.2.2) (·.2))

theorem Segment.stepQuirk_moves (l : Segment) (p : LinePos) : l.Moves p (l.stepQuirk p) :=
  (l.stepQuirk_cases p).imp (·.2.2) (Or.imp (·.2.2) (·.2))

/-- Each coordinate moves by at most 1. -/
theorem Segment.Moves.near {l : Segment} {p q : LinePos} (h : l.Moves p q) :
    (q.x - p.x).natAbs ≤ 1 ∧ (q.y - p.y).natAbs ≤ 1 := by
  have hsx : l.sx = 1 ∨ l.sx = -1 := ite_eq_or_eq ..
  have hsy : l.sy = 1 ∨ l.sy = -1 := ite_eq_or_eq ..
  obtain rfl | rfl | rfl := h <;> dsimp only [Segment.moveX, Segment.moveY] <;> omega

/-! ### Where the walk stands -/

/-- The position after `a` moves in `x` and `b` in `y`. -/
structure Segment.At (l : Segment) (a b : Int) (p : LinePos) : Prop where
  x : p.x = l.x0 + l.sx * a
  y : p.y = l.y0 + l.sy * b
  err : p.err = (b + 1) * l.dx + (a + 1) * l.dy

/-- `p` is in the bounding box of the end points. -/
def Segment.InBox (l : Segment) (p : LinePos) : Prop :=
  (min l.x0 l.x1 ≤ p.x ∧ p.x ≤ max l.x0 l.x1) ∧ (min l.y0 l.y1 ≤ p.y ∧ p.y ≤ max l.y0 l.y1)

section At

variable {l : Segment} {a b : Int} {p : LinePos}

theorem Segment.at_start (l : Segment) : l.At 0 0 l.start :=
  ⟨by simp [Segment.start], by simp [Segment.start], by simp [Segment.start]⟩

theorem Segment.At.moveX (h : l.At a b p) : l.At (a + 1) b (l.moveX p) :=
  ⟨by simp only [Segment.moveX, h.x]; ring, h.y, by simp only [Segment.moveX, h.err]; ring⟩

theorem Segment.At.moveY (h : l.At a b p) : l.At a (b + 1) (l.moveY p) :=
  ⟨h.x, by simp only [Segment.moveY, h.y]; ring, by simp only [Segment.moveY, h.err]; ring⟩

/-- The direction and the distance of `x`, for either order of the ends. -/
theorem Segment.sx_cases (l : Segment) :
    (l.sx = 1 ∧ l.x1 = l.x0 + l.dx) ∨ (l.sx = -1 ∧ l.x1 = l.x0 - l.dx) := by
  unfold Segment.sx Segment.dx
  split <;> omega

/-- The direction and the distance of `y`, for either order of the ends. -/
theorem Segment.sy_cases (l : Segment) :
    (l.sy = 1 ∧ l.y1 = l.y0 - l.dy) ∨ (l.sy = -1 ∧ l.y1 = l.y0 + l.dy) := by
  unfold Segment.sy Segment.dy
  split <;> omega

theorem Segment.At.x_eq_iff (h : l.At a b p) : p.x = l.x1 ↔ a = l.dx := by
  rw [h.x]
  obtain ⟨hs, h1⟩ | ⟨hs, h1⟩ := l.sx_cases <;> rw [hs, h1] <;> omega

theorem Segment.At.y_eq_iff (h : l.At a b p) : p.y = l.y1 ↔ b = -l.dy := by
  rw [h.y]
  obtain ⟨hs, h1⟩ | ⟨hs, h1⟩ := l.sy_cases <;> rw [hs, h1] <;> omega

theorem Segment.At.atTarget_iff (h : l.At a b p) : l.AtTarget p ↔ a = l.dx ∨ b = -l.dy :=
  or_congr h.x_eq_iff h.y_eq_iff

theorem Segment.At.inBox (h : l.At a b p) (ha : 0 ≤ a ∧ a ≤ l.dx) (hb : 0 ≤ b ∧ b ≤ -l.dy) :
    l.InBox p := by
  unfold Segment.InBox
  rw [h.x, h.y]
  constructor
  · obtain ⟨hs, h1⟩ | ⟨hs, h1⟩ := l.sx_cases <;> rw [hs, h1] <;> omega
  · obtain ⟨hs, h1⟩ | ⟨hs, h1⟩ := l.sy_cases <;> rw [hs, h1] <;> omega

end At

/-! ### `Inclusive` and `Exclusive` -/

/-- The walk by snapshots reaches the end point at position `n` and not before, inside the box. -/
structure Segment.Arrives (l : Segment) (n : Nat) : Prop where
  atEnd : StopsAt l.AtEnd l.stepSnapshot l.start n
  inBox : ∀ k ≤ n, l.InBox (l.stepSnapshot^[k] l.start)

/-- What every step keeps when `x` has the greater distance: `x` moves in each, and the error term lies in a
range `2 * dx` wide. -/
theorem Segment.at_iterate_stepSnapshot {l : Segment} (hmajor : -l.dy ≤ l.dx) (hpos : 0 < l.dx) (k : Nat) :
    ∃ b, 0 ≤ b ∧ l.At k b (l.stepSnapshot^[k] l.start) ∧
      l.dx + 2 * l.dy < 2 * (l.stepSnapshot^[k] l.start).err ∧
      2 * (l.stepSnapshot^[k] l.start).err ≤ 3 * l.dx + 2 * l.dy := by
  have hy := l.dy_nonpos
  induction k with
  | zero =>
    refine ⟨0, le_rfl, l.at_start, ?_, ?_⟩ <;> simp only [Function.iterate_zero, id, Segment.start] <;> omega
  | succ k ih =>
    obtain ⟨b, hb, hat, hlo, hhi⟩ := ih
    rw [Function.iterate_succ_apply']
    generalize l.stepSnapshot^[k] l.start = p at hat hlo hhi ⊢
    obtain ⟨_, hmy, hs⟩ | ⟨_, hmy, hs⟩ | ⟨hmx, _⟩ := l.stepSnapshot_cases p
    · rw [hs]
      refine ⟨b + 1, by omega, hat.moveX.moveY, ?_, ?_⟩ <;>
        dsimp only [Segment.moveX, Segment.moveY] <;> omega
    · rw [hs]
      refine ⟨b, hb, hat.moveX, ?_, ?_⟩ <;> dsimp only [Segment.moveX] <;> omega
    · omega

/-- The range of the error term, divided by `dx`, leaves one value for `y` at the last position, its target,
and keeps it from passing the target before. -/
theorem Segment.arrives_of_major {l : Segment} {n : Nat} (hmajor : -l.dy ≤ l.dx) (hn : (n : Int) = l.dx) :
    l.Arrives n := by
  have hy := l.dy_nonpos
  obtain hzero | hpos := l.dx_nonneg.eq_or_lt
  · obtain rfl : n = 0 := by omega
    refine ⟨⟨fun k hk => absurd hk k.not_lt_zero, l.at_start.x_eq_iff.2 hn, l.at_start.y_eq_iff.2 ?_⟩,
      fun k hk => ?_⟩
    · omega
    · obtain rfl := Nat.le_zero.1 hk
      exact l.at_start.inBox (by omega) (by omega)
  · refine ⟨⟨fun k hk hend => ?_, ?_⟩, fun k hk => ?_⟩
    · obtain ⟨b, _, hat, _⟩ := Segment.at_iterate_stepSnapshot hmajor hpos k
      have hk' := hat.x_eq_iff.1 hend.1
      omega
    · obtain ⟨b, hb, hat, hlo, hhi⟩ := Segment.at_iterate_stepSnapshot hmajor hpos n
      rw [hat.err, hn] at hlo hhi
      have hle : b ≤ -l.dy := by nlinarith
      have hge : -l.dy ≤ b := by nlinarith
      exact ⟨hat.x_eq_iff.2 hn, hat.y_eq_iff.2 (le_antisymm hle hge)⟩
    · obtain ⟨b, hb, hat, hlo, hhi⟩ := Segment.at_iterate_stepSnapshot hmajor hpos k
      have hk' : (k : Int) ≤ l.dx := by omega
      rw [hat.err] at hhi
      have hle : b ≤ -l.dy := by nlinarith
      exact hat.inBox ⟨by omega, hk'⟩ ⟨hb, hle⟩

/-- The segment with `x` and `y` exchanged. -/
def Segment.swap (l : Segment) : Segment := { x0 := l.y0, y0 := l.x0, x1 := l.y1, y1 := l.x1 }

/-- A position with `x` and `y` exchanged: the error term changes its sign. -/
def LinePos.swap (p : LinePos) : LinePos := { err := -p.err, x := p.y, y := p.x }

theorem Segment.swap_dx (l : Segment) : l.swap.dx = -l.dy := (neg_neg _).symm

theorem Segment.swap_dy (l : Segment) : l.swap.dy = -l.dx := rfl

theorem Segment.swap_start (l : Segment) : l.swap.start = l.start.swap := by
  have herr : l.swap.dx + l.swap.dy = -(l.dx + l.dy) := by
    rw [l.swap_dx, l.swap_dy]
    ring
  unfold Segment.start
  rw [herr]
  rfl

theorem Segment.swap_moveX (l : Segment) (p : LinePos) : l.swap.moveX p.swap = (l.moveY p).swap := by
  unfold Segment.moveX Segment.moveY LinePos.swap
  rw [l.swap_dy, neg_add]
  rfl

theorem Segment.swap_moveY (l : Segment) (p : LinePos) : l.swap.moveY p.swap = (l.moveX p).swap := by
  unfold Segment.moveX Segment.moveY LinePos.swap
  rw [l.swap_dx, neg_add]
  rfl

theorem Segment.moveX_moveY (l : Segment) (p : LinePos) : l.moveX (l.moveY p) = l.moveY (l.moveX p) := by
  unfold Segment.moveX Segment.moveY
  rw [add_right_comm]

/-- One snapshot serves both tests, so a step treats `x` and `y` alike. -/
theorem Segment.swap_stepSnapshot (l : Segment) (p : LinePos) :
    l.swap.stepSnapshot p.swap = (l.stepSnapshot p).swap := by
  have herr : p.swap.err = -p.err := rfl
  have hx : l.swap.dy ≤ 2 * p.swap.err ↔ 2 * p.err ≤ l.dx := by
    rw [l.swap_dy, herr]
    omega
  have hy : 2 * p.swap.err ≤ l.swap.dx ↔ l.dy ≤ 2 * p.err := by
    rw [l.swap_dx, herr]
    omega
  rw [Segment.stepSnapshot_eq, Segment.stepSnapshot_eq]
  simp only [hx, hy]
  split_ifs
  · rw [l.swap_moveX, l.swap_moveY, l.moveX_moveY]
  · exact l.swap_moveY p
  · exact l.swap_moveX p
  · rfl

theorem Segment.swap_iterate_stepSnapshot (l : Segment) (k : Nat) :
    l.swap.stepSnapshot^[k] l.swap.start = (l.stepSnapshot^[k] l.start).swap := by
  rw [l.swap_start]
  exact (Function.Semiconj.iterate_right (fun p => (l.swap_stepSnapshot p).symm) k l.start).symm

theorem Segment.Arrives.of_swap {l : Segment} {n : Nat} (h : l.swap.Arrives n) : l.Arrives n := by
  refine ⟨⟨fun k hk hend => h.atEnd.before k hk ?_, ?_⟩, fun k hk => ?_⟩
  · rw [l.swap_iterate_stepSnapshot]
    exact hend.symm
  · have hend := h.atEnd.stops
    rw [l.swap_iterate_stepSnapshot] at hend
    exact hend.symm
  · have hbox := h.inBox k hk
    rw [l.swap_iterate_stepSnapshot] at hbox
    exact hbox.symm

/-- The walk by snapshots takes as many steps as the greater distance (R185). -/
theorem Segment.arrives (l : Segment) : l.Arrives l.distance := by
  obtain ⟨hmajor, hn⟩ | ⟨hmajor, hn⟩ := l.distance_cases
  · exact Segment.arrives_of_major hmajor hn
  · refine (Segment.arrives_of_major (l := l.swap) ?_ (hn.trans l.swap_dx.symm)).of_swap
    rw [l.swap_dx, l.swap_dy]
    omega

/-! ### `SourceQuirk` -/

/-- When `x` has the greater distance it moves in every step: the error term stays at least 0. -/
theorem Segment.at_iterate_stepQuirk_of_major_x {l : Segment} (hmajor : -l.dy ≤ l.dx) (k : Nat) :
    ∃ b, l.At k b (l.stepQuirk^[k] l.start) ∧ 0 ≤ (l.stepQuirk^[k] l.start).err := by
  have hy := l.dy_nonpos
  induction k with
  | zero => exact ⟨0, l.at_start, show 0 ≤ l.dx + l.dy by omega⟩
  | succ k ih =>
    obtain ⟨b, hat, herr⟩ := ih
    rw [Function.iterate_succ_apply']
    generalize l.stepQuirk^[k] l.start = p at hat herr ⊢
    obtain ⟨_, _, hs⟩ | ⟨_, hmy, hs⟩ | ⟨hmx, _⟩ := l.stepQuirk_cases p
    · rw [hs]
      refine ⟨b + 1, hat.moveX.moveY, ?_⟩
      dsimp only [Segment.moveX, Segment.moveY]
      omega
    · rw [hs]
      refine ⟨b, hat.moveX, ?_⟩
      dsimp only [Segment.moveX]
      omega
    · omega

/-- When `y` has the greater distance it moves in every step: the error term stays at most `dx`. -/
theorem Segment.at_iterate_stepQuirk_of_major_y {l : Segment} (hmajor : l.dx ≤ -l.dy) (k : Nat) :
    ∃ a, l.At a k (l.stepQuirk^[k] l.start) ∧ (l.stepQuirk^[k] l.start).err ≤ l.dx := by
  have hx := l.dx_nonneg
  induction k with
  | zero => exact ⟨0, l.at_start, show l.dx + l.dy ≤ l.dx by omega⟩
  | succ k ih =>
    obtain ⟨a, hat, herr⟩ := ih
    rw [Function.iterate_succ_apply']
    generalize l.stepQuirk^[k] l.start = p at hat herr ⊢
    obtain ⟨_, _, hs⟩ | ⟨_, hmy, _⟩ | ⟨hmx, hs⟩ := l.stepQuirk_cases p
    · rw [hs]
      refine ⟨a + 1, hat.moveX.moveY, ?_⟩
      dsimp only [Segment.moveX, Segment.moveY]
      omega
    · omega
    · rw [hs]
      refine ⟨a, hat.moveY, ?_⟩
      dsimp only [Segment.moveY]
      omega

/-- The walk of `SourceQuirk` stops within the greater distance (R185). -/
theorem Segment.exists_stopsAt_quirk (l : Segment) :
    ∃ n ≤ l.distance, StopsAt l.AtTarget l.stepQuirk l.start n := by
  have htarget : l.AtTarget (l.stepQuirk^[l.distance] l.start) := by
    obtain ⟨hmajor, hn⟩ | ⟨hmajor, hn⟩ := l.distance_cases
    · obtain ⟨b, hat, _⟩ := Segment.at_iterate_stepQuirk_of_major_x hmajor l.distance
      exact hat.atTarget_iff.2 (.inl hn)
    · obtain ⟨a, hat, _⟩ := Segment.at_iterate_stepQuirk_of_major_y hmajor l.distance
      exact hat.atTarget_iff.2 (.inr hn)
  have hex : ∃ n, l.AtTarget (l.stepQuirk^[n] l.start) := ⟨_, htarget⟩
  exact ⟨Nat.find hex, Nat.find_min' hex htarget, fun _ hk => Nat.find_min hex hk, Nat.find_spec hex⟩

/-- Before either coordinate is at its target both are on their way to it. -/
theorem Segment.at_of_not_atTarget {l : Segment} {n : Nat}
    (h : ∀ k < n, ¬ l.AtTarget (l.stepQuirk^[k] l.start)) : ∀ k < n, ∃ a b,
      l.At a b (l.stepQuirk^[k] l.start) ∧ (0 ≤ a ∧ a < l.dx) ∧ (0 ≤ b ∧ b < -l.dy) := by
  have hx := l.dx_nonneg
  have hy := l.dy_nonpos
  intro k hk
  induction k with
  | zero =>
    have hgo := (l.at_start.atTarget_iff).not.1 (h 0 hk)
    exact ⟨0, 0, l.at_start, by omega, by omega⟩
  | succ k ih =>
    obtain ⟨a, b, hat, ha, hb⟩ := ih (Nat.lt_of_succ_lt hk)
    have hgo := h (k + 1) hk
    rw [Function.iterate_succ_apply'] at hgo ⊢
    obtain hs | hs | hs := l.stepQuirk_moves (l.stepQuirk^[k] l.start) <;> rw [hs] at hgo ⊢
    · rw [hat.moveX.moveY.atTarget_iff] at hgo
      exact ⟨a + 1, b + 1, hat.moveX.moveY, by omega, by omega⟩
    · rw [hat.moveX.atTarget_iff] at hgo
      exact ⟨a + 1, b, hat.moveX, by omega, by omega⟩
    · rw [hat.moveY.atTarget_iff] at hgo
      exact ⟨a, b + 1, hat.moveY, by omega, by omega⟩

/-! ### What the points of a walk have in common -/

/-- The points lie in the box of the end points, and consecutive ones differ by at most 1 (R185). -/
structure Segment.Traces (l : Segment) (pts : List (Int × Int)) : Prop where
  inBox : ∀ p ∈ pts, min l.x0 l.x1 ≤ p.1 ∧ p.1 ≤ max l.x0 l.x1 ∧
    min l.y0 l.y1 ≤ p.2 ∧ p.2 ≤ max l.y0 l.y1
  near : ∀ (k : Nat) (p q : Int × Int), pts[k]? = some p → pts[k + 1]? = some q →
    (q.1 - p.1).natAbs ≤ 1 ∧ (q.2 - p.2).natAbs ≤ 1

theorem Segment.traces_firstPoints {l : Segment} {step : LinePos → LinePos} {n : Nat}
    (hmoves : ∀ p, l.Moves p (step p)) (hbox : ∀ k < n, l.InBox (step^[k] l.start)) :
    l.Traces (firstPoints step l.start n) := by
  have hget : ∀ {k : Nat} {p : Int × Int}, (firstPoints step l.start n)[k]? = some p →
      p = (step^[k] l.start).point := fun h => by
    obtain ⟨_, rfl⟩ := List.getElem?_eq_some_iff.1 h
    simp [firstPoints]
  refine ⟨fun p hp => ?_, fun k p q hp hq => ?_⟩
  · obtain ⟨k, hk, rfl⟩ := List.mem_map.1 hp
    exact and_assoc.1 (hbox k (List.mem_range.1 hk))
  · obtain rfl := hget hp
    obtain rfl := hget hq
    rw [Function.iterate_succ_apply']
    exact (hmoves _).near

end Sys2Proof.Machine

namespace Sys2Proof.Proofs

open Sys2Proof.Machine

/-- Settles O32: each walk is the first positions of its step, up to where its test first holds. -/
theorem lineProperties : Obligations.LineProperties := by
  intro l n hn
  obtain rfl : n = l.distance := hn
  have hpasses := l.distance_lt_passes
  have harr := l.arrives
  obtain ⟨m, hm, hquirk⟩ := l.exists_stopsAt_quirk
  have hinc : ∀ k, l.passes ≤ k → l.walkInclusive k l.start = _ := fun k hk =>
    walkInclusive_eq l.distance harr.atEnd (by omega)
  have hexc : ∀ k, l.passes ≤ k → l.walkExclusive k l.start = _ := fun k hk =>
    (walkExclusive_eq_walkUntil _ _).trans (walkUntil_eq l.distance harr.atEnd (by omega))
  have hqrk : ∀ k, l.passes ≤ k → l.walkQuirk k l.start = _ := fun k hk =>
    (walkQuirk_eq_walkUntil _ _).trans (walkUntil_eq m hquirk (by omega))
  have hI : linePoints .inclusive l = _ := hinc l.passes le_rfl
  have hE : linePoints .exclusive l = _ := hexc l.passes le_rfl
  have hQ : linePoints .sourceQuirk l = _ := hqrk l.passes le_rfl
  have htraces : ∀ mode, l.Traces (linePoints mode l) := fun mode => by
    cases mode with
    | inclusive =>
      rw [hI]
      exact Segment.traces_firstPoints l.stepSnapshot_moves fun k hk => harr.inBox k (Nat.le_of_lt_succ hk)
    | exclusive =>
      rw [hE]
      exact Segment.traces_firstPoints l.stepSnapshot_moves fun k hk => harr.inBox k hk.le
    | sourceQuirk =>
      rw [hQ]
      refine Segment.traces_firstPoints l.stepQuirk_moves fun k hk => ?_
      obtain ⟨a, b, hat, ha, hb⟩ := Segment.at_of_not_atTarget hquirk.before k hk
      exact hat.inBox ⟨ha.1, ha.2.le⟩ ⟨hb.1, hb.2.le⟩
  rw [hI, hE, hQ]
  refine ⟨fun mode => ⟨(htraces mode).inBox, (htraces mode).near⟩,
    ⟨length_firstPoints _ _ _, ?head, ?last⟩, ?take, ⟨(length_firstPoints _ _ _).trans_le hm, ?flat⟩,
    fun k hk => ⟨hinc k hk, hexc k hk, hqrk k hk⟩⟩
  case head =>
    rw [firstPoints_succ]
    rfl
  case last =>
    obtain ⟨hx, hy⟩ := harr.atEnd.stops
    rw [firstPoints_concat, List.getLast?_concat, LinePos.point, hx, hy]
  case take =>
    rw [firstPoints_concat, List.take_left' (length_firstPoints _ _ _)]
  case flat =>
    intro hflat
    obtain rfl : m = 0 := Nat.eq_zero_of_not_pos fun hpos => hquirk.before 0 hpos hflat
    rfl

end Sys2Proof.Proofs
end

section
/-! PROOFS. The events of one operation and PINS after them (10_state.md R44; 42_controller_core.md R234,
R241), and the settlement of O18 and O56: the events of every effect keep the transfer protocol. -/

namespace Sys2Proof.Machine

/-- The new events of an operation, oldest first: they keep the transfer protocol, leave RST high, and
PINS follows them. -/
theorem Effect.exists_tidy_events {i : Instr} {s t : State} (h : Effect i s t) :
    ∃ evs, t.trace.map Traced.event = evs.reverse ++ s.trace.map Traced.event ∧ Tidy evs ∧
      t.pins = pinsAfter s.pins evs := by
  cases h with
  | status | geometry | drawn => exact ⟨[], rfl, Tidy.nil, rfl⟩
  | port _ _ evs _ _ _ _ _ ht => exact ⟨evs.map Traced.event, by simp, ht, rfl⟩

end Sys2Proof.Machine

namespace Sys2Proof.Proofs

open Sys2Proof.Machine

/-- Settles O56: what a tidy list of events leaves at rest stays at rest. -/
theorem eventsKeepPortProtocol : Obligations.EventsKeepPortProtocol := by
  intro i s t h
  obtain ⟨u, hu, heff⟩ := exec_effect i s
  cases h.symm.trans hu
  obtain ⟨evs, htrace, htidy, hpins⟩ := heff.exists_tidy_events
  exact ⟨evs, htrace, htidy.1, hpins, fun hrest => hpins ▸ htidy.atRest hrest⟩

/-- Settles O18. -/
theorem nopClearsStatus : Obligations.NopClearsStatus := fun _ => rfl

end Sys2Proof.Proofs
end

section
/-! PROOFS. The guard and the states of the controller operations (42_controller_core.md R228, R229,
R235), and the settlement of O38 and O39: a controller operation is its variant check, its guard and
then one body, which emits every event in one state. -/

namespace Sys2Proof.Machine

/-! ### The guard -/

/-- A controller operation on a block that has it, once its guard holds; the state as it is for the
operations without a guard. -/
def controllerBody : Instr → State → State
  | .ctlReset => fun s => finish .ok (resetPulse (setFsm .uninitialized s))
  | .ctlInitA => runInit fun s => runPort (initA s.cfg) s
  | .ctlInitB sel => runInit (runInitB sel)
  | .ctlDisplayFrame => fun s => runAs .refreshing .idle (displayOps s.cfg) s
  | .ctlSleep => fun s => runAs .idle .sleeping (sleepOps s.cfg) s
  | .ctlClearFrameMemory => fun s => runAs .writing .idle (clearOps s.cfg (u8 s.arg0)) s
  | .aSetPartialWindow black red =>
    fun s => runPartialA (u16 s.arg0) black (some (u16 s.arg1, red)) s
  | .aSetPartialWindowBlack black => fun s => runPartialA (u16 s.arg0) black none s
  | .bSetLut sel => runSetLut sel
  | .bSetMemoryArea => runSetMemoryArea
  | .bSetMemoryPointer => runSetMemoryPointer
  | .bSetFrameMemoryAt => runSetFrameMemoryAt
  | .bSetFrameMemory => fun s => runAs .writing .idle (frameB s.cfg s.mem (u16 s.arg0)) s
  | _ => id

/-- A controller operation is illegal on the other variant (R105), and its guard comes before anything
else it does (R228). -/
theorem exec_eq_guarded {i : Instr} {allowed : List Fsm} (hi : i.allowed = some allowed) (s : State) :
    exec i s = .next (if i.WellFormed s.cfg.variant = true then guarded allowed (controllerBody i) s
      else s.failed .illegalOp) := by
  cases i with
  | ctlReset | ctlDisplayFrame | ctlSleep | ctlClearFrameMemory =>
    cases hi
    rfl
  | ctlInitA | ctlInitB | aSetPartialWindow | aSetPartialWindowBlack | bSetLut | bSetMemoryArea
  | bSetMemoryPointer | bSetFrameMemoryAt | bSetFrameMemory =>
    cases hi
    refine congrArg Host.Outcome.next (if_congr ?_ rfl rfl)
    exact eq_comm.trans beq_iff_eq.symm
  | _ => cases hi

section Guard

variable {i : Instr} {s : State} {allowed : List Fsm} (hi : i.allowed = some allowed)
  (hwf : i.WellFormed s.cfg.variant = true)
include hi hwf

theorem exec_of_allowed (hs : s.fsm ∈ allowed) : exec i s = .next (controllerBody i s) := by
  rw [exec_eq_guarded hi, if_pos hwf, guarded, if_pos (List.contains_iff_mem.mpr hs)]

theorem exec_of_not_allowed (hs : s.fsm ∉ allowed) :
    exec i s = .next (s.failed .invalidState) := by
  rw [exec_eq_guarded hi, if_pos hwf, guarded, if_neg (mt List.contains_iff_mem.mp hs)]
  rfl

end Guard

/-- An operation that is not allowed in a state leaves it, also on a block that does not have it. -/
theorem exec_fsm_of_not_allowed {i : Instr} {s t : State} {allowed : List Fsm}
    (hi : i.allowed = some allowed) (hs : s.fsm ∉ allowed) (h : exec i s = .next t) :
    t.fsm = s.fsm := by
  by_cases hwf : i.WellFormed s.cfg.variant = true
  · cases (exec_of_not_allowed hi hwf hs).symm.trans h
    rfl
  · rw [exec_eq_guarded hi, if_neg hwf] at h
    cases h
    rfl

/-- An operation without a guard leaves STATE (R140, R234). -/
theorem exec_fsm_of_no_guard {i : Instr} {s t : State} (hi : i.allowed = none)
    (h : exec i s = .next t) : t.fsm = s.fsm := by
  obtain ⟨u, hu, heff⟩ := exec_effect i s
  cases h.symm.trans hu
  exact (heff.controller hi).1

/-- Of the operations with a guard, CTL_RESET alone is allowed in Sleeping (R229). -/
theorem sleeping_not_mem_allowed {i : Instr} {allowed : List Fsm} (hi : i.allowed = some allowed)
    (hne : i ≠ .ctlReset) : Fsm.sleeping ∉ allowed := by
  cases i with
  | ctlReset => exact absurd rfl hne
  | ctlInitA | ctlInitB | ctlDisplayFrame | ctlSleep | ctlClearFrameMemory | aSetPartialWindow
  | aSetPartialWindowBlack | bSetLut | bSetMemoryArea | bSetMemoryPointer | bSetFrameMemoryAt
  | bSetFrameMemory =>
    cases hi
    decide
  | _ => cases hi

/-! ### The states of a run -/

/-- STATE is `f` in `t`, and every event `t` has over `s` was emitted in `f`. -/
def EmittedIn (f : Fsm) (s t : State) : Prop :=
  t.fsm = f ∧ ∃ evs, t.trace = evs ++ s.trace ∧ ∀ e ∈ evs, e.fsm = f

theorem EmittedIn.start (f : Fsm) (s : State) : EmittedIn f s (setFsm f s) :=
  ⟨rfl, [], rfl, by simp⟩

theorem EmittedIn.refl {f : Fsm} {s : State} (h : s.fsm = f) : EmittedIn f s s :=
  ⟨h, [], rfl, by simp⟩

theorem EmittedIn.ran {f : Fsm} {s t u : State} {evs : List Event} (h : EmittedIn f s t)
    (hr : Ran t u evs) : EmittedIn f s u := by
  obtain ⟨hf, old, htrace, hold⟩ := h
  have hu : u.trace = (evs.map (Traced.mk t.fsm)).reverse ++ t.trace := by rw [hr]
  refine ⟨by rw [hr]; exact hf, (evs.map (Traced.mk t.fsm)).reverse ++ old, ?_, fun e he => ?_⟩
  · rw [hu, htrace, List.append_assoc]
  · rcases List.mem_append.mp he with hnew | h'
    · obtain ⟨_, _, rfl⟩ := List.mem_map.mp (List.mem_reverse.mp hnew)
      exact hf
    · exact hold e h'

theorem EmittedIn.runPort {f : Fsm} {s t : State} (h : EmittedIn f s t) (ops : List PortOp) :
    EmittedIn f s (runPort ops t).2 := by
  obtain ⟨_, hr, -⟩ := runPort_ran ops t
  exact h.ran hr

theorem EmittedIn.setLutB {f : Fsm} {s t : State} (h : EmittedIn f s t) (sel : LutSel) :
    EmittedIn f s (setLutB sel t).2 :=
  EmittedIn.runPort (t := setLut (lutFor sel t) t) h _

theorem EmittedIn.runInitB {f : Fsm} {s t : State} (h : EmittedIn f s t) (sel : LutSel) :
    EmittedIn f s (runInitB sel t).2 := by
  have hinit := h.runPort (initB t.cfg)
  unfold Machine.runInitB
  dsimp only
  split
  · exact hinit.setLutB sel
  · exact hinit

/-! ### The transition table -/

/-- What R229's table says of an operation `i` that its guard let run from `s` to `t`: the state of
every event, and the state each result leaves. -/
def FollowsTable (i : Instr) (s t : State) : Prop :=
  (∃ evs, t.trace = evs ++ s.trace ∧ ∀ e ∈ evs, e.fsm = i.stateRunning) ∧
    (t.code = .ok → t.fsm = i.stateOnOk) ∧
    (t.code = .invalidGeometry → t.fsm = .idle) ∧
    (t.code = .hardwareFault ∨ t.code = .hardwareInitFailure → t.fsm = .uninitialized)

section Table

variable {i : Instr} {s : State}

/-- A run that emitted its events in the table's state, timed out or not (R232). -/
theorem EmittedIn.endRun_followsTable {f after : Fsm} {r : Bool × State} (h : EmittedIn f s r.2)
    (hrun : i.stateRunning = f) (hok : i.stateOnOk = after) : FollowsTable i s (endRun after r) := by
  subst hrun
  unfold endRun
  split
  · exact ⟨h.2, fun _ => hok.symm, by simp, by simp⟩
  · exact ⟨h.2, by simp, by simp, fun _ => rfl⟩

theorem runAs_followsTable {during after : Fsm} (hrun : i.stateRunning = during)
    (hok : i.stateOnOk = after) (ops : List PortOp) (s : State) :
    FollowsTable i s (runAs during after ops s) :=
  ((EmittedIn.start during s).runPort ops).endRun_followsTable hrun hok

/-- CTL_INIT with a body that only emits; a failed handshake leaves Uninitialized (R236). -/
theorem runInit_followsTable {body : State → Bool × State} (hrun : i.stateRunning = .uninitialized)
    (hok : i.stateOnOk = .idle)
    (hbody : ∀ t, EmittedIn .uninitialized s t → EmittedIn .uninitialized s (body t).2) :
    FollowsTable i s (runInit body s) := by
  have hinit := (EmittedIn.start .uninitialized s).ran (hwInit_ran _)
  unfold runInit
  dsimp only
  split
  · exact (hbody _ (hinit.ran (resetPulse_ran _))).endRun_followsTable hrun hok
  · exact ⟨hrun ▸ hinit.2, by simp, by simp, fun _ => hinit.1⟩

/-- An operation that finishes before any event, in Idle. -/
theorem finish_idle_followsTable (hs : s.fsm = .idle) (hok : i.stateOnOk = .idle) :
    FollowsTable i s (finish .ok s) :=
  ⟨⟨[], rfl, by simp⟩, fun _ => hs.trans hok.symm, by simp, by simp⟩

theorem invalidGeometry_followsTable (hs : s.fsm = .idle) :
    FollowsTable i s (raise .invalidGeometry s) :=
  ⟨⟨[], rfl, by simp⟩, by simp, fun _ => hs, by simp⟩

end Table

/-- An operation that its guard lets run follows R229's table. -/
theorem controllerBody_followsTable {i : Instr} {allowed : List Fsm} (hi : i.allowed = some allowed)
    {s : State} (hs : s.fsm ∈ allowed) : FollowsTable i s (controllerBody i s) := by
  cases i with
  | ctlReset =>
    obtain ⟨hfsm, htrace⟩ := (EmittedIn.start .uninitialized s).ran (resetPulse_ran _)
    exact ⟨htrace, fun _ => hfsm, by simp [controllerBody], by simp [controllerBody]⟩
  | ctlInitA => exact runInit_followsTable rfl rfl fun _ h => h.runPort _
  | ctlInitB sel => exact runInit_followsTable rfl rfl fun _ h => h.runInitB sel
  | ctlDisplayFrame | ctlSleep | ctlClearFrameMemory | bSetFrameMemory =>
    exact runAs_followsTable rfl rfl _ s
  | aSetPartialWindow | aSetPartialWindowBlack | bSetFrameMemoryAt =>
    cases hi
    simp only [controllerBody, runPartialA, runSetFrameMemoryAt]
    split
    · exact finish_idle_followsTable (List.mem_singleton.mp hs) rfl
    · exact runAs_followsTable rfl rfl _ s
  | bSetLut sel =>
    cases hi
    exact ((EmittedIn.refl (List.mem_singleton.mp hs)).setLutB sel).endRun_followsTable rfl rfl
  | bSetMemoryArea | bSetMemoryPointer =>
    cases hi
    simp only [controllerBody, runSetMemoryArea, runSetMemoryPointer]
    split
    · exact ((EmittedIn.refl (List.mem_singleton.mp hs)).runPort _).endRun_followsTable rfl rfl
    · exact invalidGeometry_followsTable (List.mem_singleton.mp hs)
  | _ => cases hi

end Sys2Proof.Machine

namespace Sys2Proof.Proofs

open Sys2Proof.Machine

/-- Settles O38, by whether the operation has a guard and whether the guard lets it run. -/
theorem controllerTransitions : Obligations.ControllerTransitions := by
  refine fun i s t hwf h => ⟨fun hi => exec_fsm_of_no_guard hi h, fun allowed hi hs => ?refused,
    fun allowed hi hs => ?run⟩
  case refused =>
    cases (exec_of_not_allowed hi hwf hs).symm.trans h
    rfl
  case run =>
    cases (exec_of_allowed hi hwf hs).symm.trans h
    exact controllerBody_followsTable hi hs

/-- Settles O39: every stable state is allowed, and Sleeping is allowed to no other operation. -/
theorem resetPulsesPanel : Obligations.ResetPulsesPanel := by
  refine ⟨fun s hs => ?pulse, fun i s t hs hne h => ?others⟩
  case pulse =>
    have hmem : s.fsm ∈ [Fsm.uninitialized, .idle, .sleeping] := by
      revert hs
      cases s.fsm <;> decide
    exact (exec_of_allowed (i := .ctlReset) rfl rfl hmem).trans
      (congrArg (fun t => Host.Outcome.next (finish .ok t)) (resetPulse_eq _))
  case others =>
    rw [← hs]
    cases hi : i.allowed with
    | none => exact exec_fsm_of_no_guard hi h
    | some allowed =>
      exact exec_fsm_of_not_allowed hi (hs ▸ sleeping_not_mem_allowed hi hne) h

end Sys2Proof.Proofs
end

section
/-! PROOFS. The exact events of the byte sequences that wait at most once (42_controller_core.md R225,
R236 to R238; 43_variant_a.md R271, R275, R276; 44_variant_b.md R311, R312), and the settlement of O40,
O43 and O44. -/

namespace Sys2Proof.Machine

/-! ### The waits and the events of a byte sequence -/

@[simp] theorem waits_map_dat (bs : List Byte) : waits (bs.map .dat) = 0 := by
  simp [waits, List.countP_map, Function.comp_def]

@[simp] theorem seqEvents_map_dat (cfg : Config) (k : Nat → Nat) (bs : List Byte) :
    seqEvents cfg k (bs.map .dat) = datsEvents bs := by
  induction bs with
  | nil => rfl
  | cons b r ih => simp only [List.map_cons, seqEvents, ih, datsEvents, List.flatMap_cons]

/-! ### Runs on a panel that answers -/

theorem ReadyAfter.readyEach {s : State} {k : Nat} (h : ReadyAfter s k) :
    ReadyEach s 1 fun _ => k := by
  obtain ⟨hk, hb⟩ := h
  refine ⟨fun _ _ => hk, ?_⟩
  simpa [hb] using List.take_prefix (k + 1) s.busyIn

theorem NeverReady.readyThenNever {s : State} (h : NeverReady s) (k : Nat → Nat) :
    ReadyThenNever s 0 k :=
  ⟨by simp, by simpa [h] using List.take_prefix (s.cfg.waitMaxPolls + 1) s.busyIn⟩

section Runs

variable {s : State} {during after : Fsm} {k : Nat → Nat}

theorem runAs_of_readyEach {ops : List PortOp} (h : ReadyEach s (waits ops) k) :
    runAs during after ops s = s.ended during after .ok (seqEvents s.cfg k ops) := by
  unfold runAs
  rw [runPort_readyEach ops k (setFsm during s) h]
  rfl

theorem runAs_of_readyThenNever {before rest : List PortOp} (h : ReadyThenNever s (waits before) k) :
    runAs during after (before ++ .wait :: rest) s = s.ended during .uninitialized .hardwareFault
      (seqEvents s.cfg k before ++ timeoutEvents s.cfg) := by
  unfold runAs
  rw [runPort_timeout before rest k (setFsm during s) h]
  rfl

/-- A byte sequence with one wait, which the panel answers within the limit. -/
theorem runAs_one_wait_of_readyAfter {before rest : List PortOp} (hbefore : waits before = 0)
    (hrest : waits rest = 0) {n : Nat} (h : ReadyAfter s n) :
    runAs during after (before ++ .wait :: rest) s = s.ended during after .ok
      (seqEvents s.cfg (fun _ => n) before ++ waitEvents s.cfg n
        ++ seqEvents s.cfg (fun _ => n) rest) := by
  have hone : waits (before ++ .wait :: rest) = 1 := by simp [hbefore, hrest]
  rw [runAs_of_readyEach (hone ▸ h.readyEach), seqEvents_append, seqEvents, List.append_assoc]

/-- A byte sequence whose first wait the panel answers at no sample. -/
theorem runAs_of_neverReady {before rest : List PortOp} (hbefore : waits before = 0)
    (h : NeverReady s) (k : Nat → Nat) :
    runAs during after (before ++ .wait :: rest) s = s.ended during .uninitialized .hardwareFault
      (seqEvents s.cfg k before ++ timeoutEvents s.cfg) :=
  runAs_of_readyThenNever (hbefore ▸ h.readyThenNever k)

/-- CTL_INIT past a handshake that answers ok: the handshake and the reset pulse, then the variant's
own init (R236). -/
theorem runInit_of_ok (body : State → Bool × State) (h : s.initIn.head? = some true) :
    runInit body s = endRun .idle (body ((setFsm .uninitialized s).observed .uninitialized
      ([.hwInit true] ++ resetPulseEvents s.cfg))) := by
  obtain ⟨rest, hin⟩ := List.head?_eq_some_iff.mp h
  have hshake : hwInit (setFsm .uninitialized s) =
      (true, (setFsm .uninitialized s).observed .uninitialized [.hwInit true]) := by
    simp [hwInit, drawInit, hin, State.observed, emit, pinsAfter, pinsAfterEvent, Event.isBusy,
      Event.isHwInit]
  unfold runInit
  rw [hshake, ← observed_append]
  simp only [if_true, resetPulse_eq]
  rfl

end Runs

/-! ### The bytes of a panel size -/

theorem lo8_u16 (w : Word) : lo8 (u16 w) = w.extractLsb' 0 8 := by
  apply BitVec.eq_of_toNat_eq
  simp [lo8, u16]

theorem hi8_u16 (w : Word) : hi8 (u16 w) = w.extractLsb' 8 8 := by
  apply BitVec.eq_of_toNat_eq
  simp [lo8, hi8, u16, Nat.shiftRight_eq_div_pow]
  omega

/-! ### The sequences -/

@[simp] theorem waits_initA (cfg : Config) : waits (initA cfg) = 1 := by
  simp [initA]

theorem seqEvents_initA (cfg : Config) (k : Nat → Nat) : seqEvents cfg k (initA cfg) =
    cmdEvents cfg.cmdA.boosterSoftStart ++ datsEvents cfg.dataA.booster
      ++ cmdEvents cfg.cmdA.powerOn ++ waitEvents cfg (k 0)
      ++ cmdEvents cfg.cmdA.panelSetting ++ datsEvents [cfg.dataA.panel]
      ++ cmdEvents cfg.cmdA.vcomAndDataInterval ++ datsEvents [cfg.dataA.vcom]
      ++ cmdEvents cfg.cmdA.resolutionSetting
      ++ datsEvents [cfg.panelW.extractLsb' 0 8, cfg.panelH.extractLsb' 8 8,
          cfg.panelH.extractLsb' 0 8] := by
  simp [initA, seqEvents, seqEvents_append, datsEvents, lo8_u16, hi8_u16]

/-- The refresh sequence before its wait (R275, R311). -/
def displayHead (cfg : Config) : List PortOp :=
  match cfg.variant with
  | .a => [.cmd cfg.cmdA.displayRefresh]
  | .b => [.cmd cfg.cmdB.displayUpdateControl2, .dat cfg.dataB.update, .cmd cfg.cmdB.masterActivation,
      .cmd cfg.cmdB.terminateFrameReadWrite]

theorem displayOps_eq (cfg : Config) : displayOps cfg = displayHead cfg ++ [.wait] := by
  unfold displayOps displayHead
  cases cfg.variant <;> rfl

@[simp] theorem waits_displayHead (cfg : Config) : waits (displayHead cfg) = 0 := by
  unfold displayHead
  cases cfg.variant <;> rfl

/-- The sleep sequence before its wait (R276, R312). -/
def sleepHead (cfg : Config) : List PortOp :=
  match cfg.variant with
  | .a => [.cmd cfg.cmdA.powerOff]
  | .b => [.cmd cfg.cmdB.deepSleepMode]

/-- The sleep sequence after its wait (R276, R312). -/
def sleepRest (cfg : Config) : List PortOp :=
  match cfg.variant with
  | .a => [.cmd cfg.cmdA.deepSleep, .dat cfg.dataA.deepSleepKey]
  | .b => []

theorem sleepOps_eq (cfg : Config) : sleepOps cfg = sleepHead cfg ++ .wait :: sleepRest cfg := by
  unfold sleepOps sleepHead sleepRest
  cases cfg.variant <;> rfl

@[simp] theorem waits_sleepHead (cfg : Config) : waits (sleepHead cfg) = 0 := by
  unfold sleepHead
  cases cfg.variant <;> rfl

@[simp] theorem waits_sleepRest (cfg : Config) : waits (sleepRest cfg) = 0 := by
  unfold sleepRest
  cases cfg.variant <;> rfl

end Sys2Proof.Machine

namespace Sys2Proof.Proofs

open Sys2Proof.Machine

/-- Settles O40: the handshake and the reset pulse take no BUSY answer, so the panel answers the one
wait of InitA. -/
theorem initACompletes : Obligations.InitACompletes := by
  intro s k hv hs hinit hready
  have hmem : s.fsm ∈ [Fsm.uninitialized, .idle] := by simpa using hs
  have hrun : ReadyEach ((setFsm .uninitialized s).observed .uninitialized
      ([.hwInit true] ++ resetPulseEvents s.cfg)) (waits (initA s.cfg)) fun _ => k :=
    waits_initA s.cfg ▸ hready.readyEach
  rw [exec_of_allowed (i := .ctlInitA) rfl (hv ▸ rfl) hmem, controllerBody,
    runInit_of_ok (fun t => runPort (initA t.cfg) t) hinit, observed_cfg, setFsm_cfg,
    runPort_readyEach _ _ _ hrun, observed_cfg, setFsm_cfg, seqEvents_initA]
  simp only [observed_fsm, setFsm_fsm, observed_append, List.append_assoc]
  rfl

/-- Settles O43: the one wait is the last element of the sequence. -/
theorem displayFrameCompletes : Obligations.DisplayFrameCompletes := by
  intro s head hhead
  have hevents (k : Nat → Nat) : seqEvents s.cfg k (displayHead s.cfg) = head := by
    subst hhead
    unfold displayHead
    cases s.cfg.variant <;> simp [seqEvents, datsEvents]
  have hrun (hs : s.fsm = .idle) : exec .ctlDisplayFrame s =
      .next (runAs .refreshing .idle (displayHead s.cfg ++ [.wait]) s) := by
    rw [← displayOps_eq]
    exact exec_of_allowed rfl rfl (List.mem_singleton.mpr hs)
  refine ⟨fun hs => ?guard, fun hs k hk => ?ready, fun hs hn => ?timeout⟩
  case guard => exact exec_of_not_allowed rfl rfl (mt List.mem_singleton.mp hs)
  case ready =>
    rw [hrun hs, runAs_one_wait_of_readyAfter (waits_displayHead _) waits_nil hk, hevents, seqEvents,
      List.append_nil]
  case timeout => rw [hrun hs, runAs_of_neverReady (waits_displayHead _) hn fun _ => 0, hevents]

/-- Settles O44: where the one wait times out, the rest of the sequence is not sent. -/
theorem sleepCompletes : Obligations.SleepCompletes := by
  intro s head rest hhead hrest
  have hheadEvents (k : Nat → Nat) : seqEvents s.cfg k (sleepHead s.cfg) = head := by
    subst hhead
    unfold sleepHead
    cases s.cfg.variant <;> simp [seqEvents]
  have hrestEvents (k : Nat → Nat) : seqEvents s.cfg k (sleepRest s.cfg) = rest := by
    subst hrest
    unfold sleepRest
    cases s.cfg.variant <;> simp [seqEvents, datsEvents]
  have hrun (hs : s.fsm = .idle) : exec .ctlSleep s =
      .next (runAs .idle .sleeping (sleepHead s.cfg ++ .wait :: sleepRest s.cfg) s) := by
    rw [← sleepOps_eq]
    exact exec_of_allowed rfl rfl (List.mem_singleton.mpr hs)
  refine ⟨fun hs => ?guard, fun hs k hk => ?ready, fun hs hn => ?timeout⟩
  case guard => exact exec_of_not_allowed rfl rfl (mt List.mem_singleton.mp hs)
  case ready =>
    rw [hrun hs, runAs_one_wait_of_readyAfter (waits_sleepHead _) (waits_sleepRest _) hk, hheadEvents,
      hrestEvents]
  case timeout => rw [hrun hs, runAs_of_neverReady (waits_sleepHead _) hn fun _ => 0, hheadEvents]

end Sys2Proof.Proofs
end

section
/-! PROOFS. The byte sequences of CTL_CLEAR_FRAME_MEMORY (42_controller_core.md R239; 43_variant_a.md
R277; 44_variant_b.md R306, R308, R310, R385), and the settlement of O45: rows whose waits are numbered
on, and the row at whose wait a run stops. -/

namespace Sys2Proof.Machine

/-! ### Variant A -/

/-- Nothing is asked of the panel before a sequence that does not wait. -/
theorem readyEach_zero (s : State) (k : Nat → Nat) : ReadyEach s 0 k :=
  ⟨by simp, List.nil_prefix⟩

@[simp] theorem waits_settle (cfg : Config) : waits (settle cfg) = 0 := by
  unfold settle
  split <;> rfl

@[simp] theorem seqEvents_settle (cfg : Config) (k : Nat → Nat) :
    seqEvents cfg k (settle cfg) = settleEvents cfg := by
  unfold settle settleEvents
  split <;> rfl

@[simp] theorem waits_replicate_dat (n : Nat) (b : Byte) : waits (List.replicate n (.dat b)) = 0 := by
  rw [← List.map_replicate, waits_map_dat]

@[simp] theorem seqEvents_replicate_dat (cfg : Config) (k : Nat → Nat) (n : Nat) (b : Byte) :
    seqEvents cfg k (List.replicate n (.dat b)) = datsEvents (List.replicate n b) := by
  rw [← List.map_replicate, seqEvents_map_dat]

@[simp] theorem waits_clearPlaneA (cfg : Config) (cmd fill : Byte) :
    waits (clearPlaneA cfg cmd fill) = 0 := by
  simp [clearPlaneA]

theorem seqEvents_clearPlaneA (cfg : Config) (k : Nat → Nat) (cmd fill : Byte) :
    seqEvents cfg k (clearPlaneA cfg cmd fill) = cmdEvents cmd ++ settleEvents cfg
      ++ datsEvents (List.replicate (cfg.rb * cfg.panelH.toNat) fill) ++ settleEvents cfg := by
  simp [clearPlaneA, seqEvents, seqEvents_append]

theorem u8_eq_setWidth (w : Word) : u8 w = w.setWidth 8 :=
  (BitVec.setWidth_eq_extractLsb' (by decide)).symm

/-! ### The rows of variant B -/

@[simp] theorem waits_areaB (cfg : Config) (bx0 bx1 y0 y1 : Int) :
    waits (areaB cfg bx0 bx1 y0 y1) = 0 := rfl

theorem seqEvents_areaB (cfg : Config) (k : Nat → Nat) (bx0 bx1 y0 y1 : Int) :
    seqEvents cfg k (areaB cfg bx0 bx1 y0 y1) = areaEvents cfg bx0 bx1 y0 y1 := by
  simp [areaB, areaEvents, seqEvents, datsEvents]

/-- `PointerB` before its wait (R306). -/
def pointerHead (cfg : Config) (bx y : Int) : List PortOp :=
  [.cmd cfg.cmdB.ramXCounter, .dat (lo8 bx), .cmd cfg.cmdB.ramYCounter, .dat (lo8 y), .dat (hi8 y)]

@[simp] theorem waits_pointerHead (cfg : Config) (bx y : Int) : waits (pointerHead cfg bx y) = 0 := rfl

theorem seqEvents_pointerHead (cfg : Config) (k : Nat → Nat) (bx y : Int) :
    seqEvents cfg k (pointerHead cfg bx y) = pointerEvents cfg bx y := by
  simp [pointerHead, pointerEvents, seqEvents, datsEvents]

theorem rowB_eq (cfg : Config) (bx y : Int) (bytes : List Byte) : rowB cfg bx y bytes =
    pointerHead cfg bx y ++ .wait :: .cmd cfg.cmdB.writeRam :: bytes.map .dat := rfl

@[simp] theorem waits_rowB (cfg : Config) (bx y : Int) (bytes : List Byte) :
    waits (rowB cfg bx y bytes) = 1 := by
  simp [rowB_eq]

theorem seqEvents_rowB (cfg : Config) (k : Nat → Nat) (bx y : Int) (bytes : List Byte) :
    seqEvents cfg k (rowB cfg bx y bytes) = rowEvents cfg bx y (k 0) bytes := by
  simp [rowB_eq, rowEvents, seqEvents, seqEvents_append, seqEvents_pointerHead]

/-- The first `n` rows of a frame write, row `j` at `y j` with its own bytes (R308). -/
def rowsB (cfg : Config) (bx : Int) (y : Nat → Int) (bytes : Nat → List Byte) (n : Nat) : List PortOp :=
  (List.range n).flatMap fun j => rowB cfg bx (y j) (bytes j)

section Rows

variable (cfg : Config) (bx : Int) (y : Nat → Int) (bytes : Nat → List Byte)

theorem rowsB_succ (n : Nat) : rowsB cfg bx y bytes (n + 1) =
    rowsB cfg bx y bytes n ++ rowB cfg bx (y n) (bytes n) := by
  simp [rowsB, List.range_succ]

@[simp] theorem waits_rowsB (n : Nat) : waits (rowsB cfg bx y bytes n) = n := by
  induction n with
  | zero => rfl
  | succ n ih => rw [rowsB_succ, waits_append, ih, waits_rowB]

/-- Row `j` takes the `j`th wait. -/
theorem seqEvents_rowsB (k : Nat → Nat) (n : Nat) : seqEvents cfg k (rowsB cfg bx y bytes n) =
    (List.range n).flatMap fun j => rowEvents cfg bx (y j) (k j) (bytes j) := by
  induction n with
  | zero => rfl
  | succ n ih =>
    rw [rowsB_succ, seqEvents_append, ih, waits_rowsB, seqEvents_rowB, Nat.zero_add,
      List.range_succ, List.flatMap_append, List.flatMap_singleton]

/-- Where the sequence stands at the wait of row `n`: the rows before it and its pointer. -/
theorem exists_rowsB_eq {n m : Nat} (h : n < m) : ∃ rest, rowsB cfg bx y bytes m =
    rowsB cfg bx y bytes n ++ pointerHead cfg bx (y n) ++ .wait :: rest := by
  induction m, h using Nat.le_induction with
  | base => exact ⟨_, by rw [rowsB_succ, rowB_eq, List.append_assoc]⟩
  | succ m _ ih =>
    obtain ⟨rest, hrest⟩ := ih
    exact ⟨rest ++ rowB cfg bx (y m) (bytes m), by simp [rowsB_succ, hrest]⟩

end Rows

theorem intRange_zero (n : Nat) : intRange 0 ((n : Int) - 1) = (List.range n).map Nat.cast := by
  simp [intRange]

/-- A full-panel write up to the end of row `n - 1` (R309, R310). -/
def fullFrameRows (cfg : Config) (byteAt : Int → Int → Byte) (n : Nat) : List PortOp :=
  areaB cfg 0 (cfg.rb - 1) 0 (u16 cfg.panelH - 1)
    ++ rowsB cfg 0 Nat.cast (fun j => (List.range cfg.rb).map fun c : Nat => byteAt c j) n

section FullFrame

variable (cfg : Config) (byteAt : Int → Int → Byte)

theorem fullFrameB_eq : fullFrameB cfg byteAt = fullFrameRows cfg byteAt cfg.panelH.toNat := by
  unfold fullFrameB fullFrameRows rowsB u16
  simp only [intRange_zero, List.flatMap_map, List.map_map, Function.comp_def]

@[simp] theorem waits_fullFrameRows (n : Nat) : waits (fullFrameRows cfg byteAt n) = n := by
  simp [fullFrameRows]

theorem seqEvents_fullFrameRows (k : Nat → Nat) (n : Nat) :
    seqEvents cfg k (fullFrameRows cfg byteAt n) =
      areaEvents cfg 0 (cfg.rb - 1) 0 (u16 cfg.panelH - 1)
        ++ (List.range n).flatMap fun j : Nat =>
            rowEvents cfg 0 j (k j) ((List.range cfg.rb).map fun c : Nat => byteAt c j) := by
  simp [fullFrameRows, seqEvents_append, seqEvents_areaB, seqEvents_rowsB]

theorem exists_fullFrameRows_eq {n m : Nat} (h : n < m) : ∃ rest, fullFrameRows cfg byteAt m =
    fullFrameRows cfg byteAt n ++ pointerHead cfg 0 n ++ .wait :: rest := by
  obtain ⟨rest, hrest⟩ := exists_rowsB_eq cfg 0 Nat.cast
    (fun j => (List.range cfg.rb).map fun c : Nat => byteAt c j) h
  exact ⟨rest, by simp only [fullFrameRows, hrest, List.append_assoc]⟩

end FullFrame

end Sys2Proof.Machine

namespace Sys2Proof.Proofs

open Sys2Proof.Machine

/-- Settles O45: variant A never waits, and variant B waits once a row. -/
theorem clearFrameMemoryCompletes : Obligations.ClearFrameMemoryCompletes := by
  intro s
  have hrun (hs : s.fsm = .idle) : exec .ctlClearFrameMemory s =
      .next (runAs .writing .idle (clearOps s.cfg (s.arg0.setWidth 8)) s) := by
    rw [← u8_eq_setWidth]
    exact exec_of_allowed rfl rfl (List.mem_singleton.mpr hs)
  refine ⟨fun hs => ?guard, fun plane hs hv hplane => ?variantA, fun k rows hs hv hrows => ?variantB⟩
  case guard => exact exec_of_not_allowed rfl rfl (mt List.mem_singleton.mp hs)
  case variantA =>
    have hops : clearOps s.cfg (s.arg0.setWidth 8) = clearA s.cfg (s.arg0.setWidth 8) := by
      rw [clearOps, hv]
    have hwaits : waits (clearA s.cfg (s.arg0.setWidth 8)) = 0 := by simp [clearA]
    rw [hrun hs, hops, runAs_of_readyEach (hwaits ▸ readyEach_zero s fun _ => 0), clearA,
      seqEvents_append, seqEvents_clearPlaneA, seqEvents_clearPlaneA, hplane, hplane, Config.rb]
  case variantB =>
    have hops : clearOps s.cfg (s.arg0.setWidth 8) =
        fullFrameRows s.cfg (fun _ _ => s.arg0.setWidth 8) s.cfg.panelH.toNat := by
      rw [clearOps, hv]
      exact fullFrameB_eq _ _
    have hevents (n : Nat) :
        seqEvents s.cfg k (fullFrameRows s.cfg (fun _ _ => s.arg0.setWidth 8) n) = rows n := by
      rw [seqEvents_fullFrameRows, hrows]
      simp [u16, Config.rb]
    rw [hrun hs, hops]
    refine ⟨fun hready => ?ready, fun n hn hnever => ?timeout⟩
    case ready =>
      rw [runAs_of_readyEach (k := k) (by rwa [waits_fullFrameRows]), hevents]
    case timeout =>
      obtain ⟨rest, hrest⟩ := exists_fullFrameRows_eq s.cfg (fun _ _ => s.arg0.setWidth 8) hn
      rw [hrest, runAs_of_readyThenNever (k := k) (by simpa using hnever), seqEvents_append, hevents,
        seqEvents_pointerHead]

end Sys2Proof.Proofs
end

section
/-! PROOFS. The window clip (42_controller_core.md R233; 43_variant_a.md R270), and the settlement of
O46: the clip is the meet of two intervals of byte columns and two of rows. -/

namespace Sys2Proof.Machine

/-- The window of a request before it is known to be empty or not (R233). -/
def clipWindow (cfg : Config) (x y w h : Int) : Window :=
  { bx0 := x / 8, cb0 := max (x / 8) 0, cb1 := min (x / 8 + w / 8 - 1) (cfg.rb - 1), cy0 := max y 0,
    cy1 := min (y + h - 1) (u16 cfg.panelH - 1), stride := w / 8, y := y }

/-- `Clip` is None exactly where its columns or its rows are an empty interval: a width below 8 or a
height below 1 makes one empty (R233). -/
theorem clip_eq (cfg : Config) (x y w h : Int) : clip cfg x y w h =
    if (clipWindow cfg x y w h).cb0 ≤ (clipWindow cfg x y w h).cb1 ∧
        (clipWindow cfg x y w h).cy0 ≤ (clipWindow cfg x y w h).cy1
      then some (clipWindow cfg x y w h) else none := by
  have hx : floor8 x / 8 = x / 8 := by unfold floor8; omega
  have hw : floor8 w / 8 = w / 8 := by unfold floor8; omega
  have hxw : (floor8 x + floor8 w) / 8 = x / 8 + w / 8 := by unfold floor8; omega
  have hnarrow : floor8 w = 0 ↔ w / 8 = 0 := by unfold floor8; omega
  unfold clip clipWindow
  simp only [hx, hw, hxw, hnarrow]
  rw [← ite_or, ← ite_or, ← ite_not]
  refine if_congr ?_ rfl rfl
  omega

/-- The columns and rows of the window are those of the request that are on the panel. -/
theorem mem_clipWindow_iff (cfg : Config) (x y w h c j : Int) :
    ((clipWindow cfg x y w h).cb0 ≤ c ∧ c ≤ (clipWindow cfg x y w h).cb1 ∧
      (clipWindow cfg x y w h).cy0 ≤ j ∧ j ≤ (clipWindow cfg x y w h).cy1) ↔
    0 ≤ c ∧ c < ((cfg.panelW.toNat + 7) / 8 : Nat) ∧ 0 ≤ j ∧ j < (cfg.panelH.toNat : Int) ∧
      x / 8 ≤ c ∧ c < x / 8 + w / 8 ∧ y ≤ j ∧ j < y + h := by
  simp only [clipWindow, Config.rb, u16]
  omega

theorem lo8_of_range {v : Int} (h0 : 0 ≤ v) (h1 : v < 256) : ((lo8 v).toNat : Int) = v := by
  unfold lo8
  rw [BitVec.toNat_ofInt]
  norm_num
  omega

/-- No column of a window is off the panel. -/
theorem clipWindow_columns (cfg : Config) (x y w h : Int) : 0 ≤ (clipWindow cfg x y w h).cb0 ∧
    8 * (clipWindow cfg x y w h).cb1 < (cfg.panelW.toNat : Int) := by
  simp only [clipWindow, Config.rb]
  omega

end Sys2Proof.Machine

namespace Sys2Proof.Proofs

open Sys2Proof.Machine

/-- Settles O46: a window that is not empty shows its first column and row, and a panel at most 256
pixels wide has 32 byte columns. -/
theorem clipKeepsVisiblePart : Obligations.ClipKeepsVisiblePart := by
  intro cfg x y w h visible hvisible
  have hmem (c j : Int) := (mem_clipWindow_iff cfg x y w h c j).trans (hvisible c j).symm
  refine ⟨⟨fun hnone c j hv => ?empty, fun hno => ?none⟩, fun win hwin => ?some⟩
  case empty =>
    rw [clip_eq, ite_eq_right_iff] at hnone
    obtain ⟨hc0, hc1, hj0, hj1⟩ := (hmem c j).mpr hv
    exact nomatch hnone ⟨hc0.trans hc1, hj0.trans hj1⟩
  case none =>
    rw [clip_eq, if_neg]
    exact fun ⟨hc, hj⟩ => hno _ _ ((hmem _ _).mp ⟨le_rfl, hc, le_rfl, hj⟩)
  case some =>
    rw [clip_eq, Option.ite_none_right_eq_some] at hwin
    obtain ⟨⟨hc, hj⟩, hwin⟩ := hwin
    cases hwin
    refine ⟨hmem, fun _ _ _ => rfl, fun hwf ha => ?_⟩
    have hpanel := hwf ha
    obtain ⟨h0, h1⟩ := clipWindow_columns cfg x y w h
    exact ⟨lo8_of_range (by omega) (by omega), lo8_of_range (by omega) (by omega)⟩

end Sys2Proof.Proofs
end

section
/-! PROOFS. The exact events of the partial windows of variant A (43_variant_a.md R270, R272 to R274),
and the settlement of O47: a partial window never waits, and both operations send the same head. -/

namespace Sys2Proof.Machine

/-! ### A plane of a window -/

theorem planeA_eq_map_dat (m : Memory) (win : Window) (buf : Int) (has : Bool) :
    planeA m win buf has = ((intRange win.cy0 win.cy1).flatMap fun j =>
      (intRange win.cb0 win.cb1).map fun c =>
        if has then memRead m (win.src buf c j) else 0x00).map .dat := by
  simp only [planeA, List.map_flatMap, List.map_map, Function.comp_def]

@[simp] theorem waits_planeA (m : Memory) (win : Window) (buf : Int) (has : Bool) :
    waits (planeA m win buf has) = 0 := by
  rw [planeA_eq_map_dat, waits_map_dat]

/-- The rows of a plane follow each other with nothing between them (R274). -/
theorem seqEvents_planeA (cfg : Config) (k : Nat → Nat) (m : Memory) (win : Window) (buf : Int)
    (has : Bool) : seqEvents cfg k (planeA m win buf has) =
      (intRange win.cy0 win.cy1).flatMap fun j => datsEvents ((intRange win.cb0 win.cb1).map fun c =>
        if has then memRead m (win.src buf c j) else 0x00) := by
  rw [planeA_eq_map_dat, seqEvents_map_dat, datsEvents, List.flatMap_assoc]
  rfl

/-! ### `PartialA` -/

/-- `PartialA` up to the end of its first plane (R274). -/
def partialHead (cfg : Config) (m : Memory) (win : Window) (buf : Int) (has : Bool) : List PortOp :=
  .cmd cfg.cmdA.partialIn :: .cmd cfg.cmdA.partialWindow ::
    ([lo8 (win.cb0 * 8), lo8 (win.cb1 * 8 + 7), hi8 win.cy0, lo8 win.cy0, hi8 win.cy1, lo8 win.cy1,
        cfg.dataA.ptScan].map .dat
      ++ settle cfg ++ .cmd cfg.cmdA.dataStartTransmission1 :: planeA m win buf has ++ settle cfg)

section PartialWindow

variable (cfg : Config) (m : Memory) (win : Window) (buf bufR : Int) (has hasR : Bool)

@[simp] theorem waits_partialHead : waits (partialHead cfg m win buf has) = 0 := by
  simp [partialHead]

theorem partialA_black : partialA cfg m win buf has none =
    partialHead cfg m win buf has ++ [.cmd cfg.cmdA.partialOut] := by
  simp [partialA, partialHead]

theorem partialA_red : partialA cfg m win buf has (some (bufR, hasR)) =
    partialHead cfg m win buf has ++ .cmd cfg.cmdA.dataStartTransmission2 ::
      (planeA m win bufR hasR ++ settle cfg ++ [.cmd cfg.cmdA.partialOut]) := by
  simp [partialA, partialHead]

/-- `PartialA` has no wait, with or without a second plane (R274). -/
@[simp] theorem waits_partialA (red : Option (Int × Bool)) :
    waits (partialA cfg m win buf has red) = 0 := by
  match red with
  | none => simp [partialA_black]
  | some (_, _) => simp [partialA_red]

end PartialWindow

section RunPartialA

variable {s : State} (buf : Int) (has : Bool) (red : Option (Int × Bool))

theorem runPartialA_of_clip_none
    (h : clip s.cfg (s16 s.arg2) (s16 s.arg3) (s16 s.arg4) (s16 s.arg5) = none) :
    runPartialA buf has red s = finish .ok s := by
  rw [runPartialA, h]

/-- The panel is asked nothing, so the operation ends OK whatever it answers (R274). -/
theorem runPartialA_of_clip_some {win : Window}
    (h : clip s.cfg (s16 s.arg2) (s16 s.arg3) (s16 s.arg4) (s16 s.arg5) = some win) :
    runPartialA buf has red s = s.ended .partialMode .idle .ok
      (seqEvents s.cfg (fun _ => 0) (partialA s.cfg s.mem win buf has red)) := by
  rw [runPartialA, h]
  exact runAs_of_readyEach (waits_partialA .. ▸ readyEach_zero s _)

end RunPartialA

end Sys2Proof.Machine

namespace Sys2Proof.Proofs

open Sys2Proof.Machine

/-- Settles O47: the events of the two operations agree up to the end of the first plane. -/
theorem partialWindowsComplete : Obligations.PartialWindowsComplete := by
  intro s black red req hv hreq
  have hrun (hs : s.fsm = .idle) : exec (.aSetPartialWindow black red) s =
        .next (runPartialA s.arg0.toNat black (some (s.arg1.toNat, red)) s) ∧
      exec (.aSetPartialWindowBlack black) s = .next (runPartialA s.arg0.toNat black none s) :=
    ⟨exec_of_allowed rfl (hv ▸ rfl) (List.mem_singleton.mpr hs),
      exec_of_allowed rfl (hv ▸ rfl) (List.mem_singleton.mpr hs)⟩
  refine ⟨fun hs => ?guard, fun hs hnone => ?nothing,
    fun win plane head hs hsome hplane hhead => ?window⟩
  case guard =>
    have hmem : s.fsm ∉ [Fsm.idle] := mt List.mem_singleton.mp hs
    exact ⟨exec_of_not_allowed rfl (hv ▸ rfl) hmem, exec_of_not_allowed rfl (hv ▸ rfl) hmem⟩
  case nothing =>
    obtain ⟨hred, hblack⟩ := hrun hs
    have hclip := hreq.symm.trans hnone
    rw [hred, hblack, runPartialA_of_clip_none _ _ _ hclip, runPartialA_of_clip_none _ _ _ hclip]
    exact ⟨rfl, rfl⟩
  case window =>
    obtain ⟨hred, hblack⟩ := hrun hs
    have hclip := hreq.symm.trans hsome
    have hheadEvents (k : Nat → Nat) :
        seqEvents s.cfg k (partialHead s.cfg s.mem win s.arg0.toNat black) = head := by
      rw [hhead, hplane]
      simp [partialHead, seqEvents, seqEvents_append, seqEvents_planeA, datsEvents]
    rw [hred, hblack, runPartialA_of_clip_some _ _ _ hclip, runPartialA_of_clip_some _ _ _ hclip,
      partialA_red, partialA_black, seqEvents_append, seqEvents_append, hheadEvents, hplane]
    constructor
    · simp [seqEvents, seqEvents_append, seqEvents_planeA]
    · simp [seqEvents]

end Sys2Proof.Proofs
end

section
/-! PROOFS. The waveform tables of variant B (44_variant_b.md R301 to R303), and the settlement of O41
and O48: neither InitB nor the upload waits, so nothing the panel answers reaches either operation. -/

namespace Sys2Proof.Machine

/-- The table of each LUT select (R302). -/
theorem lutFor_selects (sel : LutSel) (s : State) :
    (sel = .presetFull → lutFor sel s = s.cfg.lutFull) ∧
      (sel = .presetPartial → lutFor sel s = s.cfg.lutPartial) ∧
      (sel = .custom → ∀ (k : Nat) (_ : k < 30),
        (lutFor sel s)[k] = memRead s.mem ((s.arg0.toNat : Int) + k)) := by
  cases sel with
  | presetFull => exact ⟨fun _ => rfl, nofun, nofun⟩
  | presetPartial => exact ⟨nofun, fun _ => rfl, nofun⟩
  | custom => exact ⟨nofun, nofun, fun _ _ _ => Vector.getElem_ofFn _⟩

@[simp] theorem lutFor_setFsm (sel : LutSel) (f : Fsm) (s : State) :
    lutFor sel (setFsm f s) = lutFor sel s := rfl

@[simp] theorem lutFor_observed (sel : LutSel) (d : Fsm) (evs : List Event) (s : State) :
    lutFor sel (s.observed d evs) = lutFor sel s := rfl

@[simp] theorem waits_initB (cfg : Config) : waits (initB cfg) = 0 := by
  simp [initB]

theorem seqEvents_initB (cfg : Config) (k : Nat → Nat) : seqEvents cfg k (initB cfg) =
    cmdEvents cfg.cmdB.driverOutputControl
      ++ datsEvents [lo8 (cfg.panelH.toNat - 1), hi8 (cfg.panelH.toNat - 1), cfg.dataB.scanFlags]
      ++ cmdEvents cfg.cmdB.boosterSoftStartControl ++ datsEvents cfg.dataB.booster
      ++ cmdEvents cfg.cmdB.writeVcomRegister ++ datsEvents [cfg.dataB.vcom]
      ++ cmdEvents cfg.cmdB.dummyLinePeriod ++ datsEvents [cfg.dataB.dummy]
      ++ cmdEvents cfg.cmdB.gateTime ++ datsEvents [cfg.dataB.gate]
      ++ cmdEvents cfg.cmdB.dataEntryMode ++ datsEvents [cfg.dataB.entry] := by
  simp [initB, seqEvents, seqEvents_append, datsEvents, u16]

/-- InitB runs to its end whatever the panel answers, and its upload follows (R301). -/
theorem runInitB_eq (sel : LutSel) (s : State) : runInitB sel s =
    setLutB sel (s.observed s.fsm (seqEvents s.cfg (fun _ => 0) (initB s.cfg))) := by
  unfold runInitB
  rw [runPort_readyEach _ _ _ (waits_initB s.cfg ▸ readyEach_zero s _)]
  rfl

/-- An upload that ends an operation whose events so far are `evs`, STATE being `f` (R302). -/
theorem endRun_setLutB (sel : LutSel) (f after : Fsm) (s : State) (evs : List Event) :
    endRun after (setLutB sel ((setFsm f s).observed f evs)) = { s.ended f after .ok
      (evs ++ cmdEvents s.cfg.cmdB.writeLutRegister ++ datsEvents (lutFor sel s).toList) with
        lut := lutFor sel s } := by
  have hset : setLut (lutFor sel s) ((setFsm f s).observed f evs) =
      (setLut (lutFor sel s) (setFsm f s)).observed f evs := rfl
  rw [setLutB_eq, lutFor_observed, lutFor_setFsm, hset, observed_fsm, setFsm_fsm, observed_append,
    List.append_assoc]
  rfl

end Sys2Proof.Machine

namespace Sys2Proof.Proofs

open Sys2Proof.Machine

/-- Settles O41: the handshake, the reset pulse and InitB are the events before the upload. -/
theorem initBCompletes : Obligations.InitBCompletes := by
  intro s sel hv hs hinit
  obtain ⟨hfull, hpartial, hcustom⟩ := lutFor_selects sel s
  refine ⟨lutFor sel s, hfull, hpartial, hcustom, ?_⟩
  have hmem : s.fsm ∈ [Fsm.uninitialized, .idle] := by simpa using hs
  rw [exec_of_allowed (i := .ctlInitB sel) rfl (hv ▸ rfl) hmem, controllerBody,
    runInit_of_ok (runInitB sel) hinit, runInitB_eq, observed_fsm, setFsm_fsm, observed_append,
    endRun_setLutB, observed_cfg, setFsm_cfg, seqEvents_initB]
  simp only [List.append_assoc]

/-- Settles O48: the upload is all the operation does. -/
theorem setLutUploads : Obligations.SetLutUploads := by
  intro s sel hv
  refine ⟨fun hs => ?guard, fun hs => ?upload⟩
  case guard => exact exec_of_not_allowed rfl (hv ▸ rfl) (mt List.mem_singleton.mp hs)
  case upload =>
    obtain ⟨hfull, hpartial, hcustom⟩ := lutFor_selects sel s
    refine ⟨lutFor sel s, hfull, hpartial, hcustom, ?_⟩
    rw [exec_of_allowed (i := .bSetLut sel) rfl (hv ▸ rfl) (List.mem_singleton.mpr hs)]
    have hend := endRun_setLutB sel s.fsm .idle s []
    rw [observed_nil, setFsm_self, List.nil_append, hs] at hend
    exact congrArg Host.Outcome.next hend

end Sys2Proof.Proofs
end

section
/-! PROOFS. The RAM window and the RAM pointer of variant B (44_variant_b.md R304 to R307), and the
settlement of O49 and O50: both check the panel before the first event. -/

namespace Sys2Proof.Machine

theorem onPanel_iff (cfg : Config) (x y : Int) : onPanel cfg x y = true ↔
    0 ≤ x ∧ x < (cfg.panelW.toNat : Int) ∧ 0 ≤ y ∧ y < (cfg.panelH.toNat : Int) := by
  unfold onPanel
  exact decide_eq_true_iff

/-- A run in the state the operation starts in. -/
theorem endRun_runPort_eq_runAs {s : State} {f : Fsm} (hs : s.fsm = f) (after : Fsm)
    (ops : List PortOp) : endRun after (runPort ops s) = runAs f after ops s := by
  rw [runAs, ← hs, setFsm_self]

section Idle

variable {s : State} (hs : s.fsm = .idle)
include hs

/-- An area needs nothing of the panel (R305). -/
theorem runSetMemoryArea_of_idle : runSetMemoryArea s =
    if onPanel s.cfg s.arg0.toInt s.arg1.toInt = true ∧ onPanel s.cfg s.arg2.toInt s.arg3.toInt = true
      then s.ended .idle .idle .ok
        (areaEvents s.cfg (s.arg0.toInt / 8) (s.arg2.toInt / 8) s.arg1.toInt s.arg3.toInt)
      else s.failed .invalidGeometry := by
  unfold runSetMemoryArea
  refine if_congr Bool.and_eq_true_iff ?_ rfl
  rw [endRun_runPort_eq_runAs hs, runAs_of_readyEach (waits_areaB .. ▸ readyEach_zero s fun _ => 0),
    seqEvents_areaB]
  rfl

theorem runSetMemoryPointer_of_onPanel (hp : onPanel s.cfg s.arg0.toInt s.arg1.toInt = true) :
    runSetMemoryPointer s = runAs .idle .idle
      (pointerHead s.cfg (s.arg0.toInt / 8) s.arg1.toInt ++ [.wait]) s := by
  rw [← endRun_runPort_eq_runAs hs]
  exact if_pos hp

end Idle

theorem runSetMemoryPointer_of_not_onPanel {s : State}
    (hp : ¬ onPanel s.cfg s.arg0.toInt s.arg1.toInt = true) :
    runSetMemoryPointer s = s.failed .invalidGeometry := if_neg hp

end Sys2Proof.Machine

namespace Sys2Proof.Proofs

open Sys2Proof.Machine

/-- Settles O49. -/
theorem setMemoryAreaChecksBounds : Obligations.SetMemoryAreaChecksBounds := by
  rintro s _ _ _ _ _ _ hv rfl rfl rfl rfl rfl rfl
  by_cases hs : s.fsm = .idle
  case neg =>
    rw [if_pos hs]
    exact exec_of_not_allowed rfl (hv ▸ rfl) (mt List.mem_singleton.mp hs)
  case pos =>
    rw [if_neg (not_not_intro hs),
      exec_of_allowed (i := .bSetMemoryArea) rfl (hv ▸ rfl) (List.mem_singleton.mpr hs),
      controllerBody, runSetMemoryArea_of_idle hs]
    refine congrArg Host.Outcome.next (if_congr ?_ rfl rfl)
    rw [onPanel_iff, onPanel_iff]
    tauto

/-- Settles O50: the one wait is the last element of the sequence. -/
theorem setMemoryPointerWaits : Obligations.SetMemoryPointerWaits := by
  rintro s _ _ _ _ hv rfl rfl rfl rfl
  simp only [← onPanel_iff]
  have hrun (hs : s.fsm = .idle) : exec .bSetMemoryPointer s = .next (runSetMemoryPointer s) :=
    exec_of_allowed rfl (hv ▸ rfl) (List.mem_singleton.mpr hs)
  refine ⟨fun hs => ?guard, fun hs hp => ?off, fun hs hp => ⟨fun k hk => ?ready, fun hn => ?timeout⟩⟩
  case guard => exact exec_of_not_allowed rfl (hv ▸ rfl) (mt List.mem_singleton.mp hs)
  case off => rw [hrun hs, runSetMemoryPointer_of_not_onPanel hp]
  case ready =>
    rw [hrun hs, runSetMemoryPointer_of_onPanel hs hp,
      runAs_one_wait_of_readyAfter (waits_pointerHead ..) waits_nil hk, seqEvents_pointerHead,
      seqEvents, List.append_nil]
  case timeout =>
    rw [hrun hs, runSetMemoryPointer_of_onPanel hs hp,
      runAs_of_neverReady (waits_pointerHead ..) hn fun _ => 0, seqEvents_pointerHead]

end Sys2Proof.Proofs
end

section
/-! PROOFS. The frame writes of variant B (42_controller_core.md R233; 44_variant_b.md R308, R309, R385),
and the settlement of O51 to O53: a frame write is an area and then rows, each with one wait. -/

namespace Sys2Proof.Machine

theorem flatMap_intRange {α : Type} (a b : Int) (f : Int → List α) : (intRange a b).flatMap f =
    (List.range (b - a + 1).toNat).flatMap fun j : Nat => f (a + j) := by
  rw [intRange, List.flatMap_map]

/-- The bytes of row `j` of a window, read from the buffer at `buf` (R308). -/
def Window.rowBytes (win : Window) (m : Memory) (buf j : Int) : List Byte :=
  (intRange win.cb0 win.cb1).map fun c => memRead m (win.src buf c j)

section FrameAt

variable (cfg : Config) (m : Memory) (win : Window) (buf : Int)

theorem frameAtB_eq : frameAtB cfg m win buf = areaB cfg win.cb0 win.cb1 win.cy0 win.cy1
    ++ rowsB cfg win.cb0 (fun j => win.cy0 + j) (fun j => win.rowBytes m buf (win.cy0 + j))
      (win.cy1 - win.cy0 + 1).toNat := by
  rw [frameAtB, flatMap_intRange]
  rfl

/-- A window has one wait for each of its rows (R385). -/
@[simp] theorem waits_frameAtB :
    waits (frameAtB cfg m win buf) = (win.cy1 - win.cy0 + 1).toNat := by
  rw [frameAtB_eq, waits_append, waits_areaB, waits_rowsB, Nat.zero_add]

theorem seqEvents_frameAtB (k : Nat → Nat) : seqEvents cfg k (frameAtB cfg m win buf) =
    areaEvents cfg win.cb0 win.cb1 win.cy0 win.cy1
      ++ (intRange win.cy0 win.cy1).flatMap fun j =>
          rowEvents cfg win.cb0 j (k (j - win.cy0).toNat) (win.rowBytes m buf j) := by
  rw [frameAtB_eq, seqEvents_append, seqEvents_areaB, seqEvents_rowsB, flatMap_intRange]
  simp only [waits_areaB, add_zero, add_sub_cancel_left, Int.toNat_natCast]

end FrameAt

section RunSetFrameMemoryAt

variable {s : State}

theorem runSetFrameMemoryAt_of_clip_none
    (h : clip s.cfg (s16 s.arg1) (s16 s.arg2) (s16 s.arg3) (s16 s.arg4) = none) :
    runSetFrameMemoryAt s = finish .ok s := by
  rw [runSetFrameMemoryAt, h]

theorem runSetFrameMemoryAt_of_clip_some {win : Window}
    (h : clip s.cfg (s16 s.arg1) (s16 s.arg2) (s16 s.arg3) (s16 s.arg4) = some win) :
    runSetFrameMemoryAt s = runAs .writing .idle (frameAtB s.cfg s.mem win (u16 s.arg0)) s := by
  rw [runSetFrameMemoryAt, h]

end RunSetFrameMemoryAt

/-- The window of a request for the whole panel (R309). -/
def wholePanel (cfg : Config) : Window :=
  { bx0 := 0, cb0 := 0, cb1 := cfg.rb - 1, cy0 := 0, cy1 := u16 cfg.panelH - 1, stride := cfg.rb,
    y := 0 }

/-- The clip takes nothing from a request for the whole of a panel that has a pixel. -/
theorem clip_wholePanel {cfg : Config} (hw : 0 < cfg.panelW.toNat) (hh : 0 < cfg.panelH.toNat) :
    clip cfg 0 0 (8 * (cfg.rb : Int)) (cfg.panelH.toNat : Int) = some (wholePanel cfg) := by
  have hwin : clipWindow cfg 0 0 (8 * (cfg.rb : Int)) (cfg.panelH.toNat : Int) = wholePanel cfg := by
    simp [clipWindow, wholePanel, u16]
  rw [clip_eq, hwin, if_pos]
  simp only [wholePanel, Config.rb, u16]
  omega

theorem frameAtB_wholePanel (cfg : Config) (m : Memory) (buf : Int) :
    frameAtB cfg m (wholePanel cfg) buf = frameB cfg m buf := by
  simp [frameAtB, frameB, fullFrameB, wholePanel, Window.src]

end Sys2Proof.Machine

namespace Sys2Proof.Proofs

open Sys2Proof.Machine

/-- Settles O51: the `j`th visible row takes the `j`th wait. -/
theorem setFrameMemoryAtCompletes : Obligations.SetFrameMemoryAtCompletes := by
  intro s hv hs req hreq
  have hrun : exec .bSetFrameMemoryAt s = .next (runSetFrameMemoryAt s) :=
    exec_of_allowed rfl (hv ▸ rfl) (List.mem_singleton.mpr hs)
  refine ⟨fun hnone => ?nothing, fun win k hsome hready => ?window⟩
  case nothing =>
    rw [hrun, runSetFrameMemoryAt_of_clip_none (hreq.symm.trans hnone)]
    rfl
  case window =>
    rw [hrun, runSetFrameMemoryAt_of_clip_some (hreq.symm.trans hsome),
      runAs_of_readyEach (k := k) (by rwa [waits_frameAtB]), seqEvents_frameAtB]
    rfl

/-- Settles O52: row `j` takes wait `j`. -/
theorem setFrameMemoryCompletes : Obligations.SetFrameMemoryCompletes := by
  rintro s _ k hv hs rfl hready
  have hrun : exec .bSetFrameMemory s =
      .next (runAs .writing .idle (frameB s.cfg s.mem s.arg0.toNat) s) :=
    exec_of_allowed rfl (hv ▸ rfl) (List.mem_singleton.mpr hs)
  rw [hrun, frameB, fullFrameB_eq, runAs_of_readyEach (k := k) (by rwa [waits_fullFrameRows]),
    seqEvents_fullFrameRows]
  -- The statement lifts its list of columns to the integers as a monadic `do`.
  simp only [bind_pure_comp, List.map_eq_map, List.map_map]
  rfl

/-- Settles O53: the two operations have one guard, and the clip of the request is the whole panel. -/
theorem fullFrameIsWholeWindow : Obligations.FullFrameIsWholeWindow := by
  rintro s _ hv rfl hw hh h1 h2 h3 h4
  have hclip : clip s.cfg (s16 s.arg1) (s16 s.arg2) (s16 s.arg3) (s16 s.arg4) =
      some (wholePanel s.cfg) := by
    simp only [s16, h1, h2, h3, h4]
    exact clip_wholePanel hw hh
  have hbody : controllerBody .bSetFrameMemoryAt s = controllerBody .bSetFrameMemory s := by
    rw [controllerBody, runSetFrameMemoryAt_of_clip_some hclip, frameAtB_wholePanel, controllerBody]
  rw [exec_eq_guarded (i := .bSetFrameMemoryAt) rfl, exec_eq_guarded (i := .bSetFrameMemory) rfl,
    guarded, guarded, hbody]
  rfl

end Sys2Proof.Proofs
end

section
/-! PROOFS. How an operation ends (60_exceptions.md R340 to R349; 42_controller_core.md R225, R232, R236),
and the settlement of O15 to O17, O37, O42 and O54: each status code comes from one place, so an
operation that ends with it ends in that place's way. -/

namespace Sys2Proof.Machine

/-! ### A wait that times out -/

/-- `n` not-ready samples, each with its delay, and one more (R225). -/
def notReadySamples (cfg : Config) (n : Nat) : List Event :=
  (List.replicate n [Event.busy (!cfg.readyLevel), Event.delay cfg.pollMs]).flatten
    ++ [.busy (!cfg.readyLevel)]

theorem timeoutEvents_eq (cfg : Config) :
    timeoutEvents cfg = notReadySamples cfg cfg.waitMaxPolls := rfl

theorem notReadySamples_zero (cfg : Config) : notReadySamples cfg 0 = [.busy (!cfg.readyLevel)] := rfl

theorem notReadySamples_succ (cfg : Config) (n : Nat) : notReadySamples cfg (n + 1) =
    [.busy (!cfg.readyLevel)] ++ [.delay cfg.pollMs] ++ notReadySamples cfg n := by
  simp [notReadySamples, List.replicate_succ]

theorem delayTotal_append (e f : List Event) :
    delayTotal (e ++ f) = delayTotal e + delayTotal f := by
  simp [delayTotal]

theorem delayTotal_notReadySamples (cfg : Config) (n : Nat) :
    delayTotal (notReadySamples cfg n) = n * cfg.pollMs := by
  induction n with
  | zero => simp [notReadySamples_zero, delayTotal]
  | succ n ih =>
    rw [notReadySamples_succ, delayTotal_append, ih, Nat.succ_mul, Nat.add_comm]
    simp [delayTotal]

/-- A wait that times out has had a not-ready answer to every sample. -/
theorem pollLoop_ran_of_false : ∀ (n : Nat) (s : State), (pollLoop n s).1 = false →
    Ran s (pollLoop n s).2 (notReadySamples s.cfg n) := by
  intro n
  induction n with
  | zero =>
    intro s h
    have hl : (drawBusy s).1 = !s.cfg.readyLevel := Bool.eq_not.mpr (beq_eq_false_iff_ne.mp h)
    rw [notReadySamples_zero, ← hl]
    exact drawBusy_sample_ran s
  | succ n ih =>
    intro s h
    have hne : (drawBusy s).1 ≠ s.cfg.readyLevel := fun he => by simp [pollLoop, he] at h
    have hstart := (drawBusy_sample_ran s).trans (delay_ran s.cfg.pollMs _)
    simp only [pollLoop, if_neg hne] at h ⊢
    have hrest := ih _ h
    rw [hstart.cfg] at hrest
    rw [notReadySamples_succ, ← Bool.eq_not.mpr hne]
    exact hstart.trans hrest

/-- `t` is `s` after events whose last are a timed-out wait. -/
abbrev TimedOut (s t : State) : Prop := ∃ before, Ran s t (before ++ timeoutEvents s.cfg)

theorem Ran.timedOut {s t u : State} {evs : List Event} (h : Ran s t evs) (k : TimedOut t u) :
    TimedOut s u := by
  obtain ⟨before, hb⟩ := k
  refine ⟨evs ++ before, ?_⟩
  rw [List.append_assoc, ← h.cfg]
  exact h.trans hb

/-- A byte sequence that does not reach its end stopped at a wait that timed out (R232). -/
theorem runPort_timedOut : ∀ (ops : List PortOp) (s : State), (runPort ops s).1 = false →
    TimedOut s (runPort ops s).2
  | [], _, h => nomatch h
  | .cmd b :: r, s, h => (sendCommand_ran b s).timedOut (runPort_timedOut r _ h)
  | .dat b :: r, s, h => (sendData_ran b s).timedOut (runPort_timedOut r _ h)
  | .delay ms :: r, s, h => (delay_ran ms s).timedOut (runPort_timedOut r _ h)
  | .wait :: r, s, h => by
    obtain ⟨evs, hwait, -⟩ := waitIdle_ran s
    simp only [runPort] at h ⊢
    split at h
    · next hw =>
      rw [if_pos hw]
      exact hwait.timedOut (runPort_timedOut r _ h)
    · next hw =>
      rw [if_neg hw]
      exact ⟨[], pollLoop_ran_of_false _ s (Bool.eq_false_of_not_eq_true hw)⟩

theorem runPort_of_no_wait {ops : List PortOp} (h : waits ops = 0) (s : State) :
    (runPort ops s).1 = true := by
  rw [runPort_readyEach ops (fun _ => 0) s (h ▸ readyEach_zero s _)]

/-! ### The ways an operation can end -/

/-- How operation `i` can end from `s`, one constructor for each status code (R341): where the code comes
from and what it leaves. -/
inductive Ending (i : Instr) (s : State) : State → Prop
  | ok {t : State} (hc : t.code = .ok) : Ending i s t
  /-- the block does not have the operation (R342) -/
  | illegalOp (h : i.WellFormed s.cfg.variant = false) : Ending i s (s.failed .illegalOp)
  /-- STATE is not among the allowed ones (R344) -/
  | invalidState {allowed : List Fsm} (hi : i.allowed = some allowed) (hs : s.fsm ∉ allowed) :
      Ending i s (s.failed .invalidState)
  | invalidGeometry (hi : i.mayMisfit = true) : Ending i s (s.failed .invalidGeometry)
  /-- a wait timed out and the run stopped there (R347) -/
  | hardwareFault {during : Fsm} {t : State} (hi : i.mayFault s.cfg.variant = true)
      (ht : TimedOut (setFsm during s) t) :
      Ending i s (raise .hardwareFault (setFsm .uninitialized t))
  /-- the handshake failed and CTL_INIT stopped there (R348) -/
  | hardwareInitFailure {t : State} (hi : i.isInit = true)
      (ht : Ran (setFsm .uninitialized s) t [.hwInit false]) :
      Ending i s (raise .hardwareInitFailure t)

section Ending

variable {i : Instr} {s : State}

/-- A run of the panel port that ends the operation: only an operation that waits can time out. -/
theorem Ran.endRun_ending {during after : Fsm} {t : State} {evs : List Event}
    (h : Ran (setFsm during s) t evs) {ops : List PortOp}
    (hops : waits ops = 0 ∨ i.mayFault s.cfg.variant = true) :
    Ending i s (endRun after (runPort ops t)) := by
  unfold endRun
  split
  · exact .ok rfl
  · next hr =>
    rcases hops with hw | hi
    · exact absurd (runPort_of_no_wait hw t) hr
    · exact .hardwareFault hi (h.timedOut (runPort_timedOut ops t (Bool.eq_false_of_not_eq_true hr)))

theorem runAs_ending {during after : Fsm} {ops : List PortOp}
    (hops : waits ops = 0 ∨ i.mayFault s.cfg.variant = true) :
    Ending i s (runAs during after ops s) :=
  (Ran.refl (setFsm during s)).endRun_ending hops

/-- A table upload never waits. -/
theorem endRun_setLutB_ending (sel : LutSel) (after : Fsm) (t : State) :
    Ending i s (endRun after (setLutB sel t)) := by
  rw [setLutB_eq]
  exact .ok rfl

/-- CTL_INIT stops at a failed handshake, or goes on to its variant's own init. -/
theorem runInit_ending {body : State → Bool × State} (hi : i.isInit = true)
    (hbody : ∀ t evs, Ran (setFsm .uninitialized s) t evs → Ending i s (endRun .idle (body t))) :
    Ending i s (runInit body s) := by
  have hshake := hwInit_ran (setFsm .uninitialized s)
  unfold runInit
  dsimp only
  split
  · exact hbody _ _ (hshake.trans (resetPulse_ran _))
  · next hr =>
    rw [Bool.eq_false_of_not_eq_true hr] at hshake
    exact .hardwareInitFailure hi hshake

theorem runPartialA_ending (buf : Int) (has : Bool) (red : Option (Int × Bool)) :
    Ending i s (runPartialA buf has red s) := by
  unfold runPartialA
  split
  · exact .ok rfl
  · exact runAs_ending (.inl (waits_partialA ..))

/-- The waits of the clear are variant B's (R277, R310). -/
theorem clearOps_waits (cfg : Config) (fill : Byte) :
    waits (clearOps cfg fill) = 0 ∨ Instr.ctlClearFrameMemory.mayFault cfg.variant = true := by
  unfold clearOps
  cases cfg.variant with
  | a => exact .inl (by simp [clearA])
  | b => exact .inr rfl

theorem controllerBody_ending {allowed : List Fsm} (hi : i.allowed = some allowed) :
    Ending i s (controllerBody i s) := by
  cases i with
  | ctlReset => exact .ok rfl
  | ctlInitA => exact runInit_ending rfl fun _ _ h => h.endRun_ending (.inr rfl)
  | ctlInitB sel =>
    refine runInit_ending rfl fun t _ _ => ?_
    rw [runInitB_eq]
    exact endRun_setLutB_ending sel _ _
  | ctlDisplayFrame | ctlSleep | bSetFrameMemory => exact runAs_ending (.inr rfl)
  | ctlClearFrameMemory => exact runAs_ending (clearOps_waits _ _)
  | aSetPartialWindow | aSetPartialWindowBlack => exact runPartialA_ending _ _ _
  | bSetLut sel => exact endRun_setLutB_ending sel _ _
  | bSetMemoryArea =>
    simp only [controllerBody, runSetMemoryArea]
    split
    · exact (Ran.refl (setFsm s.fsm s)).endRun_ending (.inl (waits_areaB ..))
    · exact .invalidGeometry rfl
  | bSetMemoryPointer =>
    simp only [controllerBody, runSetMemoryPointer]
    split
    · exact (Ran.refl (setFsm s.fsm s)).endRun_ending (.inr rfl)
    · exact .invalidGeometry rfl
  | bSetFrameMemoryAt =>
    simp only [controllerBody, runSetFrameMemoryAt]
    split
    · exact .ok rfl
    · exact runAs_ending (.inr rfl)
  | _ => cases hi

/-- Every operation ends in one of the ways of `Ending`. -/
theorem exec_ending {t : State} (h : exec i s = .next t) : Ending i s t := by
  cases hi : i.allowed with
  | none =>
    rcases exec_ok_or_misfit hi h with hok | ⟨rfl, hmem⟩
    · exact .ok hok
    · have hall : ∀ j ∈ [Instr.fbInit, .fbSetWidth, .fbSetHeight], j.mayMisfit = true := by decide
      exact .invalidGeometry (hall i hmem)
  | some allowed =>
    by_cases hwf : i.WellFormed s.cfg.variant = true
    · by_cases hs : s.fsm ∈ allowed
      · cases (exec_of_allowed hi hwf hs).symm.trans h
        exact controllerBody_ending hi
      · cases (exec_of_not_allowed hi hwf hs).symm.trans h
        exact .invalidState hi hs
    · rw [exec_eq_guarded hi, if_neg hwf] at h
      cases h
      exact .illegalOp (Bool.eq_false_of_not_eq_true hwf)

/-- `InvalidState` comes from the guard alone (R344). -/
theorem Ending.not_mem_allowed {t : State} (h : Ending i s t) (hc : t.code = .invalidState) :
    ∃ allowed, i.allowed = some allowed ∧ s.fsm ∉ allowed := by
  cases h with
  | ok hok => cases hok.symm.trans hc
  | invalidState hi hs => exact ⟨_, hi, hs⟩
  | illegalOp | invalidGeometry | hardwareFault | hardwareInitFailure => cases hc

end Ending

/-! ### The allowed states -/

/-- The states a controller operation is allowed in (R229, R344). -/
theorem mem_allowed_iff {i : Instr} {allowed : List Fsm} (hi : i.allowed = some allowed) (f : Fsm) :
    f ∈ allowed ↔ f = .idle ∨ (f = .sleeping ∧ i = .ctlReset) ∨
      (f = .uninitialized ∧ (i = .ctlReset ∨ i.isInit = true)) := by
  cases i with
  | ctlReset | ctlInitA | ctlInitB | ctlDisplayFrame | ctlSleep | ctlClearFrameMemory
  | aSetPartialWindow | aSetPartialWindowBlack | bSetLut | bSetMemoryArea | bSetMemoryPointer
  | bSetFrameMemoryAt | bSetFrameMemory =>
    cases hi
    cases f <;> simp [Instr.isInit]
  | _ => cases hi

/-- CTL_RESET is allowed in every stable state (R228, R344). -/
theorem mem_allowed_ctlReset {allowed : List Fsm} (hi : Instr.ctlReset.allowed = some allowed) {f : Fsm}
    (hf : f.stable = true) : f ∈ allowed := by
  rw [mem_allowed_iff hi]
  cases f <;> simp_all [Fsm.stable]

/-! ### The handshake -/

/-- CTL_INIT whose handshake answers fail stops there (R236, R348). -/
theorem runInit_of_fail {s : State} (body : State → Bool × State) (h : s.initIn.head? = some false) :
    runInit body s = s.ended .uninitialized .uninitialized .hardwareInitFailure [.hwInit false] := by
  obtain ⟨rest, hin⟩ := List.head?_eq_some_iff.mp h
  simp [runInit, hwInit, drawInit, hin, State.ended, State.observed, emit, raise, finish, setFsm,
    pinsAfter, pinsAfterEvent, Event.isBusy, Event.isHwInit]

/-! ### What every operation keeps -/

/-- No operation writes CMD, the arguments or what the host's reads returned (R31, R32). -/
theorem Effect.arguments {i : Instr} {s t : State} (h : Effect i s t) : t.cmd = s.cmd ∧
    t.arg0 = s.arg0 ∧ t.arg1 = s.arg1 ∧ t.arg2 = s.arg2 ∧ t.arg3 = s.arg3 ∧ t.arg4 = s.arg4 ∧
    t.arg5 = s.arg5 ∧ t.replies = s.replies := by
  cases h <;> exact ⟨rfl, rfl, rfl, rfl, rfl, rfl, rfl, rfl⟩

theorem exists_step_eq_next (s : State) : ∃ t, step s = .next t := by
  unfold step
  split
  case h_1 | h_3 => exact ⟨_, rfl⟩
  case h_2 rest _ =>
    obtain ⟨_, t, ht, -⟩ := runCommand_effect (setHost rest s)
    exact ⟨t, ht⟩

end Sys2Proof.Machine

namespace Sys2Proof.Proofs

open Sys2Proof.Machine

/-- Settles O15: every effect of an operation answers a next state and leaves these fields. -/
theorem operationsFinishAndKeepArguments : Obligations.OperationsFinishAndKeepArguments := by
  refine ⟨exists_step_eq_next, fun i s => ?_⟩
  obtain ⟨t, ht, heff⟩ := exec_effect i s
  obtain ⟨hcmd, h0, h1, h2, h3, h4, h5, hreplies⟩ := heff.arguments
  exact ⟨t, ht, heff.opbusy, hcmd, h0, h1, h2, h3, h4, h5, heff.cfg, heff.host, hreplies⟩

/-- Settles O16, by the way the operation ends. -/
theorem operationsRaiseTheirCodes : Obligations.OperationsRaiseTheirCodes := by
  intro i s t hwf hs h
  cases exec_ending h with
  | ok hok => simp [hok]
  | illegalOp hill => cases hwf.symm.trans hill
  | invalidState hi hmem =>
    refine ⟨nofun, nofun, fun _ => ⟨by simp [hi], ?_⟩, nofun, nofun⟩
    rintro rfl
    exact hmem (mem_allowed_ctlReset hi hs)
  | invalidGeometry hi => exact ⟨nofun, fun _ => hi, nofun, nofun, nofun⟩
  | hardwareFault hi => exact ⟨nofun, nofun, nofun, fun _ => hi, nofun⟩
  | hardwareInitFailure hi => exact ⟨nofun, nofun, nofun, nofun, fun _ => hi⟩

/-- Settles O17: a refused operation changes STATUS alone, and a run of the panel port keeps DMEM and the
framebuffer registers. -/
theorem failuresHaveTheirPartialEffects : Obligations.FailuresHaveTheirPartialEffects := by
  intro i s t h
  cases exec_ending h with
  | ok hok => simp [hok]
  | illegalOp | invalidState | invalidGeometry => exact ⟨fun _ => rfl, by simp [State.failed]⟩
  | hardwareFault _ ht =>
    obtain ⟨_, hr⟩ := ht
    exact ⟨by simp, fun _ => ⟨rfl, by rw [hr]; exact ⟨rfl, rfl⟩⟩⟩
  | hardwareInitFailure _ hr => exact ⟨by simp, fun _ => by rw [hr]; exact ⟨rfl, rfl, rfl⟩⟩

/-- Settles O37: the guard decides, and nothing but the guard gives `InvalidState`. -/
theorem guardGivesInvalidState : Obligations.GuardGivesInvalidState := by
  refine ⟨fun i s hne hwf => ?controller, fun i s t hi h hc => ?framebuffer⟩
  case controller =>
    obtain ⟨allowed, hi⟩ := Option.ne_none_iff_exists'.mp hne
    refine ⟨fun hs hreset => exec_of_not_allowed hi hwf ?_,
      fun hs hreset hinit => exec_of_not_allowed hi hwf ?_, fun hs t h hc => ?_⟩
    · simp [mem_allowed_iff hi, hs, hreset]
    · simp [mem_allowed_iff hi, hs, hreset, hinit]
    · obtain ⟨_, hi', hmem⟩ := (exec_ending h).not_mem_allowed hc
      exact hmem ((mem_allowed_iff hi' s.fsm).mpr hs)
  case framebuffer =>
    obtain ⟨_, hi', -⟩ := (exec_ending h).not_mem_allowed hc
    cases hi.symm.trans hi'

/-- Settles O42: the guard lets CTL_INIT run in both states, and only a failed handshake gives the
code. -/
theorem initFailureStaysUninitialized : Obligations.InitFailureStaysUninitialized := by
  refine ⟨fun i s hinit hwf hs hfail => ?fails, fun i s t h hc => ?only⟩
  case fails =>
    have hmem : s.fsm ∈ [Fsm.uninitialized, .idle] := by simpa using hs
    cases i with
    | ctlInitA | ctlInitB =>
      exact (exec_of_allowed rfl hwf hmem).trans (congrArg _ (runInit_of_fail _ hfail))
    | _ => cases hinit
  case only =>
    cases exec_ending h with
    | ok hok => cases hok.symm.trans hc
    | hardwareInitFailure hi hr => exact ⟨hi, by rw [hr]; exact ⟨rfl, rfl⟩⟩
    | illegalOp | invalidState | invalidGeometry | hardwareFault => cases hc

/-- Settles O54: the run stopped at the wait that timed out. -/
theorem faultEndsAtTimedOutWait : Obligations.FaultEndsAtTimedOutWait := by
  refine ⟨fun i s t h hc => ?stops, fun cfg => ?total⟩
  case stops =>
    cases exec_ending h with
    | ok hok => cases hok.symm.trans hc
    | hardwareFault _ ht =>
      obtain ⟨before, hr⟩ := ht
      refine ⟨rfl, before, ?_⟩
      rw [hr]
      simp [List.map_reverse, Function.comp_def]
    | illegalOp | invalidState | invalidGeometry | hardwareInitFailure => cases hc
  case total => rw [timeoutEvents_eq, delayTotal_notReadySamples]

end Sys2Proof.Proofs
end

section
/-! PROOFS. The delays of each operation on a ready panel (70_reset_and_hazards.md R390), and the
settlement of O55: a ready panel's waits add no delay, so a byte sequence is delayed by its own `Delay`
elements alone. -/

namespace Sys2Proof.Machine

/-! ### The delays of a byte sequence -/

/-- The milliseconds of one element of a byte sequence; a wait that is answered at once has none. -/
def PortOp.delayMs : PortOp → Nat
  | .delay ms => ms
  | .cmd _ | .dat _ | .wait => 0

/-- The milliseconds of the `Delay` elements of a byte sequence. -/
def seqDelay (ops : List PortOp) : Nat := (ops.map PortOp.delayMs).sum

@[simp] theorem seqDelay_nil : seqDelay [] = 0 := rfl

@[simp] theorem seqDelay_cons (o : PortOp) (r : List PortOp) :
    seqDelay (o :: r) = o.delayMs + seqDelay r := rfl

@[simp] theorem seqDelay_append (a b : List PortOp) : seqDelay (a ++ b) = seqDelay a + seqDelay b := by
  simp [seqDelay]

@[simp] theorem seqDelay_map_dat (bs : List Byte) : seqDelay (bs.map .dat) = 0 := by
  simp [seqDelay, Function.comp_def, PortOp.delayMs]

@[simp] theorem seqDelay_replicate_dat (n : Nat) (b : Byte) :
    seqDelay (List.replicate n (.dat b)) = 0 := by
  rw [← List.map_replicate, seqDelay_map_dat]

/-- The events of a sequence on a panel that is ready at once have the delays of its elements. -/
theorem delayTotal_seqEvents_zero (cfg : Config) (ops : List PortOp) :
    delayTotal (seqEvents cfg (fun _ => 0) ops) = seqDelay ops := by
  rw [seqEvents_zero]
  induction ops with
  | nil => rfl
  | cons o r ih =>
    have ho : delayTotal (o.readyEvents cfg) = o.delayMs := by cases o <;> rfl
    rw [List.flatMap_cons, delayTotal_append, ih, ho, seqDelay_cons]

/-! ### The sequences -/

@[simp] theorem seqDelay_settle (cfg : Config) : seqDelay (settle cfg) = cfg.settleMs := by
  unfold settle
  split
  · rfl
  · next h => exact (Nat.eq_zero_of_not_pos h).symm

@[simp] theorem seqDelay_initA (cfg : Config) : seqDelay (initA cfg) = 0 := by
  simp [initA, PortOp.delayMs]

@[simp] theorem seqDelay_displayOps (cfg : Config) : seqDelay (displayOps cfg) = 0 := by
  unfold displayOps
  cases cfg.variant <;> rfl

@[simp] theorem seqDelay_sleepOps (cfg : Config) : seqDelay (sleepOps cfg) = 0 := by
  unfold sleepOps
  cases cfg.variant <;> rfl

@[simp] theorem seqDelay_planeA (m : Memory) (win : Window) (buf : Int) (has : Bool) :
    seqDelay (planeA m win buf has) = 0 := by
  rw [planeA_eq_map_dat, seqDelay_map_dat]

@[simp] theorem seqDelay_initB (cfg : Config) : seqDelay (initB cfg) = 0 := by
  simp [initB, PortOp.delayMs]

/-- The settle delays of a partial window: after the window's registers and after each plane (R274). -/
theorem seqDelay_partialA (cfg : Config) (m : Memory) (win : Window) (buf : Int) (has : Bool)
    (red : Option (Int × Bool)) : seqDelay (partialA cfg m win buf has red) =
      (if red.isSome then 3 else 2) * cfg.settleMs := by
  match red with
  | none =>
    simp +arith [partialA, PortOp.delayMs]
  | some _ =>
    simp +arith [partialA, PortOp.delayMs]

@[simp] theorem seqDelay_rowB (cfg : Config) (bx y : Int) (bytes : List Byte) :
    seqDelay (rowB cfg bx y bytes) = 0 := by
  simp [rowB, pointerB, PortOp.delayMs]

@[simp] theorem seqDelay_rowsB (cfg : Config) (bx : Int) (y : Nat → Int) (bytes : Nat → List Byte)
    (n : Nat) : seqDelay (rowsB cfg bx y bytes n) = 0 := by
  induction n with
  | zero => rfl
  | succ n ih => rw [rowsB_succ, seqDelay_append, ih, seqDelay_rowB]

@[simp] theorem seqDelay_areaB (cfg : Config) (bx0 bx1 y0 y1 : Int) :
    seqDelay (areaB cfg bx0 bx1 y0 y1) = 0 := rfl

@[simp] theorem seqDelay_frameAtB (cfg : Config) (m : Memory) (win : Window) (buf : Int) :
    seqDelay (frameAtB cfg m win buf) = 0 := by
  simp [frameAtB_eq]

@[simp] theorem seqDelay_fullFrameB (cfg : Config) (byteAt : Int → Int → Byte) :
    seqDelay (fullFrameB cfg byteAt) = 0 := by
  simp [fullFrameB_eq, fullFrameRows]

/-- Variant A's clear settles twice a plane, and variant B's has no delay (R277, R310). -/
theorem seqDelay_clearOps (cfg : Config) (fill : Byte) : seqDelay (clearOps cfg fill) =
    if cfg.variant = .a then 4 * cfg.settleMs else 0 := by
  unfold clearOps
  cases cfg.variant with
  | a =>
    simp +arith [clearA, clearPlaneA, PortOp.delayMs]
  | b => simp [clearB]

/-! ### The waits of each sequence -/

@[simp] theorem waits_fullFrameB (cfg : Config) (byteAt : Int → Int → Byte) :
    waits (fullFrameB cfg byteAt) = cfg.panelH.toNat := by
  rw [fullFrameB_eq, waits_fullFrameRows]

theorem waits_clearOps_le (cfg : Config) (fill : Byte) :
    waits (clearOps cfg fill) ≤ cfg.panelH.toNat := by
  unfold clearOps
  cases cfg.variant <;> simp [clearA, clearB]

/-- A window has no more rows than the panel (R233). -/
theorem waits_frameAtB_le {cfg : Config} {x y w h : Int} {win : Window}
    (hwin : clip cfg x y w h = some win) (m : Memory) (buf : Int) :
    waits (frameAtB cfg m win buf) ≤ cfg.panelH.toNat := by
  rw [clip_eq, Option.ite_none_right_eq_some] at hwin
  obtain ⟨-, hwin⟩ := hwin
  cases hwin
  simp only [waits_frameAtB, clipWindow, u16]
  omega

/-! ### How long an operation is delayed -/

/-- The events `t` has over `s` hold `n` milliseconds of delays. -/
def DelayedBy (s t : State) (n : Nat) : Prop :=
  ∃ evs, t.trace.map Traced.event = evs.reverse ++ s.trace.map Traced.event ∧ delayTotal evs = n

theorem DelayedBy.of_trace_eq {s t : State} (h : t.trace = s.trace) : DelayedBy s t 0 :=
  ⟨[], congrArg _ h, rfl⟩

theorem DelayedBy.of_trace {s t : State} {f : Fsm} {evs : List Event}
    (h : t.trace = (evs.map (Traced.mk f)).reverse ++ s.trace) : DelayedBy s t (delayTotal evs) :=
  ⟨evs, by rw [h]; simp [List.map_reverse, Function.comp_def], rfl⟩

theorem DelayedBy.trans {s t u : State} {m n : Nat} (h : DelayedBy s t m) (k : DelayedBy t u n) :
    DelayedBy s u (m + n) := by
  obtain ⟨e, he, rfl⟩ := h
  obtain ⟨f, hf, rfl⟩ := k
  exact ⟨e ++ f, by simp [hf, he], delayTotal_append e f⟩

theorem Ran.delayedBy {s t : State} {evs : List Event} (h : Ran s t evs) :
    DelayedBy s t (delayTotal evs) :=
  .of_trace (congrArg State.trace h)

theorem observed_delayedBy (s : State) (d : Fsm) (evs : List Event) :
    DelayedBy s (s.observed d evs) (delayTotal evs) :=
  .of_trace rfl

theorem delayTotal_resetPulseEvents (cfg : Config) :
    delayTotal (resetPulseEvents cfg) = 2 * cfg.resetMs := by
  simp +arith [delayTotal, resetPulseEvents]

theorem resetPulse_delayedBy (s : State) : DelayedBy s (resetPulse s) (2 * s.cfg.resetMs) :=
  delayTotal_resetPulseEvents s.cfg ▸ (resetPulse_ran s).delayedBy

/-! ### Runs on a ready panel -/

theorem ReadyFor.mono {s : State} {m n : Nat} (h : ReadyFor s n) (hmn : m ≤ n) : ReadyFor s m := by
  have htake := congrArg (List.take m) h
  rwa [List.take_take, List.take_replicate, Nat.min_eq_left hmn] at htake

section Ready

variable {s : State} {n d : Nat} (hready : ReadyFor s n)
include hready

theorem runAs_delayedBy {during after : Fsm} {ops : List PortOp} (hw : waits ops ≤ n)
    (hd : seqDelay ops = d) : DelayedBy s (runAs during after ops s) d := by
  rw [runAs_of_readyEach (hready.mono hw).each, ← hd, ← delayTotal_seqEvents_zero s.cfg]
  exact .of_trace rfl

/-- A run in the state the operation starts in. -/
theorem endRun_delayedBy {after : Fsm} {ops : List PortOp} (hw : waits ops ≤ n)
    (hd : seqDelay ops = d) : DelayedBy s (endRun after (runPort ops s)) d := by
  rw [endRun_runPort_eq_runAs rfl]
  exact runAs_delayedBy hready hw hd

end Ready

/-- An upload has no delay (R302). -/
theorem endRun_setLutB_delayedBy (sel : LutSel) (after : Fsm) (s : State) :
    DelayedBy s (endRun after (setLutB sel s)) 0 :=
  endRun_delayedBy (s := setLut (lutFor sel s) s) (n := 0) rfl (by simp [uploadLut])
    (by simp [uploadLut, PortOp.delayMs])

theorem runSetMemoryArea_delayedBy (s : State) : DelayedBy s (runSetMemoryArea s) 0 := by
  unfold runSetMemoryArea
  dsimp only
  split
  · exact endRun_delayedBy (n := 0) rfl (waits_areaB ..).le (seqDelay_areaB ..)
  · exact .of_trace_eq rfl

/-! ### CTL_INIT -/

@[simp] theorem hwInit_busyIn (s : State) : (hwInit s).2.busyIn = s.busyIn := by
  unfold hwInit drawInit
  split <;> rfl

theorem runInitB_delayedBy (sel : LutSel) (s : State) :
    DelayedBy s (endRun .idle (runInitB sel s)) 0 := by
  have hinit := observed_delayedBy s s.fsm (seqEvents s.cfg (fun _ => 0) (initB s.cfg))
  rw [delayTotal_seqEvents_zero, seqDelay_initB] at hinit
  rw [runInitB_eq]
  exact hinit.trans (endRun_setLutB_delayedBy sel .idle _)

/-- CTL_INIT that ends OK has had an ok handshake, so its reset pulse was sent; its variant's own init,
whose panel has not been asked yet, adds no delay (R236). -/
theorem runInit_delayedBy {body : State → Bool × State} {s : State}
    (hbody : ∀ u : State, u.cfg = s.cfg → u.busyIn = s.busyIn → DelayedBy u (endRun .idle (body u)) 0)
    (hok : (runInit body s).code = .ok) :
    DelayedBy s (runInit body s) (2 * s.cfg.resetMs) := by
  have hshake := hwInit_ran (setFsm .uninitialized s)
  have hnone : DelayedBy s (hwInit (setFsm .uninitialized s)).2 0 := hshake.delayedBy
  have hcfg : (hwInit (setFsm .uninitialized s)).2.cfg = s.cfg := hshake.cfg
  have hpulse := hcfg ▸ resetPulse_delayedBy (hwInit (setFsm .uninitialized s)).2
  unfold runInit at hok ⊢
  dsimp only at hok ⊢
  split at hok
  case isTrue hr =>
    rw [if_pos hr]
    have hrun := hnone.trans (hpulse.trans (hbody _ (by simp [hcfg]) (by simp)))
    rwa [Nat.add_zero, Nat.zero_add] at hrun
  case isFalse => cases hok

/-! ### The operations that wait or clip -/

section Ready

variable {s : State} (hready : ReadyFor s (s.cfg.panelH.toNat + 1))
include hready

theorem runSetMemoryPointer_delayedBy : DelayedBy s (runSetMemoryPointer s) 0 := by
  unfold runSetMemoryPointer
  dsimp only
  split
  · exact endRun_delayedBy hready (Nat.le_add_left 1 _) rfl
  · exact .of_trace_eq rfl

theorem runSetFrameMemoryAt_delayedBy : DelayedBy s (runSetFrameMemoryAt s) 0 := by
  unfold runSetFrameMemoryAt
  split
  · exact .of_trace_eq rfl
  · next hwin =>
    exact runAs_delayedBy hready ((waits_frameAtB_le hwin ..).trans (Nat.le_succ _))
      (seqDelay_frameAtB ..)

end Ready

/-- A partial window that clips to nothing has no event; the others have their settle delays, whatever
the panel answers (R274). -/
theorem runPartialA_delays (buf : Int) (has : Bool) (red : Option (Int × Bool)) (s : State) :
    ∃ evs, (runPartialA buf has red s).trace.map Traced.event =
        evs.reverse ++ s.trace.map Traced.event ∧
      (evs = [] ∨ delayTotal evs = (if red.isSome then 3 else 2) * s.cfg.settleMs) := by
  unfold runPartialA
  split
  · exact ⟨[], rfl, .inl rfl⟩
  · obtain ⟨evs, htrace, htotal⟩ := runAs_delayedBy (s := s) (n := 0) rfl (waits_partialA ..).le
      (seqDelay_partialA ..)
    exact ⟨evs, htrace, .inr htotal⟩

/-! ### The guard -/

/-- An operation that ends OK on a block that has it was let run by its guard. -/
theorem eq_controllerBody_of_ok {i : Instr} {s t : State} {allowed : List Fsm}
    (hi : i.allowed = some allowed) (hwf : i.WellFormed s.cfg.variant = true)
    (h : exec i s = .next t) (hok : t.code = .ok) : t = controllerBody i s := by
  by_cases hs : s.fsm ∈ allowed
  · cases (exec_of_allowed hi hwf hs).symm.trans h
    rfl
  · cases (exec_of_not_allowed hi hwf hs).symm.trans h
    cases hok

/-- An operation without a guard has no event (R140, R234). -/
theorem exec_delayedBy_of_no_guard {i : Instr} {s t : State} (hi : i.allowed = none)
    (h : exec i s = .next t) : DelayedBy s t 0 := by
  obtain ⟨u, hu, heff⟩ := exec_effect i s
  cases h.symm.trans hu
  obtain ⟨-, -, -, htrace, -⟩ := heff.controller hi
  exact .of_trace_eq htrace

end Sys2Proof.Machine

namespace Sys2Proof.Proofs

open Sys2Proof.Machine

/-- Settles O55, operation by operation: each one's byte sequence has at most `PANEL_H + 1` waits, and
its `Delay` elements are R390's. -/
theorem delayTotals : Obligations.DelayTotals := by
  intro i s t hwf hready h hok
  have hbody (allowed : List Fsm) (hi : i.allowed = some allowed) : t = controllerBody i s :=
    eq_controllerBody_of_ok hi hwf h hok
  cases i with
  | ctlReset =>
    cases hbody _ rfl
    exact resetPulse_delayedBy (setFsm .uninitialized s)
  | ctlInitA =>
    cases hbody _ rfl
    refine runInit_delayedBy (fun u hcfg hbusy => ?_) hok
    have hu : ReadyFor u 1 := by
      rw [ReadyFor, hcfg, hbusy]
      exact hready.mono (Nat.le_add_left 1 _)
    exact endRun_delayedBy hu (waits_initA _).le (seqDelay_initA _)
  | ctlInitB sel =>
    cases hbody _ rfl
    exact runInit_delayedBy (fun u _ _ => runInitB_delayedBy sel u) hok
  | ctlDisplayFrame =>
    cases hbody _ rfl
    exact runAs_delayedBy hready (by simp [displayOps_eq]) (seqDelay_displayOps _)
  | ctlSleep =>
    cases hbody _ rfl
    exact runAs_delayedBy hready (by simp [sleepOps_eq]) (seqDelay_sleepOps _)
  | ctlClearFrameMemory =>
    cases hbody _ rfl
    exact runAs_delayedBy hready ((waits_clearOps_le ..).trans (Nat.le_succ _)) (seqDelay_clearOps ..)
  | aSetPartialWindow | aSetPartialWindowBlack =>
    cases hbody _ rfl
    exact runPartialA_delays ..
  | bSetLut sel =>
    cases hbody _ rfl
    exact endRun_setLutB_delayedBy sel .idle s
  | bSetMemoryArea =>
    cases hbody _ rfl
    exact runSetMemoryArea_delayedBy s
  | bSetMemoryPointer =>
    cases hbody _ rfl
    exact runSetMemoryPointer_delayedBy hready
  | bSetFrameMemoryAt =>
    cases hbody _ rfl
    exact runSetFrameMemoryAt_delayedBy hready
  | bSetFrameMemory =>
    cases hbody _ rfl
    exact runAs_delayedBy hready ((waits_fullFrameB ..).le.trans (Nat.le_succ _))
      (seqDelay_fullFrameB ..)
  | _ => exact exec_delayedBy_of_no_guard rfl h

end Sys2Proof.Proofs
end

section
/-! PROOFS. The block at rest (70_reset_and_hazards.md R381), and the settlement of O7. -/

namespace Sys2Proof.Machine

theorem turn_of_nothing_pending {s : State} (hb : s.opbusy = false) (hs : s.host = []) :
    turn s = .rest := by
  simp [turn, hs, hb]

theorem step_of_turn_rest {s : State} (h : turn s = .rest) : step s = .next s := by
  unfold step
  rw [h]

end Sys2Proof.Machine

namespace Sys2Proof.Proofs

open Sys2Proof.Machine

/-- Settles O7: with nothing started and nothing pending it is nobody's turn. -/
theorem idleBlockDoesNothing : Obligations.IdleBlockDoesNothing :=
  ⟨fun _ _ => ⟨rfl, rfl⟩, fun _ hb hs => step_of_turn_rest (turn_of_nothing_pending hb hs)⟩

end Sys2Proof.Proofs
end

section
/-! PROOFS. What an access of the host and the sequencer's turn do (10_state.md R46 to R48; 20_memory.md
R71, R80; 42_controller_core.md R231), and the settlement of O6, O10 and O11. -/

namespace Sys2Proof.Machine

/-- An access that is never held is performed at once, whether an operation runs or not; only a `pass`
gives the turn away (R80, R383). -/
theorem turn_of_not_stalls {s : State} {a : HostAct} {r : List HostAct} (hs : s.host = a :: r)
    (ha : a.stalls = false) (hpass : a ≠ .pass) : turn s = .access a r := by
  cases a with
  | pass => exact absurd rfl hpass
  | regWrite | regRead | memWrite | memRead | blockReset => simp [turn, hs, ha]

/-- The numbers above ARG5's are read-only or unlisted: a write is ignored (R46). -/
theorem writeReg_of_ignored {n : Byte} (hn : 6 < n.toNat) (v : Word) (s : State) :
    writeReg n v s = s := by
  have hne : ∀ k : Byte, k.toNat ≤ 6 → n ≠ k := fun k hk he => by
    subst he
    omega
  unfold writeReg
  iterate 7 rw [if_neg (hne _ (by decide))]

end Sys2Proof.Machine

namespace Sys2Proof.Proofs

open Sys2Proof.Machine

/-- Settles O6: each of the three is a turn of the sequencer, which runs the operation CMD is the word
of. -/
theorem stepRunsDecodedOperation : Obligations.StepRunsDecodedOperation := by
  intro s i hb hdecode
  obtain ⟨hword, hwf⟩ := decode_eq_ok_iff_encode_eq.mp hdecode
  have run {s₀ : State} (h : SequencerTurn s s₀) : step s = exec i s₀ := step_eq_exec h hword hwf
  exact ⟨fun hs => run ⟨hb, .inl ⟨hs, rfl⟩⟩, fun r hs => run ⟨hb, .inr (.inl ⟨r, hs, rfl⟩)⟩,
    fun a r hs ha => run ⟨hb, .inr (.inr ⟨a, r, hs, ha, rfl⟩)⟩⟩

/-- Settles O10: a write that is performed is `writeReg`, and one of an ignored number is never held. -/
theorem registerWrites : Obligations.RegisterWrites := by
  refine fun s n v r hs => ⟨fun hb => ?idle, fun hn => ?ignored⟩
  case idle =>
    have hstep : step s = .next (writeReg n v (setHost r s)) :=
      step_of_turn_access (turn_of_not_busy hb hs)
    rw [hstep]
    refine ⟨?_, ?_, ?_, ?_, ?_, ?_, ?_⟩ <;> (rintro rfl; rfl)
  case ignored =>
    have hturn : turn s = .access (.regWrite n v) r :=
      turn_of_not_stalls hs (decide_eq_false (Nat.not_le.mpr hn)) nofun
    exact (step_of_turn_access hturn).trans (congrArg Host.Outcome.next (writeReg_of_ignored hn v _))

/-- Settles O11: the port's address is below 2^16, so a write keeps the canonical form. -/
theorem hostMemoryPort : Obligations.HostMemoryPort := fun s a _ hb hm =>
  ⟨fun v hs => ⟨Memory.write s.mem a.toNat v, step_of_turn_access (turn_of_not_busy hb hs),
      write_wf hm a.isLt, fun b => read_write hm a.toNat b v⟩,
    fun hs => step_of_turn_access (turn_of_not_busy hb hs)⟩

end Sys2Proof.Proofs
end

section
/-! PROOFS. Block reset (10_state.md R69; 70_reset_and_hazards.md R380), and the settlement of O12 and
O13: reset takes the registers away from what the abandoned operation leaves, whose DMEM lies between the
memory before and the finished operation's, drawn in one colour. -/

namespace Sys2Proof.Machine

/-! ### The first events of an operation -/

section FirstEvents

variable {i : Instr} {s t : State}

theorem firstEvents_length (k : Nat) (h : exec i s = .next t) :
    (firstEvents k s t).length = min k (t.trace.length - s.trace.length) := by
  obtain ⟨new, hnew⟩ := exec_trace h
  rw [firstEvents_eq k hnew, hnew, List.length_drop, List.length_append]
  omega

/-- The events let stand are the operation's oldest, so the trace after them is one the operation had. -/
theorem firstEvents_append_suffix (k : Nat) (h : exec i s = .next t) :
    firstEvents k s t ++ s.trace <:+ t.trace := by
  obtain ⟨new, hnew⟩ := exec_trace h
  rw [firstEvents_eq k hnew, hnew]
  obtain ⟨later, hlater⟩ := List.drop_suffix (new.length - k) new
  exact ⟨later, by rw [← List.append_assoc, hlater]⟩

/-- A count past the last event lets all of them stand. -/
theorem firstEvents_append_of_le {k : Nat} (h : exec i s = .next t)
    (hk : t.trace.length - s.trace.length ≤ k) : firstEvents k s t ++ s.trace = t.trace := by
  refine (firstEvents_append_suffix k h).eq_of_length_le ?_
  rw [List.length_append, firstEvents_length k h]
  omega

end FirstEvents

/-! ### A drawing in one colour -/

section Drawn

variable {fb : FbRegs} {c : Colour} {m m' : Memory}

theorem Drawn.wf (h : Drawn fb c m m') (hm : Memory.wf m = true) : Memory.wf m' = true :=
  h.keeps (P := fun m => Memory.wf m = true) (fun _ _ _ hp => putAbs_wf hp _ _ _ _) hm

/-- A drawing leaves every byte outside the frame as it was. -/
theorem Drawn.frame (h : Drawn fb c m m') (hfb : fb.Wf) (hm : Memory.wf m = true) {a : Nat}
    (ha : ¬ frameByte fb a) : Memory.read m' a = Memory.read m a := by
  induction h with
  | refl => rfl
  | plot x y h ih => exact (putAbs_frame hfb (h.wf hm) x y c ha).trans ih

/-- A drawing leaves a pixel of the frame, or gives it the bit of its one colour. -/
theorem Drawn.pixel (h : Drawn fb c m m') (hfb : fb.Wf) (hm : Memory.wf m = true) {u v : Int}
    (huv : inFrame fb u v) :
    pixelBit fb m' u v = pixelBit fb m u v ∨ pixelBit fb m' u v = setBitFor fb.inv c := by
  induction h with
  | refl => exact .inl rfl
  | plot x y h ih =>
    rw [putAbs_pixel hfb (h.wf hm) x y c huv]
    split
    · exact .inr rfl
    · exact ih

/-- Part of the way through a drawing a pixel is as before or as at the end: once it has the colour's bit
no later call takes it away. -/
theorem Drawn.pixel_between {m₀ m₁ : Memory} (h₀ : Drawn fb c m₀ m) (h₁ : Drawn fb c m m₁) (hfb : fb.Wf)
    (hm : Memory.wf m₀ = true) {u v : Int} (huv : inFrame fb u v) :
    pixelBit fb m u v = pixelBit fb m₀ u v ∨ pixelBit fb m u v = pixelBit fb m₁ u v := by
  rcases h₀.pixel hfb hm huv with hkept | hset
  · exact .inl hkept
  · rcases h₁.pixel hfb (h₀.wf hm) huv with hkept | hset'
    · exact .inr hkept.symm
    · exact .inr (hset.trans hset'.symm)

end Drawn

/-! ### The step -/

/-- A block reset is never held (R383). -/
theorem step_of_blockReset {s : State} {k : Nat} {r : List HostAct} (hs : s.host = .blockReset k :: r) :
    step s = .next (blockReset (abandoned k (setHost r s))) :=
  step_of_turn_access (turn_of_not_stalls hs rfl nofun)

/-- A block reset during an operation: the registers are at their reset values, and the first events and
the first pixel writes of the operation stand (R69, R380). -/
theorem step_of_blockReset_started {s t : State} {i : Instr} (k : Nat) {r : List HostAct}
    (hb : s.opbusy = true) (hd : decode s.cfg.variant s.cmd = .ok i)
    (ht : exec i (setHost r s) = .next t) :
    step { s with host := .blockReset k :: r } = .next (blockReset
      { emitted (firstEvents k (setHost r s) t) (setHost r s) with
        mem := memAfter k i (setHost r s) }) :=
  (step_of_blockReset rfl).trans
    (congrArg (fun u => Host.Outcome.next (blockReset u)) (abandoned_started k hb hd ht))

end Sys2Proof.Machine

namespace Sys2Proof.Proofs

open Sys2Proof.Machine

/-- Settles O12: in each of the three cases nothing is abandoned. -/
theorem blockReset : Obligations.BlockReset := by
  intro s k r hs h
  have hkept : abandoned k (setHost r s) = setHost r s := by
    rcases h with hb | rfl | hd
    · exact abandoned_nothing k (.inl hb)
    · exact abandoned_zero _
    · exact abandoned_nothing k (.inr hd)
  rw [step_of_blockReset hs, hkept]
  rfl

/-- Settles O13: the DMEM a reset finds is some pixel writes after the memory before and some before the
finished operation's, all in one colour, and for a large count both it and the trace are the finished
operation's. -/
theorem blockResetAbandonsOperation : Obligations.BlockResetAbandonsOperation := by
  intro s t r i hb hd ht hm hfb
  obtain ⟨c, t', ht', hafter, hbefore, ⟨n, hall⟩, hnone, hno⟩ := memAfter_cases i (setHost r s)
  obtain rfl : t = t' := Host.Outcome.next.inj (ht.symm.trans ht')
  refine ⟨fun k => ?cut, max n (t.trace.length - s.trace.length), fun k hk => ?whole⟩
  case cut =>
    refine ⟨firstEvents k (setHost r s) t, memAfter k i (setHost r s), _,
      step_of_blockReset_started k hb hd ht, firstEvents_length k ht, firstEvents_append_suffix k ht,
      (hbefore k).wf hm, ?_, fun a => (hbefore k).frame hfb hm,
      fun x y => (hbefore k).pixel_between (hafter k) hfb hm⟩
    rintro (hi | rfl)
    · exact hno hi k
    · exact hnone
  case whole =>
    obtain ⟨hpixels, hevents⟩ := max_le_iff.mp hk
    exact ⟨_, step_of_blockReset_started k hb hd ht, hall k hpixels, firstEvents_append_of_le ht hevents⟩

end Sys2Proof.Proofs
end
